-- ==== Sys2Proof/Word.lean ====
section
/-! DEFINITION. The word types of the Tape Block Mastering Engine (TBME). A register and a command word are 32 bits
(spec 10_state.md section 2, 30_encoding.md R80); a buffer cell, an accumulator and a suffix byte are 8 bits. -/

namespace Sys2Proof

/-- A byte of IBUF or OBUF, an accumulator, a suffix byte. -/
abbrev Byte := BitVec 8

/-- A 32-bit register or command word (10_state.md section 2; 30_encoding.md R80). -/
abbrev Word := BitVec 32

/-- An address of the 26-bit host bus (20_memory.md R60). -/
abbrev BusAddr := BitVec 26

end Sys2Proof
end

