-- ==== Sys2Proof/Syntax.lean ====
section
/-! DEFINITION. The commands of TBME: one constructor per row of spec/opcode_table.json (30_encoding.md R86).
Bytes and the bit-sliced field VAR are bit vectors; CHUNK (a size) and SZ (an exponent) are numbers, bounded by
WellFormed.lean. -/

namespace Sys2Proof

/-- A command of the opcode map (30_encoding.md R86). -/
inductive Instr where
  /-- NOP (44_control.md R230). -/
  | nop
  /-- CK_SEED SEEDL, SEEDH (40_checksum.md R110), format S. -/
  | ckSeed (seedL seedH : Byte)
  /-- CK_BYTE IMM8 (40_checksum.md R111), format B. -/
  | ckByte (imm8 : Byte)
  /-- CK_RUN (40_checksum.md R112). -/
  | ckRun
  /-- CK_SOLVE (40_checksum.md R113). -/
  | ckSolve
  /-- CK_SOLVE_ACC (40_checksum.md R114). -/
  | ckSolveAcc
  /-- CK_CHECK (40_checksum.md R115). -/
  | ckCheck
  /-- BLK_SER (41_block.md R137). -/
  | blkSer
  /-- TBL_CLEAR (42_table.md R172). -/
  | tblClear
  /-- TBL_APPEND (42_table.md R173). -/
  | tblAppend
  /-- TBL_SPLIT CHUNK (42_table.md R177), format K. -/
  | tblSplit (chunk : Nat)
  /-- TBL_GEN with FAM = 0 (43_generators.md R190, R195), format G. VAR and SZ are decoded per family at
  execution (R193), so every value of theirs is a command. -/
  | tblGenComb (var : BitVec 3) (sz : Nat)
  /-- TBL_GEN with FAM = 1 (43_generators.md R190, R200), format G. -/
  | tblGenLinear (var : BitVec 3) (sz : Nat)
  /-- TBL_GEN with FAM = 2 (43_generators.md R190, R210), format G. -/
  | tblGenAttrSq (var : BitVec 3) (sz : Nat)
  /-- TBL_SER (42_table.md R174). -/
  | tblSer
  /-- TBL_CHECK (42_table.md R176). -/
  | tblCheck
  /-- TBL_READ (42_table.md R171). -/
  | tblRead
  /-- SRESET (44_control.md R231). -/
  | sreset
  deriving DecidableEq, Repr

/-- The row of spec/opcode_table.json a command stands in, as the table spells it. -/
def Instr.mnemonic : Instr → String
  | .nop => "NOP"
  | .ckSeed _ _ => "CK_SEED"
  | .ckByte _ => "CK_BYTE"
  | .ckRun => "CK_RUN"
  | .ckSolve => "CK_SOLVE"
  | .ckSolveAcc => "CK_SOLVE_ACC"
  | .ckCheck => "CK_CHECK"
  | .blkSer => "BLK_SER"
  | .tblClear => "TBL_CLEAR"
  | .tblAppend => "TBL_APPEND"
  | .tblSplit _ => "TBL_SPLIT"
  | .tblGenComb _ _ => "TBL_GEN.COMB"
  | .tblGenLinear _ _ => "TBL_GEN.LINEAR"
  | .tblGenAttrSq _ _ => "TBL_GEN.ATTRSQ"
  | .tblSer => "TBL_SER"
  | .tblCheck => "TBL_CHECK"
  | .tblRead => "TBL_READ"
  | .sreset => "SRESET"

end Sys2Proof
end

