-- ==== Sys2Proof/WellFormed.lean ====
section
/-! DEFINITION. Which terms of `Instr` a command word can carry: a number fits its field (30_encoding.md R84 CHUNK,
R85 SZ). The other operands are bit vectors of their field's width and fit by type. -/

namespace Sys2Proof

/-- The command's operands fit their fields: CHUNK is 16 bits (30_encoding.md R84), SZ is 2 bits (R85). -/
def Instr.wellFormed : Instr → Bool
  | .tblSplit chunk => chunk < 65536
  | .tblGenComb _ sz => sz < 4
  | .tblGenLinear _ sz => sz < 4
  | .tblGenAttrSq _ sz => sz < 4
  | .nop => true
  | .ckSeed _ _ => true
  | .ckByte _ => true
  | .ckRun => true
  | .ckSolve => true
  | .ckSolveAcc => true
  | .ckCheck => true
  | .blkSer => true
  | .tblClear => true
  | .tblAppend => true
  | .tblSer => true
  | .tblCheck => true
  | .tblRead => true
  | .sreset => true

end Sys2Proof
end

