-- ==== Sys2Proof/Decode.lean ====
section
/-! DEFINITION. Decoding a 32-bit command word (30_encoding.md R80 to R88), total and rejecting by name, then the
encoder, then the opcode map of R86 as match and mask pairs, which the statements compare the decoder with. -/

namespace Sys2Proof

/-- Why a word is illegal: the three causes of 30_encoding.md R87. All three raise `Error(ILLEGAL)`. -/
inductive Reject where
  /-- The opcode is none of the opcode map's. -/
  | opcode
  /-- Opcode 0x23 with FAM = 3. -/
  | family
  /-- A listed opcode with a fixed bit that is not zero. -/
  | fixedBits
  deriving DecidableEq, Repr

/-- Bits `lo .. lo + n - 1` of a word (00_scope.md R7). -/
def field (w : Word) (lo n : Nat) : BitVec n := w.extractLsb' lo n

/-- Bits 31 down to `lo` are zero. -/
def zeroFrom (w : Word) (lo : Nat) : Bool := w.toNat < 2 ^ lo

/-- Format N: bits 31:8 must be 0 (30_encoding.md R81). -/
def formatN (w : Word) (i : Instr) : Except Reject Instr :=
  if zeroFrom w 8 then .ok i else .error .fixedBits

/-- Format B: IMM8 in bits 15:8, bits 31:16 must be 0 (30_encoding.md R82). -/
def formatB (w : Word) (f : Byte → Instr) : Except Reject Instr :=
  if zeroFrom w 16 then .ok (f (field w 8 8)) else .error .fixedBits

/-- Format S: SEEDL in bits 15:8, SEEDH in bits 23:16, bits 31:24 must be 0 (30_encoding.md R83). -/
def formatS (w : Word) (f : Byte → Byte → Instr) : Except Reject Instr :=
  if zeroFrom w 24 then .ok (f (field w 8 8) (field w 16 8)) else .error .fixedBits

/-- Format K: CHUNK in bits 23:8, bits 31:24 must be 0 (30_encoding.md R84). -/
def formatK (w : Word) (f : Nat → Instr) : Except Reject Instr :=
  if zeroFrom w 24 then .ok (f (field w 8 16).toNat) else .error .fixedBits

/-- Format G: FAM in bits 9:8, VAR in bits 12:10, SZ in bits 14:13, bits 31:15 must be 0; FAM = 3 is illegal
(30_encoding.md R85, R87). -/
def formatG (w : Word) : Except Reject Instr :=
  if zeroFrom w 15 then
    if field w 8 2 = 0#2 then .ok (.tblGenComb (field w 10 3) (field w 13 2).toNat)
    else if field w 8 2 = 1#2 then .ok (.tblGenLinear (field w 10 3) (field w 13 2).toNat)
    else if field w 8 2 = 2#2 then .ok (.tblGenAttrSq (field w 10 3) (field w 13 2).toNat)
    else .error .family
  else .error .fixedBits

/-- The command a word stands for (30_encoding.md R86), or why it is illegal (R87, R88). -/
def decode (w : Word) : Except Reject Instr :=
  match field w 0 8 with
  | 0x00#8 => formatN w .nop
  | 0x01#8 => formatS w .ckSeed
  | 0x02#8 => formatB w .ckByte
  | 0x03#8 => formatN w .ckRun
  | 0x04#8 => formatN w .ckSolve
  | 0x05#8 => formatN w .ckSolveAcc
  | 0x06#8 => formatN w .ckCheck
  | 0x10#8 => formatN w .blkSer
  | 0x20#8 => formatN w .tblClear
  | 0x21#8 => formatN w .tblAppend
  | 0x22#8 => formatK w .tblSplit
  | 0x23#8 => formatG w
  | 0x24#8 => formatN w .tblSer
  | 0x25#8 => formatN w .tblCheck
  | 0x26#8 => formatN w .tblRead
  | 0xFF#8 => formatN w .sreset
  | _ => .error .opcode

/-- The decoder on a row of spec/opcode_table.json: the bits of a command word, bit 0 least significant. A command is
one 32-bit word that moves as one value, so no byte order applies (20_memory.md R64); bits above 31 are no command. -/
def decodeTableWord (_nbits w : Nat) : Option Instr :=
  if w < 2 ^ 32 then
    match decode (BitVec.ofNat 32 w) with
    | .ok i => some i
    | .error _ => none
  else none

/-- Format N word (30_encoding.md R81). -/
def wordN (opc : Byte) : Word := 0#24 ++ opc

/-- Format G word (30_encoding.md R85). -/
def wordG (fam : BitVec 2) (var : BitVec 3) (sz : Nat) : Word := 0#17 ++ BitVec.ofNat 2 sz ++ var ++ fam ++ 0x23#8

/-- The word of a well-formed command, laid out as the format tables of 30_encoding.md R81 to R86 draw it, most
significant field first. -/
def encode : Instr → Word
  | .nop => wordN 0x00#8
  | .ckSeed seedL seedH => 0#8 ++ seedH ++ seedL ++ 0x01#8
  | .ckByte imm8 => 0#16 ++ imm8 ++ 0x02#8
  | .ckRun => wordN 0x03#8
  | .ckSolve => wordN 0x04#8
  | .ckSolveAcc => wordN 0x05#8
  | .ckCheck => wordN 0x06#8
  | .blkSer => wordN 0x10#8
  | .tblClear => wordN 0x20#8
  | .tblAppend => wordN 0x21#8
  | .tblSplit chunk => 0#8 ++ BitVec.ofNat 16 chunk ++ 0x22#8
  | .tblGenComb var sz => wordG 0#2 var sz
  | .tblGenLinear var sz => wordG 1#2 var sz
  | .tblGenAttrSq var sz => wordG 2#2 var sz
  | .tblSer => wordN 0x24#8
  | .tblCheck => wordN 0x25#8
  | .tblRead => wordN 0x26#8
  | .sreset => wordN 0xFF#8

/-- A row of the second table of 30_encoding.md R86: a word is the row's when its bits under `mask` are `bits`. -/
structure OpcodeRow where
  mnemonic : String
  bits : Word
  mask : Word
  deriving DecidableEq, Repr

/-- The word is one of the row's. -/
def OpcodeRow.matchesWord (r : OpcodeRow) (w : Word) : Bool := w &&& r.mask == r.bits

/-- The opcode map as `(match, mask)` pairs, row by row from 30_encoding.md R86. The decoder above does not use it:
it is written out a second time so that the statements can hold one against the other. -/
def opcodeMap : List OpcodeRow := [
  ⟨"NOP", 0x00000000#32, 0xFFFFFFFF#32⟩,
  ⟨"CK_SEED", 0x00000001#32, 0xFF0000FF#32⟩,
  ⟨"CK_BYTE", 0x00000002#32, 0xFFFF00FF#32⟩,
  ⟨"CK_RUN", 0x00000003#32, 0xFFFFFFFF#32⟩,
  ⟨"CK_SOLVE", 0x00000004#32, 0xFFFFFFFF#32⟩,
  ⟨"CK_SOLVE_ACC", 0x00000005#32, 0xFFFFFFFF#32⟩,
  ⟨"CK_CHECK", 0x00000006#32, 0xFFFFFFFF#32⟩,
  ⟨"BLK_SER", 0x00000010#32, 0xFFFFFFFF#32⟩,
  ⟨"TBL_CLEAR", 0x00000020#32, 0xFFFFFFFF#32⟩,
  ⟨"TBL_APPEND", 0x00000021#32, 0xFFFFFFFF#32⟩,
  ⟨"TBL_SPLIT", 0x00000022#32, 0xFF0000FF#32⟩,
  ⟨"TBL_GEN.COMB", 0x00000023#32, 0xFFFF83FF#32⟩,
  ⟨"TBL_GEN.LINEAR", 0x00000123#32, 0xFFFF83FF#32⟩,
  ⟨"TBL_GEN.ATTRSQ", 0x00000223#32, 0xFFFF83FF#32⟩,
  ⟨"TBL_SER", 0x00000024#32, 0xFFFFFFFF#32⟩,
  ⟨"TBL_CHECK", 0x00000025#32, 0xFFFFFFFF#32⟩,
  ⟨"TBL_READ", 0x00000026#32, 0xFFFFFFFF#32⟩,
  ⟨"SRESET", 0x000000FF#32, 0xFFFFFFFF#32⟩]

end Sys2Proof
end

