-- ==== Sys2Proof/Config.lean ====
section
/-! DEFINITION. What an instance of TBME fixes: the three implementation parameters of 00_scope.md R5 and the
display-region constants of 00_scope.md R6. -/

namespace Sys2Proof

/-- The implementation parameters of 00_scope.md R5, fixed when an instance is built. The model takes them as an
argument: they stand in `Machine.State.params`, no step changes them, and every statement over all states is a
statement over all parameters (assumption log 2). -/
structure Params where
  /-- `P_IBUF_SIZE`, bytes in IBUF. -/
  ibufSize : Nat
  /-- `P_OBUF_SIZE`, bytes in OBUF. -/
  obufSize : Nat
  /-- `P_TBL_CAP`, entries the table RAM holds. -/
  tblCap   : Nat
  deriving DecidableEq, Repr

/-- The legal values of 00_scope.md R5. -/
abbrev Params.Legal (p : Params) : Prop :=
  1 ≤ p.ibufSize ∧ p.ibufSize ≤ 2 ^ 24 ∧ 22 ≤ p.obufSize ∧ p.obufSize ≤ 2 ^ 24 ∧ 1 ≤ p.tblCap ∧ p.tblCap ≤ 65535

/-- The values the spec's examples take (00_scope.md R5, last column; assumption log 2). -/
def Params.examples : Params := { ibufSize := 65536, obufSize := 65536, tblCap := 8192 }

/-- `DISP_BASE = BM_BASE` (00_scope.md R6). -/
abbrev dispBase : Nat := 0x4000
/-- `BM_SIZE`, bytes of the pixel bitmap (00_scope.md R6). -/
abbrev bmSize : Nat := 6144
/-- `AT_BASE` (00_scope.md R6). -/
abbrev atBase : Nat := 0x5800
/-- `AT_SIZE`, bytes of the attribute map (00_scope.md R6). -/
abbrev atSize : Nat := 768
/-- `DISP_END`, the first address past the display region (00_scope.md R6). -/
abbrev dispEnd : Nat := 0x5B00
/-- `DISP_SIZE` (00_scope.md R6). -/
abbrev dispSize : Nat := 6912

end Sys2Proof
end

