-- ==== Sys2Proof/Machine/State.lean ====
section
/-! DEFINITION. The state of TBME as plain data (spec 10_state.md), the events that act on it (20_memory.md R71),
the reasons a step could stop, and the state after reset (70_reset_and_hazards.md R270). -/

namespace Sys2Proof.Machine

/-- A pair of bytes (L, H): the accumulators (10_state.md R28), a seed (40_checksum.md R100), a suffix with the byte
emitted first in `l` (10_state.md R29). -/
structure BytePair where
  l : Byte
  h : Byte
  deriving DecidableEq, Repr

/-- `CTRL.SUFRULE` (10_state.md R23). -/
inductive SufRule where
  | contract
  | literal
  deriving DecidableEq, Repr

/-- `STATUS.STRAT`, the three wire strategies (42_table.md R160). -/
inductive Strategy where
  | fixed
  | compact
  | full
  deriving DecidableEq, Repr

/-- `STATUS.ERR` (60_exceptions.md R241). Codes 9 to 14 are reserved and never written, so they have no name. -/
inductive ErrCode where
  | ok
  | illegal
  | range
  | config
  | shape
  | capacity
  | mode
  | length
  | faulted
  | invariant
  deriving DecidableEq, Repr

/-- The seven header registers (10_state.md R30). -/
structure Header where
  pilot  : BitVec 16
  sync0  : BitVec 16
  sync1  : BitVec 16
  zero   : BitVec 16
  one    : BitVec 16
  pcount : BitVec 16
  pause  : BitVec 16
  deriving DecidableEq, Repr

/-- An entry of the table RAM (10_state.md R42; 42_table.md R150). -/
structure Entry where
  addr : BitVec 16
  len  : BitVec 15
  cd   : Bool
  deriving DecidableEq, Repr

/-- The bytes of a buffer: a list of (offset, byte), offsets strictly rising, no byte equal to what an unlisted
offset reads as (`Memory.wf` in Machine/Ops.lean). -/
abbrev Memory := List Host.Cell

/-- The width of a host access (20_memory.md R61, R62). -/
inductive Width where
  | w8
  | w16
  | w32
  deriving DecidableEq, Repr

/-- The registers of 10_state.md section 2, by name. -/
inductive Reg where
  | id | ctrl | status | cmd | src | len | dst | outLen | acc | suffix
  | hdrPilot | hdrSync0 | hdrSync1 | hdrZero | hdrOne | hdrPcount | hdrPause
  | cfgTag | cfgSanity | entry | tidx | tcount | fixLen | capIbuf | capObuf | capTbl
  deriving DecidableEq, Repr

/-- An event of the total order of 20_memory.md R71, and the hardware reset of 70_reset_and_hazards.md R270. -/
inductive Event where
  /-- The host reads `w` at `addr`. -/
  | read (addr : BusAddr) (w : Width)
  /-- The host writes the low bits of `data` as `w` at `addr`. -/
  | write (addr : BusAddr) (w : Width) (data : Word)
  /-- The engine takes its turn. -/
  | engine
  /-- A hardware reset, after which IBUF, OBUF and TBL hold whatever the event says: the spec leaves them
  unspecified (R270), so a statement over all events covers every contents. -/
  | hwReset (ibuf obuf : List Host.Cell) (tbl : List Entry)
  deriving DecidableEq, Repr

/-- The answer of the host bus to one access (20_memory.md R61 to R65): an error response, and the data of a read. -/
structure Response where
  error : Bool
  data  : Word
  deriving DecidableEq, Repr

/-- The state. A register's reserved bits are not stored: they read 0 and ignore writes (10_state.md section 2). -/
structure State where
  /-- The instance's parameters (00_scope.md R5), read through CAP_IBUF, CAP_OBUF, CAP_TBL (10_state.md R38). -/
  params    : Params
  /-- CTRL.SUFRULE (10_state.md R23). -/
  sufRule   : SufRule
  /-- CTRL.NOFIXLEN (10_state.md R23). -/
  noFixLen  : Bool
  /-- STATUS.FAULT (10_state.md R24). -/
  fault     : Bool
  /-- STATUS.CKOK (10_state.md R24). -/
  ckok      : Bool
  /-- STATUS.COVOK (10_state.md R24). -/
  covok     : Bool
  /-- STATUS.STRAT (10_state.md R24). -/
  strat     : Strategy
  /-- STATUS.OVERRUN (10_state.md R24). -/
  overrun   : Bool
  /-- STATUS.WREJ (10_state.md R24). -/
  wrej      : Bool
  /-- STATUS.ERR (10_state.md R24). -/
  err       : ErrCode
  /-- STATUS.SHORTLEN (10_state.md R24). -/
  shortLen  : Bool
  /-- STATUS.FIXDIR (10_state.md R24). -/
  fixDir    : Bool
  /-- SRC (10_state.md R26). -/
  src       : BitVec 24
  /-- LEN (10_state.md R26). -/
  len       : BitVec 24
  /-- DST (10_state.md R26). -/
  dst       : BitVec 24
  /-- OUTLEN (10_state.md R27). -/
  outLen    : Word
  /-- ACC (10_state.md R28). -/
  acc       : BytePair
  /-- SUFFIX (10_state.md R29). -/
  suffix    : BytePair
  /-- HDR_PILOT .. HDR_PAUSE (10_state.md R30). -/
  hdr       : Header
  /-- CFG_TAG (10_state.md R32). -/
  cfgTag    : Byte
  /-- CFG_SANITY (10_state.md R33). -/
  cfgSanity : Byte
  /-- ENTRY (10_state.md R34). -/
  entry     : Word
  /-- TIDX (10_state.md R35). -/
  tidx      : BitVec 16
  /-- TCOUNT (10_state.md R36). -/
  tcount    : BitVec 16
  /-- FIXLEN (10_state.md R37). -/
  fixLen    : BitVec 16
  /-- IBUF (10_state.md R40). -/
  ibuf      : Memory
  /-- OBUF (10_state.md R41). -/
  obuf      : Memory
  /-- TBL from index 0 up (10_state.md R42). Entries at TCOUNT and above stay in the list when TCOUNT drops: they are
  unspecified and unobservable (assumption log 4). -/
  tbl       : List Entry
  /-- PEND (10_state.md R43): the captured word while PEND.valid = 1, none while it is 0 (assumption log 5). -/
  pend      : Option Word
  /-- The value OVERRUN had when the host wrote the pending command to CMD: what a read of STATUS shows of it while
  BUSY = 1 (20_memory.md R67; assumption log 19). Nothing reads it while BUSY = 0. -/
  overrunHeld : Bool
  /-- The MODEL's own: the events still to come, first one first (assumption log 1). -/
  events    : List Event
  /-- The MODEL's own: the bus's answer to the last host access (assumption log 6). -/
  resp      : Option Response
  deriving DecidableEq, Repr

/-- The reasons a step stops the machine: none. Every error and fault of 60_exceptions.md is a next state, with
STATUS.ERR and STATUS.FAULT saying so (R243, R244), so no one raises a constructor here and nothing is unsafe in it. -/
inductive Fault where
  deriving DecidableEq, Repr

/-- The reasons a step has no meaning. -/
inductive Refusal where
  /-- Raised by `exec`'s arm of an instruction that has no meaning yet: safe, nothing can be proved of it. No arm of
  this model raises it. -/
  | notModelled (mnemonic : String)
  deriving DecidableEq, Repr

/-- A TBME of the given parameters after a hardware reset, with the given buffer and table contents
(70_reset_and_hazards.md R270; the reset column of 10_state.md section 2). -/
def State.resetWith (p : Params) (ibuf obuf : Memory) (tbl : List Entry) : State :=
  { params := p
    sufRule := .contract
    noFixLen := false
    fault := false
    ckok := false
    covok := false
    strat := .fixed
    overrun := false
    wrej := false
    err := .ok
    shortLen := false
    fixDir := false
    src := 0
    len := 0
    dst := 0
    outLen := 0
    acc := { l := 0, h := 0 }
    suffix := { l := 0, h := 0 }
    hdr := { pilot := 0, sync0 := 0, sync1 := 0, zero := 0, one := 0, pcount := 0, pause := 0 }
    cfgTag := 0x11
    cfgSanity := 0xB2
    entry := 0
    tidx := 0
    tcount := 0
    fixLen := 0
    ibuf := ibuf
    obuf := obuf
    tbl := tbl
    pend := none
    overrunHeld := false
    events := []
    resp := none }

/-- The machine right after reset (70_reset_and_hazards.md R270): the examples' instance (assumption log 2), buffers
with no byte listed (assumption log 3), nothing in the table RAM (assumption log 4), no event to come. -/
def State.reset : State := State.resetWith Params.examples [] [] []

end Sys2Proof.Machine
end

