-- ==== Sys2Proof/Machine/Ops.lean ====
section
/-! DEFINITION. The shared operations: bytes of numbers, buffers, the table RAM, the named updates of State, and how a
command ends (00_scope.md R9; 30_encoding.md R90; 60_exceptions.md R243, R244), which is this hardware's form of taking
an exception and of going on after one. -/

namespace Sys2Proof.Machine

/-- The machine's outcome type. Every step of this model is a `next`. -/
abbrev Result := Host.Outcome State Fault Refusal

/-! Bytes of a number (00_scope.md R7). -/

/-- `lo8(v)`. -/
def lo8 (v : Nat) : Byte := BitVec.ofNat 8 v
/-- `hi8(v)`. -/
def hi8 (v : Nat) : Byte := BitVec.ofNat 8 (v / 2 ^ 8)
/-- `b2(v)`. -/
def b2 (v : Nat) : Byte := BitVec.ofNat 8 (v / 2 ^ 16)

/-- One bit of a status or control word at bit position `n`. -/
def bitAt (b : Bool) (n : Nat) : Word := if b then 1#32 <<< n else 0#32

/-! Buffers (10_state.md R40, R41; 20_memory.md R68). -/

/-- What a byte reads as that nothing has written since reset. The spec leaves it unspecified and lets a model choose
(70_reset_and_hazards.md R270). DESIGN CHOICE, unsafe: assumption log 3. -/
def unwritten : Byte := 0x00#8

/-- `MemRead(buffer, a, 1)` (20_memory.md R68). -/
def Memory.read (m : Memory) (a : Nat) : Byte := (m.lookup a).getD unwritten

/-- The cells that hold `bs` from offset `a` up, less those equal to what an unlisted offset reads as. -/
def cellsFrom (a : Nat) : List Byte → List Host.Cell
  | [] => []
  | b :: bs => if b = unwritten then cellsFrom (a + 1) bs else (a, b) :: cellsFrom (a + 1) bs

/-- The buffer after the bytes `bs` are written at offsets `a, a + 1, …`; every other offset keeps its byte
(20_memory.md R62, R68). -/
def Memory.write (m : Memory) (a : Nat) (bs : List Byte) : Memory :=
  m.filter (fun c => c.1 < a) ++ cellsFrom a bs ++ m.filter (fun c => a + bs.length ≤ c.1)

/-- `[MemRead(buffer, a + i, 1) for i in 0 .. n-1]`. -/
def Memory.readRange (m : Memory) (a n : Nat) : List Byte := (List.range n).map (fun i => m.read (a + i))

/-- The canonical form: offsets strictly rising, no cell equal to what an unlisted offset reads as. -/
abbrev Memory.wf (m : Memory) : Prop := m.Pairwise (fun c d => c.1 < d.1) ∧ ∀ c ∈ m, c.2 ≠ unwritten

/-- No byte lies at or past the buffer's size (10_state.md R40, R41). -/
abbrev Memory.within (m : Memory) (size : Nat) : Prop := ∀ c ∈ m, c.1 < size

/-- A buffer of `size` bytes with the listed contents, a later cell overriding an earlier one. -/
def Memory.ofCells (size : Nat) (cells : List Host.Cell) : Memory :=
  cells.foldl (fun m c => if c.1 < size then m.write c.1 [c.2] else m) []

/-! The table RAM (10_state.md R36, R42; 42_table.md R151). -/

/-- The table: `TBL[0 .. TCOUNT-1]` (42_table.md R151). -/
def State.entries (s : State) : List Entry := s.tbl.take s.tcount.toNat

/-! Named updates of State: what a command stages (00_scope.md R9). -/

/-- `(ACC.L, ACC.H) <- p`. -/
def State.setAcc (s : State) (p : BytePair) : State := { s with acc := p }

/-- The solver's writes: SUFFIX, ACC and CKOK (40_checksum.md R113). -/
def State.setSolved (s : State) (xy chk : BytePair) : State := { s with suffix := xy, acc := chk, ckok := true }

/-- `STATUS.CKOK <- b`. -/
def State.setCkok (s : State) (b : Bool) : State := { s with ckok := b }

/-- `STATUS.COVOK <- b`. -/
def State.setCovok (s : State) (b : Bool) : State := { s with covok := b }

/-- `ENTRY <- w`. -/
def State.setEntry (s : State) (w : Word) : State := { s with entry := w }

/-- `TCOUNT <- n`, the array kept. -/
def State.setCount (s : State) (n : Nat) : State := { s with tcount := BitVec.ofNat 16 n }

/-- `TBL[0 .. m-1] <- es; TCOUNT <- m` with `m = len(es)`; the array above index `m - 1` is kept. -/
def State.setTable (s : State) (es : List Entry) : State :=
  { s with tbl := es ++ s.tbl.drop es.length, tcount := BitVec.ofNat 16 es.length }

/-- `MemWrite(OBUF, DST + k, 1, out[k])` for every `k`, and `OUTLEN <- len(out)` (10_state.md R27). -/
def State.emit (s : State) (out : List Byte) : State :=
  { s with obuf := s.obuf.write s.dst.toNat out, outLen := BitVec.ofNat 32 out.length }

/-- What TBL_SER reports beside its bytes (42_table.md R174). -/
def State.setReport (s : State) (st : Strategy) (fixLen : BitVec 16) (short fixDir : Bool) : State :=
  { s with strat := st, fixLen := fixLen, shortLen := short, fixDir := fixDir }

/-! How a command begins and ends. -/

/-- Acceptance: PEND captures the word (10_state.md R25, R43), and OVERRUN's value of this moment is held for the reads
while BUSY = 1 (20_memory.md R67; assumption log 19). -/
def State.accept (s : State) (w : Word) : State := { s with pend := some w, overrunHeld := s.overrun }


/-- Success: the staged state is committed, `STATUS.ERR <- 0`, `PEND.valid <- 0` (30_encoding.md R90). -/
def State.commit (staged : State) : State := { staged with err := .ok, pend := none }

/-- An error or fault: every staged write is discarded, `STATUS.ERR` gets the code, INVARIANT also latches
`STATUS.FAULT`, `PEND.valid <- 0` (30_encoding.md R90; 60_exceptions.md R243, R244). -/
def State.raise (s : State) (c : ErrCode) : State :=
  { s with err := c, fault := s.fault || c == .invariant, pend := none }

/-- The end of a command that ran on `s`: the staged state, or the code it raised. -/
def finish (s : State) (r : Except ErrCode State) : Result :=
  match r with
  | .ok staged => .next staged.commit
  | .error c => .next (s.raise c)

/-- A soft reset: every register at its reset value, no command pending, buffers and table RAM kept
(44_control.md R231; 70_reset_and_hazards.md R271). -/
def State.softReset (s : State) : State :=
  { State.resetWith s.params s.ibuf s.obuf s.tbl with events := s.events, resp := s.resp }

/-- A hardware reset: every register at its reset value, no command pending, buffers and table RAM at the contents
given, cut to the instance's sizes (70_reset_and_hazards.md R270). -/
def State.hardReset (s : State) (ibuf obuf : List Host.Cell) (tbl : List Entry) : State :=
  { State.resetWith s.params (Memory.ofCells s.params.ibufSize ibuf) (Memory.ofCells s.params.obufSize obuf)
      (tbl.take s.params.tblCap) with events := s.events, resp := s.resp }

end Sys2Proof.Machine
end

