-- ==== Sys2Proof/Machine/Flags.lean ====
section
/-! DEFINITION. The fields of STATUS and CTRL as the host reads them (10_state.md R23, R24) and the flag computations:
CKOK (40_checksum.md R115), SHORTLEN and FIXDIR (42_table.md R156), the error codes (60_exceptions.md R241). -/

namespace Sys2Proof.Machine

/-- The code of `STATUS.ERR` (60_exceptions.md R241). -/
def ErrCode.code : ErrCode → Nat
  | .ok => 0
  | .illegal => 1
  | .range => 2
  | .config => 3
  | .shape => 4
  | .capacity => 5
  | .mode => 6
  | .length => 7
  | .faulted => 8
  | .invariant => 15

/-- The code of `STATUS.STRAT` (42_table.md R160). -/
def Strategy.code : Strategy → Nat
  | .fixed => 0
  | .compact => 1
  | .full => 2

/-- `STATUS.BUSY` reads `PEND.valid` (10_state.md R43). -/
def State.busy (s : State) : Bool := s.pend.isSome

/-- OVERRUN as the host reads it: while BUSY = 1 the value held since the write to CMD (20_memory.md R67), although a
dropped write has set the flag (R66); the flag itself once BUSY = 0 (assumption log 19). -/
def State.overrunShown (s : State) : Bool := if s.busy then s.overrunHeld else s.overrun

/-- STATUS as the host reads it (10_state.md R24). -/
def State.statusWord (s : State) : Word :=
  bitAt s.busy 0 ||| bitAt s.fault 1 ||| bitAt s.ckok 2 ||| bitAt s.covok 3 |||
  BitVec.ofNat 32 (s.strat.code * 2 ^ 4) ||| bitAt s.overrunShown 6 ||| bitAt s.wrej 7 |||
  BitVec.ofNat 32 (s.err.code * 2 ^ 8) ||| bitAt s.shortLen 12 ||| bitAt s.fixDir 13

/-- CTRL as the host reads it (10_state.md R23). -/
def State.ctrlWord (s : State) : Word := bitAt (s.sufRule == .literal) 0 ||| bitAt s.noFixLen 1

/-- The terminal value (0xFF, 0xFF) the suffix forces (40_checksum.md R108). -/
def terminal : BytePair := { l := 0xFF#8, h := 0xFF#8 }

/-- `CKOK = 1` exactly at the all-ones pair (40_checksum.md R115). -/
def ckokOf (acc : BytePair) : Bool := acc.l == 0xFF#8 && acc.h == 0xFF#8

/-- `ShortLen(E)`: every entry has `len ≤ 127` (42_table.md R156). -/
def shortLenOf (es : List Entry) : Bool := es.all (fun e => e.len.toNat ≤ 127)

/-- `FixDir(E)`: no entry has `cd = 1` (42_table.md R156). -/
def fixDirOf (es : List Entry) : Bool := es.all (fun e => !e.cd)

end Sys2Proof.Machine
end

