-- ==== Sys2Proof/Machine/Operands.lean ====
section
/-! DEFINITION. Where a command and the host find an operand: the registers by offset, read and written by the access
rules of 10_state.md section 2, the fields of ENTRY (R34), a command's input range in IBUF (20_memory.md R68). -/

namespace Sys2Proof.Machine

/-- The offset of a register (10_state.md section 2). -/
def Reg.offset : Reg → Nat
  | .id => 0x00
  | .ctrl => 0x04
  | .status => 0x08
  | .cmd => 0x0C
  | .src => 0x10
  | .len => 0x14
  | .dst => 0x18
  | .outLen => 0x1C
  | .acc => 0x20
  | .suffix => 0x24
  | .hdrPilot => 0x28
  | .hdrSync0 => 0x2C
  | .hdrSync1 => 0x30
  | .hdrZero => 0x34
  | .hdrOne => 0x38
  | .hdrPcount => 0x3C
  | .hdrPause => 0x40
  | .cfgTag => 0x44
  | .cfgSanity => 0x48
  | .entry => 0x4C
  | .tidx => 0x50
  | .tcount => 0x54
  | .fixLen => 0x58
  | .capIbuf => 0x5C
  | .capObuf => 0x60
  | .capTbl => 0x64

/-- Every register, in the order of their offsets. -/
def Reg.all : List Reg :=
  [.id, .ctrl, .status, .cmd, .src, .len, .dst, .outLen, .acc, .suffix, .hdrPilot, .hdrSync0, .hdrSync1, .hdrZero,
   .hdrOne, .hdrPcount, .hdrPause, .cfgTag, .cfgSanity, .entry, .tidx, .tcount, .fixLen, .capIbuf, .capObuf, .capTbl]

/-- The register at an offset; none at a reserved one (10_state.md R39). -/
def Reg.ofOffset (off : Nat) : Option Reg := Reg.all.find? (fun r => r.offset == off)

/-- The identification constant "TBME" (10_state.md R22). -/
def idWord : Word := 0x54424D45#32

/-- A pair in bits 15:0, `l` in bits 7:0 and `h` in bits 15:8 (10_state.md R28, R29). -/
def BytePair.word (p : BytePair) : Word := 0#16 ++ p.h ++ p.l

/-- A register's value as a host read gives it (10_state.md section 2). -/
def readReg (s : State) : Reg → Word
  | .id => idWord
  | .ctrl => s.ctrlWord
  | .status => s.statusWord
  | .cmd => 0#32
  | .src => s.src.setWidth 32
  | .len => s.len.setWidth 32
  | .dst => s.dst.setWidth 32
  | .outLen => s.outLen
  | .acc => s.acc.word
  | .suffix => s.suffix.word
  | .hdrPilot => s.hdr.pilot.setWidth 32
  | .hdrSync0 => s.hdr.sync0.setWidth 32
  | .hdrSync1 => s.hdr.sync1.setWidth 32
  | .hdrZero => s.hdr.zero.setWidth 32
  | .hdrOne => s.hdr.one.setWidth 32
  | .hdrPcount => s.hdr.pcount.setWidth 32
  | .hdrPause => s.hdr.pause.setWidth 32
  | .cfgTag => s.cfgTag.setWidth 32
  | .cfgSanity => s.cfgSanity.setWidth 32
  | .entry => s.entry
  | .tidx => s.tidx.setWidth 32
  | .tcount => s.tcount.setWidth 32
  | .fixLen => s.fixLen.setWidth 32
  | .capIbuf => BitVec.ofNat 32 s.params.ibufSize
  | .capObuf => BitVec.ofNat 32 s.params.obufSize
  | .capTbl => BitVec.ofNat 32 s.params.tblCap

/-- A write to a header register: rejected with WREJ when any of bits 31:16 is set (10_state.md R31). -/
def writeHeader (s : State) (v : Word) (put : Header → BitVec 16 → Header) : State :=
  if v.toNat < 2 ^ 16 then { s with hdr := put s.hdr (v.setWidth 16) } else { s with wrej := true }

/-- A register write while BUSY = 0, by the access rules of 10_state.md section 2: a read-only register keeps its
value, a reserved bit is dropped, STATUS clears OVERRUN and WREJ where the data bit is 1 (R24), CMD captures the word
(R25, R43). -/
def writeReg (s : State) (v : Word) : Reg → State
  | .ctrl => { s with sufRule := if v.getLsbD 0 then .literal else .contract, noFixLen := v.getLsbD 1 }
  | .status => { s with overrun := s.overrun && !v.getLsbD 6, wrej := s.wrej && !v.getLsbD 7 }
  | .cmd => s.accept v
  | .src => { s with src := v.setWidth 24 }
  | .len => { s with len := v.setWidth 24 }
  | .dst => { s with dst := v.setWidth 24 }
  | .hdrPilot => writeHeader s v (fun h x => { h with pilot := x })
  | .hdrSync0 => writeHeader s v (fun h x => { h with sync0 := x })
  | .hdrSync1 => writeHeader s v (fun h x => { h with sync1 := x })
  | .hdrZero => writeHeader s v (fun h x => { h with zero := x })
  | .hdrOne => writeHeader s v (fun h x => { h with one := x })
  | .hdrPcount => writeHeader s v (fun h x => { h with pcount := x })
  | .hdrPause => writeHeader s v (fun h x => { h with pause := x })
  | .cfgTag => { s with cfgTag := v.setWidth 8 }
  | .cfgSanity => { s with cfgSanity := v.setWidth 8 }
  | .entry => { s with entry := v }
  | .tidx => { s with tidx := v.setWidth 16 }
  | .id => s
  | .outLen => s
  | .acc => s
  | .suffix => s
  | .tcount => s
  | .fixLen => s
  | .capIbuf => s
  | .capObuf => s
  | .capTbl => s

/-- The entry an ENTRY word holds: ADDR in bits 15:0, LEN in bits 30:16, CD in bit 31 (10_state.md R34). -/
def Entry.ofWord (w : Word) : Entry :=
  { addr := w.extractLsb' 0 16, len := w.extractLsb' 16 15, cd := w.getLsbD 31 }

/-- `(c << 31) | (n << 16) | a` (42_table.md R171). -/
def Entry.toWord (e : Entry) : Word := BitVec.ofBool e.cd ++ e.len ++ e.addr

/-- A command's input range `SRC .. SRC+LEN-1` lies in IBUF; the sum does not wrap (40_checksum.md R112). -/
def State.inputFits (s : State) : Bool := s.src.toNat + s.len.toNat ≤ s.params.ibufSize

/-- A command's output range of `n` bytes from DST lies in OBUF (20_memory.md R68). -/
def State.outputFits (s : State) (n : Nat) : Bool := s.dst.toNat + n ≤ s.params.obufSize

/-- `[MemRead(IBUF, SRC + i, 1) for i in 0 .. LEN-1]` (40_checksum.md R112). -/
def State.input (s : State) : List Byte := s.ibuf.readRange s.src.toNat s.len.toNat

end Sys2Proof.Machine
end

