-- ==== Sys2Proof/Machine/Bus.lean ====
section
/-! DEFINITION. The host bus: windows, bus errors, reads and writes (20_memory.md R60 to R67, R69). -/

namespace Sys2Proof.Machine

/-- Bytes of an access. -/
def Width.bytes : Width → Nat
  | .w8 => 1
  | .w16 => 2
  | .w32 => 4

/-- Where an access that is no bus error goes. -/
inductive Target where
  /-- A register. -/
  | reg (r : Reg)
  /-- A reserved offset of the REG window (10_state.md R39). -/
  | reserved
  /-- IBUF from an offset. -/
  | ibuf (off : Nat)
  /-- OBUF from an offset. -/
  | obuf (off : Nat)
  deriving DecidableEq, Repr

/-- A buffer access is aligned to its width and all its bytes lie in the buffer (20_memory.md R62). -/
def bufferAccess (size off : Nat) (w : Width) : Bool := off % w.bytes = 0 && off + w.bytes ≤ size

/-- The target of an access by the host map of 20_memory.md R60, the widths and alignments of R61 and R62; none is a
bus error (R65). -/
def target (p : Params) (addr : BusAddr) (w : Width) : Option Target :=
  if addr.toNat < 0x100 then
    if w = .w32 ∧ addr.toNat % 4 = 0 then
      match Reg.ofOffset addr.toNat with
      | some r => some (.reg r)
      | none => some .reserved
    else none
  else if addr.toNat < 0x1000000 then none
  else if addr.toNat < 0x2000000 then
    if bufferAccess p.ibufSize (addr.toNat - 0x1000000) w then some (.ibuf (addr.toNat - 0x1000000)) else none
  else if addr.toNat < 0x3000000 then
    if bufferAccess p.obufSize (addr.toNat - 0x2000000) w then some (.obuf (addr.toNat - 0x2000000)) else none
  else none

/-- `n` bytes from offset `a` as one little-endian value (20_memory.md R64). -/
def loadLE (m : Memory) (a : Nat) : Nat → Nat
  | 0 => 0
  | n + 1 => (m.read a).toNat + 256 * loadLE m (a + 1) n

/-- The low `n` bytes of a value, bits 7:0 first (20_memory.md R64). -/
def bytesLE (v : Nat) : Nat → List Byte
  | 0 => []
  | n + 1 => BitVec.ofNat 8 v :: bytesLE (v / 256) n

/-- The value at a target. Bits above an 8- or 16-bit access read 0 (assumption log 6). -/
def readTarget (s : State) (w : Width) : Target → Word
  | .reg r => readReg s r
  | .reserved => 0#32
  | .ibuf off => BitVec.ofNat 32 (loadLE s.ibuf off w.bytes)
  | .obuf off => BitVec.ofNat 32 (loadLE s.obuf off w.bytes)

/-- A write while BUSY = 0. -/
def writeTarget (s : State) (w : Width) (data : Word) : Target → State
  | .reg r => writeReg s data r
  | .reserved => s
  | .ibuf off => { s with ibuf := s.ibuf.write off (bytesLE data.toNat w.bytes) }
  | .obuf off => { s with obuf := s.obuf.write off (bytesLE data.toNat w.bytes) }

/-- A write while BUSY = 1: dropped, OVERRUN set but for a reserved offset (20_memory.md R66). A read shows the flag set
only once BUSY = 0 (R67; `State.overrunShown`). -/
def dropWrite (s : State) : Target → State
  | .reserved => s
  | .reg _ => { s with overrun := true }
  | .ibuf _ => { s with overrun := true }
  | .obuf _ => { s with overrun := true }

/-- The bus answers: the model's own record of the response (20_memory.md R65; assumption log 6). -/
def State.respond (s : State) (error : Bool) (data : Word) : State := { s with resp := some { error, data } }

/-- A host read: no side effect (20_memory.md R69); a bus error reads 0 (R65). -/
def hostRead (s : State) (addr : BusAddr) (w : Width) : State :=
  match target s.params addr w with
  | none => s.respond true 0#32
  | some t => s.respond false (readTarget s w t)

/-- A host write: a bus error writes nothing (20_memory.md R65), a write while BUSY is dropped (R66). -/
def hostWrite (s : State) (addr : BusAddr) (w : Width) (data : Word) : State :=
  match target s.params addr w with
  | none => s.respond true 0#32
  | some t => (if s.busy then dropWrite s t else writeTarget s w data t).respond false 0#32

end Sys2Proof.Machine
end

