-- ==== Sys2Proof/Machine/Checksum.lean ====
section
/-! DEFINITION. The checksum engine, the two suffix rules and the CK commands (40_checksum.md). -/

namespace Sys2Proof.Machine

/-- One's-complement addition `a ⊕ b` (00_scope.md R10): the 9-bit sum, less 255 when it reaches 256. -/
def ocAdd (a b : Byte) : Byte :=
  BitVec.ofNat 8 (if a.toNat + b.toNat < 256 then a.toNat + b.toNat else a.toNat + b.toNat - 255)

/-- `CkStep((L, H), b)`: H adds the new L (40_checksum.md R101). -/
def ckStep (p : BytePair) (b : Byte) : BytePair :=
  { l := ocAdd p.l b, h := ocAdd p.h (ocAdd p.l b) }

/-- `Engine(D, seed)`: R101 folded left to right (40_checksum.md R102). -/
def engine (d : List Byte) (seed : BytePair) : BytePair := d.foldl ckStep seed

/-- The seed (0,0) of every derivation (40_checksum.md R104, R106). -/
def zeroPair : BytePair := { l := 0x00#8, h := 0x00#8 }

/-- The CONTRACT suffix of an accumulator state (40_checksum.md R104). -/
def contractSuffix (p : BytePair) : BytePair :=
  let x := 255 - (p.l.toNat + p.h.toNat) % 255
  let y := 255 - (p.l.toNat + x) % 255
  { l := BitVec.ofNat 8 x, h := BitVec.ofNat 8 y }

/-- The LITERAL suffix of the data: two runs of the engine (40_checksum.md R106). -/
def literalSuffix (d : List Byte) : BytePair :=
  let startL := BitVec.ofNat 8 (255 - (engine d zeroPair).l.toNat)
  let h2 := (engine d { l := startL, h := 0x00#8 }).h
  { l := startL, h := BitVec.ofNat 8 (255 - h2.toNat) }

/-- `Solve(D, rule)`: the suffix and the verified terminal pair, or none where the assertion fails
(40_checksum.md R108). -/
def solve (d : List Byte) (rule : SufRule) : Option (BytePair × BytePair) :=
  let xy := match rule with
    | .contract => contractSuffix (engine d zeroPair)
    | .literal => literalSuffix d
  let chk := match rule with
    | .contract => engine [xy.l, xy.h] (engine d zeroPair)
    | .literal => engine d xy
  if chk = terminal then some (xy, chk) else none

/-- CK_SEED (40_checksum.md R110). -/
def execCkSeed (seedL seedH : Byte) (s : State) : Result :=
  finish s (.ok (s.setAcc { l := seedL, h := seedH }))

/-- CK_BYTE (40_checksum.md R111). -/
def execCkByte (imm8 : Byte) (s : State) : Result :=
  finish s (.ok (s.setAcc (ckStep s.acc imm8)))

/-- CK_RUN (40_checksum.md R112). -/
def execCkRun (s : State) : Result :=
  finish s (if s.inputFits then .ok (s.setAcc (engine s.input s.acc)) else .error .range)

/-- CK_SOLVE (40_checksum.md R113). -/
def execCkSolve (s : State) : Result :=
  finish s
    (if s.inputFits then
      match solve s.input s.sufRule with
      | some (xy, chk) => .ok (s.setSolved xy chk)
      | none => .error .invariant
    else .error .range)

/-- CK_SOLVE_ACC (40_checksum.md R114): the CONTRACT suffix of the accumulators; MODE under LITERAL. -/
def execCkSolveAcc (s : State) : Result :=
  finish s
    (match s.sufRule with
    | .literal => .error .mode
    | .contract =>
      let xy := contractSuffix s.acc
      let chk := engine [xy.l, xy.h] s.acc
      if chk = terminal then .ok (s.setSolved xy chk) else .error .invariant)

/-- CK_CHECK (40_checksum.md R115): a result, never an error. -/
def execCkCheck (s : State) : Result := finish s (.ok (s.setCkok (ckokOf s.acc)))

end Sys2Proof.Machine
end

