-- ==== Sys2Proof/Machine/Block.lean ====
section
/-! DEFINITION. The block serializer BLK_SER (41_block.md). -/

namespace Sys2Proof.Machine

/-- A 16-bit header field, little-endian: `lo8` then `hi8` (41_block.md R134). -/
def le16 (v : BitVec 16) : List Byte := [lo8 v.toNat, hi8 v.toNat]

/-- The 16 header bytes `HDR16` (41_block.md R134). -/
def header16 (s : State) : List Byte :=
  [s.cfgTag] ++ le16 s.hdr.pilot ++ le16 s.hdr.sync0 ++ le16 s.hdr.sync1 ++ le16 s.hdr.zero ++ le16 s.hdr.one ++
  le16 s.hdr.pcount ++ [0x08#8] ++ le16 s.hdr.pause

/-- The signal-balancing transform, applied to the copy (41_block.md R131). -/
def transform (payload : List Byte) : List Byte := payload.map (fun b => b ^^^ 0x90#8)

/-- `B0`: the sanity marker, then the transformed payload (41_block.md R132). -/
def blockBody0 (s : State) : List Byte := s.cfgSanity :: transform s.input

/-- The 3-byte little-endian length field (41_block.md R135). -/
def le24 (n : Nat) : List Byte := [lo8 n, hi8 n, b2 n]

/-- The complete output for a suffix (41_block.md R136). -/
def blockBytes (s : State) (xy : BytePair) : List Byte :=
  header16 s ++ le24 (s.len.toNat + 3) ++ blockBody0 s ++ [xy.l, xy.h]

/-- BLK_SER (41_block.md R137), its checks in the order of 60_exceptions.md R242. -/
def execBlkSer (s : State) : Result :=
  finish s
    (if !s.inputFits then .error .range
    else if s.len.toNat + 3 > 0xFFFFFF then .error .length
    else if !s.outputFits (s.len.toNat + 22) then .error .range
    else
      match solve (blockBody0 s) s.sufRule with
      | some (xy, chk) => .ok ((s.emit (blockBytes s xy)).setSolved xy chk)
      | none => .error .invariant)

end Sys2Proof.Machine
end

