-- ==== Sys2Proof/Machine/Control.lean ====
section
/-! DEFINITION. The control commands (44_control.md). -/

namespace Sys2Proof.Machine

/-- NOP (44_control.md R230): only what every successful command does. -/
def execNop (s : State) : Result := finish s (.ok s)

/-- SRESET (44_control.md R231): it replaces the commit and record of the engine step; ERR and PEND are cleared as
part of the reset. -/
def execSreset (s : State) : Result := .next s.softReset

end Sys2Proof.Machine
end

