-- ==== Sys2Proof/Machine/Table.lean ====
section
/-! DEFINITION. The dynamic table: validity, wire strategies, split, coverage, and the TBL commands (42_table.md). -/

namespace Sys2Proof.Machine

/-- The first address past the entry's span `[addr, addr + len)` (42_table.md R150). -/
def Entry.stop (e : Entry) : Nat := e.addr.toNat + e.len.toNat

/-- `ValidEntry(addr, len)` (42_table.md R150). -/
def Entry.valid (e : Entry) : Bool :=
  1 ≤ e.len.toNat && e.len.toNat ≤ 32767 && dispBase ≤ e.addr.toNat && e.stop ≤ dispEnd

/-- `IsFixedLength(E)`: not empty, no `cd`, one common length (42_table.md R155). -/
def isFixedLength : List Entry → Bool
  | [] => false
  | e :: es => (e :: es).all (fun f => !f.cd && f.len == e.len)

/-- `Strategy(E, NOFIXLEN)`: the first line of 42_table.md R160 that applies. DEDUCED: R174's corner case "A table with
`len = 128` anywhere is FULL" says otherwise of a table whose entries all have `len = 128` and `cd = 0`, with
NOFIXLEN = 0; that table is FIXED here, by R160 and R174's pseudocode (assumption log 21). -/
def strategyOf (es : List Entry) (noFixLen : Bool) : Strategy :=
  if !noFixLen && isFixedLength es then .fixed
  else if shortLenOf es then .compact
  else .full

/-- Bytes one entry takes on the wire (42_table.md R164). -/
def Strategy.entrySize : Strategy → Nat
  | .fixed => 2
  | .compact => 3
  | .full => 4

/-- `c << 7` as a number (42_table.md R162, R163). -/
def cdBit (c : Bool) : Nat := if c then 0x80 else 0

/-- One entry on the wire: the address high byte first (42_table.md R157), then nothing (R161), `(cd << 7) | len`
(R162), or `(cd << 7) | (len >> 8), lo8(len)` (R163). -/
def entryBytes (st : Strategy) (e : Entry) : List Byte :=
  [hi8 e.addr.toNat, lo8 e.addr.toNat] ++
  match st with
  | .fixed => []
  | .compact => [lo8 (cdBit e.cd ||| e.len.toNat)]
  | .full => [lo8 (cdBit e.cd ||| e.len.toNat / 2 ^ 8), lo8 e.len.toNat]

/-- The serialized table, ended by one zero byte (42_table.md R159, R174). -/
def tableBytes (st : Strategy) (es : List Entry) : List Byte := es.flatMap (entryBytes st) ++ [0x00#8]

/-- `Split(e, c)`: none where it raises SHAPE (42_table.md R170). -/
def splitEntry (e : Entry) (c : Nat) : Option (List Entry) :=
  if e.cd then none
  else if c = 0 then none
  else if e.len.toNat % c ≠ 0 then none
  else some ((List.range (e.len.toNat / c)).map fun k =>
    { addr := BitVec.ofNat 16 (e.addr.toNat + k * c), len := BitVec.ofNat 15 c, cd := false })

/-- The entries with `lo ≤ addr < lo + 2 ^ depth`, in the order of their addresses: halves, sorted one after the
other. With depth 16 it sorts any table by address. -/
def sortByAddr : Nat → Nat → List Entry → List Entry
  | _, _, [] => []
  | 0, _, es => es
  | depth + 1, lo, es =>
    sortByAddr depth lo (es.filter (fun e => e.addr.toNat < lo + 2 ^ depth)) ++
    sortByAddr depth (lo + 2 ^ depth) (es.filter (fun e => lo + 2 ^ depth ≤ e.addr.toNat))

/-- The first span starts at `at_`, each next one where the one before stops, the last stops at the region's end. -/
def chained : Nat → List Entry → Bool
  | at_, [] => at_ == dispEnd
  | at_, e :: es => e.addr.toNat == at_ && chained e.stop es

/-- The entry's span `[addr, addr + len)` holds the address (42_table.md R150). -/
def Entry.holds (e : Entry) (a : Nat) : Bool := e.addr.toNat ≤ a && a < e.stop

/-- `Covers(E)` in the spec's first words: every address of the region lies in exactly one span, and no span leaves
the region (42_table.md R175). -/
def Partitions (es : List Entry) : Prop :=
  (∀ a, dispBase ≤ a → a < dispEnd → es.countP (fun e => e.holds a) = 1) ∧
  ∀ e ∈ es, dispBase ≤ e.addr.toNat ∧ e.stop ≤ dispEnd

/-- `Covers(E)` by the equivalent test of 42_table.md R175: sort by address, first at 0x4000, contiguous, last stop at
0x5B00. `Laws/Coverage.lean` proves it equal to `Partitions` for entries that are not empty
(assumption log 10). -/
def covers (es : List Entry) : Bool := chained dispBase (sortByAddr 16 0 es)

/-- TBL_CLEAR (42_table.md R172). -/
def execTblClear (s : State) : Result := finish s (.ok ((s.setCount 0).setCovok false))

/-- TBL_APPEND (42_table.md R173). -/
def execTblAppend (s : State) : Result :=
  finish s
    (if !(Entry.ofWord s.entry).valid then .error .shape
    else if s.tcount.toNat = s.params.tblCap then .error .capacity
    else .ok ((s.setTable (s.entries ++ [Entry.ofWord s.entry])).setCovok false))

/-- TBL_SPLIT (42_table.md R177): the entry at TIDX is replaced in place by its sub-entries. -/
def execTblSplit (chunk : Nat) (s : State) : Result :=
  finish s
    (match s.entries[s.tidx.toNat]? with
    | none => .error .shape
    | some e =>
      match splitEntry e chunk with
      | none => .error .shape
      | some subs =>
        if s.entries.length - 1 + subs.length > s.params.tblCap then .error .capacity
        else
          .ok ((s.setTable (s.entries.take s.tidx.toNat ++ subs ++ s.entries.drop (s.tidx.toNat + 1))).setCovok false))

/-- TBL_SER (42_table.md R174): the strategy is computed anew from the table's contents (R158). -/
def execTblSer (s : State) : Result :=
  finish s
    (match s.entries with
    | [] => .error .shape
    | e :: es =>
      let st := strategyOf (e :: es) s.noFixLen
      if !s.outputFits (st.entrySize * (e :: es).length + 1) then .error .range
      else
        .ok ((s.emit (tableBytes st (e :: es))).setReport st
          (if st = .fixed then e.len.setWidth 16 else 0) (shortLenOf (e :: es)) (fixDirOf (e :: es))))

/-- TBL_CHECK (42_table.md R176): a result, never an error. -/
def execTblCheck (s : State) : Result := finish s (.ok (s.setCovok (covers s.entries)))

/-- TBL_READ (42_table.md R171). -/
def execTblRead (s : State) : Result :=
  finish s
    (match s.entries[s.tidx.toNat]? with
    | none => .error .shape
    | some e => .ok (s.setEntry e.toWord))

end Sys2Proof.Machine
end

