-- ==== Sys2Proof/Machine/Generators.lean ====
section
/-! DEFINITION. The load-pattern generators and the TBL_GEN commands (43_generators.md). -/

namespace Sys2Proof.Machine

/-- A traversal direction (42_table.md R152). -/
inductive Dir where
  | fwd
  | bwd
  deriving DecidableEq, Repr

/-- The other direction (42_table.md R152). -/
def Dir.flip : Dir → Dir
  | .fwd => .bwd
  | .bwd => .fwd

/-- An entry as a generator describes it: address, length, intended direction (42_table.md R153). -/
structure Pass where
  addr : Nat
  len  : Nat
  dir  : Dir
  deriving DecidableEq, Repr

/-- `DirFlags` from a current direction: `cd` is set where the intended direction changes (42_table.md R153). -/
def dirFlagsFrom (cur : Dir) : List Pass → List Entry
  | [] => []
  | p :: ps =>
    { addr := BitVec.ofNat 16 p.addr, len := BitVec.ofNat 15 p.len, cd := p.dir != cur } :: dirFlagsFrom p.dir ps

/-- `DirFlags(seq)`; the reader starts at FWD (42_table.md R152, R153). -/
def dirFlags (ps : List Pass) : List Entry := dirFlagsFrom .fwd ps

/-- `BM(ρ, k, c)`: pixel line `k` of character row `row`, byte column `c` (43_generators.md R191). -/
def bmAddr (row k c : Nat) : Nat := dispBase + 2048 * (row / 8) + 256 * k + 32 * (row % 8) + c

/-- `AT(ρ, c)`: the attribute cell of character row `row`, column `c` (43_generators.md R191). -/
def atAddr (row c : Nat) : Nat := atBase + 32 * row + c

/-- The order of the attribute rows in combing (43_generators.md R197). -/
inductive AttOrder where
  | fwd
  | conv
  | div
  deriving DecidableEq, Repr

/-- A generator with its fields decoded: the rows of 43_generators.md R193. `sz` is the exponent of the size. -/
inductive Gen where
  | comb (attFirst : Bool) (order : AttOrder)
  | td
  | bu
  | conv
  | div
  | square (sz : Nat)
  | attrSq (sz : Nat)
  deriving DecidableEq, Repr

/-- FAM = 0 of `Admissible` (43_generators.md R193): VAR[0] is the phase, VAR[2:1] the attribute order, SZ is 0. -/
def admitComb (var : BitVec 3) (sz : Nat) : Option Gen :=
  if sz ≠ 0 then none
  else if var.extractLsb' 1 2 = 0#2 then some (.comb (var.getLsbD 0) .fwd)
  else if var.extractLsb' 1 2 = 1#2 then some (.comb (var.getLsbD 0) .conv)
  else if var.extractLsb' 1 2 = 2#2 then some (.comb (var.getLsbD 0) .div)
  else none

/-- FAM = 1 of `Admissible` (43_generators.md R193). -/
def admitLinear (var : BitVec 3) (sz : Nat) : Option Gen :=
  if var = 4#3 then (if sz ≤ 3 then some (.square sz) else none)
  else if sz ≠ 0 then none
  else if var = 0#3 then some .td
  else if var = 1#3 then some .bu
  else if var = 2#3 then some .conv
  else if var = 3#3 then some .div
  else none

/-- FAM = 2 of `Admissible` (43_generators.md R193). -/
def admitAttrSq (var : BitVec 3) (sz : Nat) : Option Gen :=
  if var = 0#3 ∧ sz ≤ 3 then some (.attrSq sz) else none

/-- `Pix`, the pixmap phase: per third, pixel-line blocks 0, 7, 1, 6, 2, 5, 3, 4 (43_generators.md R196). -/
def pixPasses : List Pass :=
  (List.range 3).flatMap fun t => (List.range 4).flatMap fun j =>
    [⟨dispBase + 2048 * t + 256 * j, 256, .fwd⟩, ⟨dispBase + 2048 * t + 256 * (7 - j), 256, .bwd⟩]

/-- The row order of the attribute phase (43_generators.md R197). -/
def attRows : AttOrder → List Nat
  | .fwd => List.range 24
  | .conv => (List.range 12).flatMap fun j => [j, 23 - j]
  | .div => (List.range 12).flatMap fun j => [11 - j, 12 + j]

/-- `Att(asub)`, the attribute phase (43_generators.md R197). -/
def attPasses (order : AttOrder) : List Pass := (attRows order).map fun row => ⟨atAddr row 0, 32, .fwd⟩

/-- Unit `i` of 32 bytes (43_generators.md R200). -/
def unitPass (i : Nat) (d : Dir) : Pass := ⟨dispBase + 32 * i, 32, d⟩

/-- `Sq(R, J)`: the 9·N spans of one square of side `n` (43_generators.md R205). -/
def squarePasses (n r j : Nat) (d : Dir) : List Pass :=
  (List.range n).flatMap fun i =>
    ((List.range 8).map fun k => ⟨bmAddr (r * n + i) k (j * n), n, d⟩) ++ [⟨atAddr (r * n + i) (j * n), n, d⟩]

/-- Cells of a grid of `rows × cols` in raster order, those with `(row + col) % 2 = parity` (43_generators.md R205,
R212): parity 0 is black, parity 1 is white. -/
def checker (rows cols parity : Nat) : List (Nat × Nat) :=
  (List.range rows).flatMap fun r => ((List.range cols).filter fun j => (r + j) % 2 == parity).map fun j => (r, j)

/-- Two streams, entry by entry: the first, the second, the first, … (43_generators.md R205). -/
def interleave : List Pass → List Pass → List Pass
  | [], ys => ys
  | x :: xs, [] => x :: xs
  | x :: xs, y :: ys => x :: y :: interleave xs ys

/-- SQUARE with side `n` (43_generators.md R205): the black half-stream forward, the white one reversed entry by entry
and backward, interleaved. -/
def squareTiling (n : Nat) : List Pass :=
  interleave
    ((checker (24 / n) (32 / n) 0).flatMap fun c => squarePasses n c.1 c.2 .fwd)
    ((checker (24 / n) (32 / n) 1).flatMap fun c => squarePasses n c.1 c.2 .bwd).reverse

/-- Chunk `(ρ, J)` of `k` cells (43_generators.md R212). -/
def chunkPass (k : Nat) (c : Nat × Nat) : Pass := ⟨atAddr c.1 (c.2 * k), k, .fwd⟩

/-- `AttrSq`: three thirds, the black chunks in raster order, the white ones in reverse raster order
(43_generators.md R210 to R212). -/
def attrSqPasses (k : Nat) : List Pass :=
  [⟨0x4000, 2048, .fwd⟩, ⟨0x4800, 2048, .fwd⟩, ⟨0x5000, 2048, .fwd⟩] ++
  (checker 24 (32 / k) 0).map (chunkPass k) ++ ((checker 24 (32 / k) 1).map (chunkPass k)).reverse

/-- The sequence of a generator (43_generators.md R195, R200 to R205, R210). -/
def Gen.passes : Gen → List Pass
  | .comb false order => pixPasses ++ attPasses order
  | .comb true order => attPasses order ++ pixPasses
  | .td => [⟨dispBase, dispSize, .fwd⟩]
  | .bu => [⟨dispBase, dispSize, .bwd⟩]
  | .conv => (List.range 108).flatMap fun j => [unitPass j .fwd, unitPass (215 - j) .bwd]
  | .div => (List.range 108).flatMap fun j => [unitPass (107 - j) .bwd, unitPass (108 + j) .fwd]
  | .square sz => squareTiling (2 ^ sz)
  | .attrSq sz => attrSqPasses (2 ^ sz)

/-- The table of a generator (43_generators.md R190). -/
def Gen.table (g : Gen) : List Entry := dirFlags g.passes

/-- The common part of TBL_GEN (43_generators.md R190): CONFIG, then CAPACITY, then the assertion, then the table. -/
def generate (s : State) (g : Option Gen) : Result :=
  finish s
    (match g with
    | none => .error .config
    | some g =>
      if g.table.length > s.params.tblCap then .error .capacity
      else if covers g.table && g.table.all Entry.valid then .ok ((s.setTable g.table).setCovok true)
      else .error .invariant)

/-- TBL_GEN with FAM = 0, combing (43_generators.md R190, R195). -/
def execTblGenComb (var : BitVec 3) (sz : Nat) (s : State) : Result := generate s (admitComb var sz)

/-- TBL_GEN with FAM = 1, linear (43_generators.md R190, R200). -/
def execTblGenLinear (var : BitVec 3) (sz : Nat) (s : State) : Result := generate s (admitLinear var sz)

/-- TBL_GEN with FAM = 2, square-tiled attributes (43_generators.md R190, R210). -/
def execTblGenAttrSq (var : BitVec 3) (sz : Nat) (s : State) : Result := generate s (admitAttrSq var sz)

end Sys2Proof.Machine
end

