-- ==== Sys2Proof/Machine/Dispatch.lean ====
section
/-! DEFINITION. Which meaning a command has: one arm per constructor of `Instr`. -/

namespace Sys2Proof.Machine

def exec (i : Instr) (s : State) : Host.Outcome State Fault Refusal :=
  match i with
  | .nop => Sys2Proof.Machine.execNop s
  -- 40_checksum.md
  | .ckSeed seedL seedH => Sys2Proof.Machine.execCkSeed seedL seedH s
  | .ckByte imm8 => Sys2Proof.Machine.execCkByte imm8 s
  | .ckRun => Sys2Proof.Machine.execCkRun s
  | .ckSolve => Sys2Proof.Machine.execCkSolve s
  | .ckSolveAcc => Sys2Proof.Machine.execCkSolveAcc s
  | .ckCheck => Sys2Proof.Machine.execCkCheck s
  -- 41_block.md
  | .blkSer => Sys2Proof.Machine.execBlkSer s
  -- 42_table.md
  | .tblClear => Sys2Proof.Machine.execTblClear s
  | .tblAppend => Sys2Proof.Machine.execTblAppend s
  | .tblSplit chunk => Sys2Proof.Machine.execTblSplit chunk s
  -- 43_generators.md
  | .tblGenComb var sz => Sys2Proof.Machine.execTblGenComb var sz s
  | .tblGenLinear var sz => Sys2Proof.Machine.execTblGenLinear var sz s
  | .tblGenAttrSq var sz => Sys2Proof.Machine.execTblGenAttrSq var sz s
  -- 42_table.md
  | .tblSer => Sys2Proof.Machine.execTblSer s
  | .tblCheck => Sys2Proof.Machine.execTblCheck s
  | .tblRead => Sys2Proof.Machine.execTblRead s
  -- 44_control.md
  | .sreset => Sys2Proof.Machine.execSreset s

end Sys2Proof.Machine
end

