-- ==== Sys2Proof/Machine/Engine.lean ====
section
/-! DEFINITION. One event of the total order (20_memory.md R71): the engine step (30_encoding.md R90), a host access,
a hardware reset. -/

namespace Sys2Proof.Machine

/-- The engine step on the captured word `w` (30_encoding.md R90): FAULTED while FAULT = 1 but for SRESET
(60_exceptions.md R245), ILLEGAL for a word of no row (R87), else the command. -/
def engineStep (w : Word) (s : State) : Result :=
  if s.fault ∧ w ≠ 0x000000FF#32 then .next (s.raise .faulted)
  else
    match decode w with
    | .error _ => .next (s.raise .illegal)
    | .ok i => exec i s

/-- The engine's turn: it is enabled only when a command is pending (30_encoding.md R90). -/
def engineTurn (s : State) : Result :=
  match s.pend with
  | none => .next s
  | some w => engineStep w s

/-- The next event: the first of the list; when the list is used up, the engine's turn (70_reset_and_hazards.md R279),
and with no command pending the unit waits (R280; assumption log 8). -/
def nextEvent (s : State) : Result :=
  match s.events with
  | [] => engineTurn s
  | .engine :: es => engineTurn { s with events := es }
  | .read addr w :: es => .next (hostRead { s with events := es } addr w)
  | .write addr w data :: es => .next (hostWrite { s with events := es } addr w data)
  | .hwReset ib ob tb :: es => .next (State.hardReset { s with events := es } ib ob tb)

/-- A captured command word whose turn comes next (assumption log 9). -/
def State.withCommand (s : State) (w : Word) : State := { s.accept w with events := .engine :: s.events }

end Sys2Proof.Machine
end

