-- ==== Sys2Proof/Machine/Step.lean ====
section
/-! DEFINITION. One step of the machine, and a command placed where the next step takes it. -/

namespace Sys2Proof.Machine

/-- One event (20_memory.md R71). -/
def step (s : State) : Host.Outcome State Fault Refusal := nextEvent s

/-- `s` with the word `w` captured in PEND (10_state.md R25, R43) and the engine's turn next: the state after the host
wrote `w` to CMD while BUSY = 0, just before its engine step. TBME fetches no instructions (20_memory.md R75). -/
def State.withFetchWord (s : State) (_nbits w : Nat) : State := s.withCommand (BitVec.ofNat 32 w)

end Sys2Proof.Machine
end

