-- ==== Sys2Proof/Machine/Asm.lean ====
section
/-! DEFINITION. The assembler's commands, its pseudo-instructions and the host statements of 30_encoding.md R91, R92,
as what they expand to: a command word, or the host's bus accesses in order. -/

namespace Sys2Proof.Machine

/-- A size operand 1, 2, 4 or 8 (30_encoding.md R91). -/
inductive AsmSize where
  | one | two | four | eight
  deriving DecidableEq, Repr

/-- `SZ = log2(n)` (30_encoding.md R91). -/
def AsmSize.log2 : AsmSize → Nat
  | .one => 0
  | .two => 1
  | .four => 2
  | .eight => 3

/-- `TBL_GEN LINEAR, <TD|BU|CONV|DIV>` (30_encoding.md R91). -/
inductive AsmLinear where
  | td | bu | conv | div
  deriving DecidableEq, Repr

/-- A command as the assembler writes it (30_encoding.md R91), with the pseudo-instructions that stand for one command
(R92): `ckClear` is CK_CLEAR and `genCombPlain` is TBL_GEN COMB without operands. -/
inductive AsmCmd where
  | nop
  | ckSeed (seedL seedH : Byte)
  | ckByte (b : Byte)
  | ckRun | ckSolve | ckSolveAcc | ckCheck
  | blkSer
  | tblClear | tblAppend | tblSer | tblCheck | tblRead
  | tblSplit (chunk : BitVec 16)
  | genComb (attr : Bool) (order : AttOrder)
  | genLinear (v : AsmLinear)
  | genSquare (n : AsmSize)
  | genAttrSq (n : AsmSize)
  | sreset
  | ckClear
  | genCombPlain
  deriving DecidableEq, Repr

/-- `VAR` of a combing command: ATTR sets VAR[0]; FWD, CONV, DIV give VAR[2:1] = 0, 1, 2 (30_encoding.md R91). -/
def combVar (attr : Bool) : AttOrder → BitVec 3
  | .fwd => 0#2 ++ BitVec.ofBool attr
  | .conv => 1#2 ++ BitVec.ofBool attr
  | .div => 2#2 ++ BitVec.ofBool attr

/-- `VAR` of a linear command: TD, BU, CONV, DIV give 0, 1, 2, 3 (30_encoding.md R91). -/
def AsmLinear.var : AsmLinear → BitVec 3
  | .td => 0#3
  | .bu => 1#3
  | .conv => 2#3
  | .div => 3#3

/-- The command a line stands for (30_encoding.md R91, R92). -/
def AsmCmd.instr : AsmCmd → Instr
  | .nop => .nop
  | .ckSeed l h => .ckSeed l h
  | .ckByte b => .ckByte b
  | .ckRun => .ckRun
  | .ckSolve => .ckSolve
  | .ckSolveAcc => .ckSolveAcc
  | .ckCheck => .ckCheck
  | .blkSer => .blkSer
  | .tblClear => .tblClear
  | .tblAppend => .tblAppend
  | .tblSer => .tblSer
  | .tblCheck => .tblCheck
  | .tblRead => .tblRead
  | .tblSplit chunk => .tblSplit chunk.toNat
  | .genComb attr order => .tblGenComb (combVar attr order) 0
  | .genLinear v => .tblGenLinear v.var 0
  | .genSquare n => .tblGenLinear 4#3 n.log2
  | .genAttrSq n => .tblGenAttrSq 0#3 n.log2
  | .sreset => .sreset
  | .ckClear => .ckSeed 0#8 0#8
  | .genCombPlain => .tblGenComb 0#3 0

/-- A buffer window (20_memory.md R60). -/
inductive Buffer where
  | ibuf | obuf
  deriving DecidableEq, Repr

/-- The host address of a buffer's offset (20_memory.md R60). -/
def Buffer.addr (b : Buffer) (off : Nat) : BusAddr :=
  match b with
  | .ibuf => BitVec.ofNat 26 (0x1000000 + off)
  | .obuf => BitVec.ofNat 26 (0x2000000 + off)

/-- A host statement (30_encoding.md R91, R92). `wait` and `run` carry how many polls read BUSY = 1 before the engine
step comes: the spec leaves that number open (70_reset_and_hazards.md R278; assumption log 18). `turn` is none of the
spec's statements: it is the model's own mark of a place between two statements where the engine takes its turn, which
the spec leaves open as well (assumption log 20). -/
inductive HostStmt where
  | wr (r : Reg) (v : Word)
  | wb (b : Buffer) (off : Nat) (bytes : List Byte)
  | rd (r : Reg)
  | rb (b : Buffer) (off n : Nat)
  | cmd (c : AsmCmd)
  | wait (polls : Nat)
  | run (c : AsmCmd) (polls : Nat)
  | turn
  deriving DecidableEq, Repr

/-- `WR <reg>, <v32>`. -/
def wrEvent (r : Reg) (v : Word) : Event := .write (BitVec.ofNat 26 r.offset) .w32 v

/-- `RD <reg>`. -/
def rdEvent (r : Reg) : Event := .read (BitVec.ofNat 26 r.offset) .w32

/-- `WB`: bytes one at a time at increasing offsets. -/
def wbEvents (b : Buffer) : Nat → List Byte → List Event
  | _, [] => []
  | off, x :: xs => .write (b.addr off) .w8 (x.setWidth 32) :: wbEvents b (off + 1) xs

/-- `WAIT`: polls of STATUS that read BUSY = 1, the engine step, the poll that reads BUSY = 0. -/
def waitEvents (polls : Nat) : List Event := List.replicate polls (rdEvent .status) ++ [.engine, rdEvent .status]

/-- The events of a host statement, in order (30_encoding.md R91, R92). DESIGN CHOICE (assumption log 20): `cmd` is the
write alone, so after a CMD without WAIT the engine acts where the program says `turn`, in the next WAIT or RUN, or when
the list is used up; R278 of 70_reset_and_hazards.md leaves that moment open. -/
def HostStmt.events : HostStmt → List Event
  | .wr r v => [wrEvent r v]
  | .wb b off bytes => wbEvents b off bytes
  | .rd r => [rdEvent r]
  | .rb b off n => (List.range n).map fun i => .read (b.addr (off + i)) .w8
  | .cmd c => [wrEvent .cmd (encode c.instr)]
  | .wait polls => waitEvents polls
  | .run c polls => wrEvent .cmd (encode c.instr) :: waitEvents polls
  | .turn => [.engine]

/-- The events of a host program, in order: one of the interleavings with the engine that the spec allows, the one its
`turn`s and its numbers of polls choose (assumption logs 18 and 20). -/
def program (stmts : List HostStmt) : List Event := stmts.flatMap HostStmt.events

/-- A unit with a host program's events to come. -/
def State.withProgram (s : State) (stmts : List HostStmt) : State := { s with events := program stmts }

end Sys2Proof.Machine
end

