-- ==== Sys2Proof/Machine/Reader.lean ====
section
/-! DEFINITION. The reader of a table and the decoder of a serialized table. Neither is in the unit: 42_table.md R152,
R154 and R165 state them so that a model can check tables. -/

namespace Sys2Proof.Machine

/-- The direction in force for each entry, from a current direction: toggled before an entry with `cd = 1`
(42_table.md R152). -/
def readerDirs (cur : Dir) : List Entry → List Dir
  | [] => []
  | e :: es =>
    let d := if e.cd then cur.flip else cur
    d :: readerDirs d es

/-- The addresses of the entry's span in the order the reader meets them: ascending when forward, descending when
backward (42_table.md R154). -/
def spanAddrs (e : Entry) : Dir → List Nat
  | .fwd => List.range' e.addr.toNat e.len.toNat
  | .bwd => (List.range' e.addr.toNat e.len.toNat).reverse

/-- The addresses a whole table carries, in order, from a current direction (42_table.md R154). -/
def carriedAddrs (cur : Dir) (es : List Entry) : List Nat :=
  (es.zip (readerDirs cur es)).flatMap fun ed => spanAddrs ed.1 ed.2

/-- The data a table stands for: the image's bytes in that order (42_table.md R154). -/
def carriedBytes (image : Nat → Byte) (cur : Dir) (es : List Entry) : List Byte := (carriedAddrs cur es).map image

/-- Bytes stored at addresses, one after the other. -/
def storeAt (mem : Nat → Byte) : List (Nat × Byte) → Nat → Byte
  | [] => mem
  | (a, b) :: rest => storeAt (fun x => if x = a then b else mem x) rest

/-- The reader stores the bytes back into the same spans in the same order (42_table.md R154). -/
def reload (mem : Nat → Byte) (es : List Entry) (bytes : List Byte) : Nat → Byte :=
  storeAt mem ((carriedAddrs .fwd es).zip bytes)

/-- An address from its two wire bytes, high byte first (42_table.md R157). -/
def wireAddr (hi lo : Byte) : BitVec 16 := hi ++ lo

/-- FIXED, with the length out of band (42_table.md R161, R165). -/
def parseFixed (len : BitVec 15) : List Byte → Option (List Entry)
  | hi :: lo :: rest =>
    if hi = 0x00#8 then some []
    else (parseFixed len rest).map fun es => { addr := wireAddr hi lo, len := len, cd := false } :: es
  | [hi] => if hi = 0x00#8 then some [] else none
  | [] => none

/-- COMPACT (42_table.md R162, R165). -/
def parseCompact : List Byte → Option (List Entry)
  | hi :: lo :: cl :: rest =>
    if hi = 0x00#8 then some []
    else (parseCompact rest).map fun es =>
      { addr := wireAddr hi lo, len := BitVec.ofNat 15 (cl.toNat % 128), cd := cl.getLsbD 7 } :: es
  | hi :: _ => if hi = 0x00#8 then some [] else none
  | [] => none

/-- FULL (42_table.md R163, R165). -/
def parseFull : List Byte → Option (List Entry)
  | hi :: lo :: ch :: cl :: rest =>
    if hi = 0x00#8 then some []
    else (parseFull rest).map fun es =>
      { addr := wireAddr hi lo, len := BitVec.ofNat 15 (ch.toNat % 128 * 256 + cl.toNat), cd := ch.getLsbD 7 } :: es
  | hi :: _ => if hi = 0x00#8 then some [] else none
  | [] => none

/-- The decoder of a serialized table, given the strategy and FIXLEN (42_table.md R165). -/
def parseTable (st : Strategy) (fixLen : BitVec 16) (bytes : List Byte) : Option (List Entry) :=
  match st with
  | .fixed => parseFixed (fixLen.setWidth 15) bytes
  | .compact => parseCompact bytes
  | .full => parseFull bytes

end Sys2Proof.Machine
end

