-- ==== Sys2Proof/Safety.lean ====
section
/-! DEFINITION. What the statements speak of: the invariant of a TBME, what a command leaves unchanged, runs. -/

namespace Sys2Proof.Machine

/-- The invariant of every TBME from reset on. -/
structure State.Inv (s : State) : Prop where
  /-- 00_scope.md R5. -/
  paramsLegal : s.params.Legal
  /-- IBUF is in canonical form. -/
  ibufWf : s.ibuf.wf
  /-- IBUF has `P_IBUF_SIZE` bytes (10_state.md R40). -/
  ibufWithin : s.ibuf.within s.params.ibufSize
  /-- OBUF is in canonical form. -/
  obufWf : s.obuf.wf
  /-- OBUF has `P_OBUF_SIZE` bytes (10_state.md R41). -/
  obufWithin : s.obuf.within s.params.obufSize
  /-- TBL has `P_TBL_CAP` entries (10_state.md R42). -/
  tblWithin : s.tbl.length ≤ s.params.tblCap
  /-- The valid entries are in the array; with `tblWithin`, TCOUNT is in 0..`P_TBL_CAP` (10_state.md R36, R42). -/
  countWithin : s.tcount.toNat ≤ s.tbl.length
  /-- TBME admits into TBL only entries that satisfy ValidEntry (42_table.md R150). -/
  entriesValid : ∀ e ∈ s.entries, e.valid = true
  /-- COVOK is never stale: the table partitions the display region (10_state.md R24; 42_table.md R175). -/
  covokFresh : s.covok = true → Partitions s.entries

/-- No command is faulted: FAULT is 0 and the last command did not fail an assertion (60_exceptions.md R246). -/
def State.Sound (s : State) : Prop := s.fault = false ∧ s.err ≠ .invariant

/-- Every register but those listed reads the same through the bus. STATUS is compared under a mask of its own. -/
def RegsKept (changed : List Reg) (s t : State) : Prop :=
  ∀ r : Reg, r ≠ .status → r ∉ changed → readReg t r = readReg s r

/-- Every STATUS bit outside `mask` reads the same. -/
def StatusKept (mask : Word) (s t : State) : Prop :=
  readReg t .status &&& ~~~mask = readReg s .status &&& ~~~mask

/-- STATUS bits that every command changes or lets a read see change: BUSY (bit 0) and ERR (bits 11:8) (30_encoding.md
R90), and OVERRUN (bit 6), which shows its held value until BUSY clears (20_memory.md R67); `Completed` says that the
flag itself is kept. -/
def maskDone : Word := 0x00000F41#32
/-- With CKOK (bit 2). -/
def maskCkok : Word := 0x00000F45#32
/-- With COVOK (bit 3). -/
def maskCovok : Word := 0x00000F49#32
/-- With STRAT (bits 5:4), SHORTLEN (bit 12) and FIXDIR (bit 13). -/
def maskReport : Word := 0x00003F71#32

/-- No command is pending any more, ERR is 0, and what no command touches is as before: OVERRUN, IBUF, the parameters,
the events to come, the bus's last answer. -/
def Completed (s t : State) : Prop :=
  t.pend = none ∧ t.err = .ok ∧ t.overrun = s.overrun ∧ (∀ a, t.ibuf.read a = s.ibuf.read a) ∧
  t.params = s.params ∧ t.events = s.events ∧ t.resp = s.resp

/-- A command that succeeded and changed no register but those listed and no STATUS bit outside the mask. -/
def CommandFrame (changed : List Reg) (mask : Word) (s t : State) : Prop :=
  Completed s t ∧ RegsKept changed s t ∧ StatusKept mask s t

/-- Every byte of OBUF reads the same. -/
def ObufKept (s t : State) : Prop := ∀ a, t.obuf.read a = s.obuf.read a

/-- Every byte of OBUF outside `n` bytes from DST reads the same. -/
def ObufKeptOutside (n : Nat) (s t : State) : Prop :=
  ∀ a, (a < s.dst.toNat ∨ s.dst.toNat + n ≤ a) → t.obuf.read a = s.obuf.read a

/-- The table's entries, in order, are the same. -/
def TableKept (s t : State) : Prop := t.tcount = s.tcount ∧ t.tbl = s.tbl

/-- An event that is a host access. -/
def Event.isAccess : Event → Bool
  | .read _ _ => true
  | .write _ _ _ => true
  | .engine => false
  | .hwReset _ _ _ => false

/-- The reset column of 10_state.md section 2, as a host read gives it. -/
def resetColumn (p : Params) : Reg → Word
  | .id => 0x54424D45#32
  | .cfgTag => 0x00000011#32
  | .cfgSanity => 0x000000B2#32
  | .capIbuf => BitVec.ofNat 32 p.ibufSize
  | .capObuf => BitVec.ofNat 32 p.obufSize
  | .capTbl => BitVec.ofNat 32 p.tblCap
  | .ctrl => 0#32
  | .status => 0#32
  | .cmd => 0#32
  | .src => 0#32
  | .len => 0#32
  | .dst => 0#32
  | .outLen => 0#32
  | .acc => 0#32
  | .suffix => 0#32
  | .hdrPilot => 0#32
  | .hdrSync0 => 0#32
  | .hdrSync1 => 0#32
  | .hdrZero => 0#32
  | .hdrOne => 0#32
  | .hdrPcount => 0#32
  | .hdrPause => 0#32
  | .entry => 0#32
  | .tidx => 0#32
  | .tcount => 0#32
  | .fixLen => 0#32

/-- The bits a host write can set in a read-write register (10_state.md R23, R26, R32 to R35); none for a register it
cannot write so. -/
def writableBits : Reg → Option Word
  | .ctrl => some 0x00000003#32
  | .src => some 0x00FFFFFF#32
  | .len => some 0x00FFFFFF#32
  | .dst => some 0x00FFFFFF#32
  | .cfgTag => some 0x000000FF#32
  | .cfgSanity => some 0x000000FF#32
  | .entry => some 0xFFFFFFFF#32
  | .tidx => some 0x0000FFFF#32
  | .id => none
  | .status => none
  | .cmd => none
  | .outLen => none
  | .acc => none
  | .suffix => none
  | .hdrPilot => none
  | .hdrSync0 => none
  | .hdrSync1 => none
  | .hdrZero => none
  | .hdrOne => none
  | .hdrPcount => none
  | .hdrPause => none
  | .tcount => none
  | .fixLen => none
  | .capIbuf => none
  | .capObuf => none
  | .capTbl => none

/-- A read-only register: a write has no effect (10_state.md section 2). STATUS is not among them, its bits 6 and 7
can be cleared. -/
def Reg.readOnly (r : Reg) : Prop :=
  r ∈ [.id, .outLen, .acc, .suffix, .tcount, .fixLen, .capIbuf, .capObuf, .capTbl]

/-- A header register (10_state.md R30). -/
def Reg.header (r : Reg) : Prop :=
  r ∈ [.hdrPilot, .hdrSync0, .hdrSync1, .hdrZero, .hdrOne, .hdrPcount, .hdrPause]

/-- The access is no bus error, by the words of 20_memory.md R60 to R62. -/
def Mapped (p : Params) (addr : BusAddr) (w : Width) : Prop :=
  (addr.toNat < 0x100 ∧ w = .w32 ∧ addr.toNat % 4 = 0) ∨
  (0x1000000 ≤ addr.toNat ∧ addr.toNat % w.bytes = 0 ∧ addr.toNat - 0x1000000 + w.bytes ≤ p.ibufSize) ∨
  (0x2000000 ≤ addr.toNat ∧ addr.toNat % w.bytes = 0 ∧ addr.toNat - 0x2000000 + w.bytes ≤ p.obufSize)

/-- The host address of an access to a register. -/
def regAddr (r : Reg) : BusAddr := BitVec.ofNat 26 r.offset

/-- `n` steps. -/
def runSteps (n : Nat) (s : State) : Result := Sys2Proof.core.run n s

end Sys2Proof.Machine
end

