-- ==== Sys2Proof/Certificates/Slice0/Obligations.lean ====
section
/-! DEFINITION. The statements about TBME, from the numbered rules of spec/. -/

open Sys2Proof Sys2Proof.Machine

/-! Encoding (30_encoding.md). -/

/-- R81 to R86: decoding the word of a well-formed command gives the command back, every operand at every value. -/
def Obligations.DecodeOfEncode : Prop :=
  ∀ i : Instr, i.wellFormed = true → decode (encode i) = .ok i

/-- R80 to R86, R88: a word that decodes is the word of the command it decodes to, and that command is well formed, so
no bit of a legal word is dropped and no two words stand for one command. -/
def Obligations.EncodeOfDecode : Prop :=
  ∀ (w : Word) (i : Instr), decode w = .ok i → i.wellFormed = true ∧ encode i = w

/-- R86: no two rows of the opcode map match one word, and a word decodes to a command of the one row it matches. -/
def Obligations.DecoderFollowsTheOpcodeMap : Prop :=
  (∀ (w : Word) (r r' : OpcodeRow), r ∈ opcodeMap → r' ∈ opcodeMap →
    r.matchesWord w = true → r'.matchesWord w = true → r = r') ∧
  (∀ (w : Word) (r : OpcodeRow), r ∈ opcodeMap → r.matchesWord w = true →
    ∃ i, decode w = .ok i ∧ i.mnemonic = r.mnemonic) ∧
  ∀ (w : Word) (i : Instr), decode w = .ok i → ∃ r ∈ opcodeMap, r.matchesWord w = true ∧ r.mnemonic = i.mnemonic

/-- R92 and 95_test_vectors.md: words written out from the formats decode to the commands they stand for. -/
def Obligations.SampleWordsDecode : Prop :=
  decode 0x00000000#32 = .ok .nop ∧
  decode 0x00341201#32 = .ok (.ckSeed 0x12#8 0x34#8) ∧
  decode 0x0000B202#32 = .ok (.ckByte 0xB2#8) ∧
  decode 0x00000010#32 = .ok .blkSer ∧
  decode 0x00080022#32 = .ok (.tblSplit 2048) ∧
  decode 0x00007123#32 = .ok (.tblGenLinear 4#3 3) ∧
  decode 0x00000C23#32 = .ok (.tblGenComb 3#3 0) ∧
  decode 0x00006223#32 = .ok (.tblGenAttrSq 0#3 3) ∧
  decode 0x00000026#32 = .ok .tblRead ∧
  decode 0x000000FF#32 = .ok .sreset

/-! The engine step (30_encoding.md R90; 60_exceptions.md). -/

/-- R90: with a command pending and the engine's turn next, the step is the decoded command's meaning on the state the
turn leaves; the turn is the first event of the list, or comes when the list is used up (the model's list of events,
assumption logs 1 and 9). A command placed by `withFetchWord` runs so in the very next step. -/
def Obligations.StepRunsTheDecodedCommand : Prop :=
  (∀ (s : State) (es : List Event) (w : Word) (i : Instr), decode w = .ok i → (s.fault = false ∨ i = .sreset) →
    step { s with pend := some w, events := .engine :: es } = exec i { s with pend := some w, events := es } ∧
    step { s with pend := some w, events := [] } = exec i { s with pend := some w, events := [] }) ∧
  ∀ (s : State) (nbits w : Nat) (i : Instr), decodeTableWord nbits w = some i → s.fault = false →
    step (s.withFetchWord nbits w) = exec i { s with pend := some (BitVec.ofNat 32 w), overrunHeld := s.overrun }

/-- R87: a word that matches no row is illegal: executing it raises ILLEGAL and changes nothing but ERR and the end of
BUSY. The three kinds the rule lists match no row: another opcode, opcode 0x23 with FAM = 3, a fixed bit that is set. -/
def Obligations.IllegalWordsRaiseIllegal : Prop :=
  (∀ (s : State) (es : List Event) (w : Word), (∀ r ∈ opcodeMap, r.matchesWord w = false) → s.fault = false →
    step { s with pend := some w, events := .engine :: es } =
      .next { s with pend := none, events := es, err := .illegal }) ∧
  (∀ w : Word, w.toNat % 256 ∉ [0, 1, 2, 3, 4, 5, 6, 0x10, 0x20, 0x21, 0x22, 0x23, 0x24, 0x25, 0x26, 0xFF] →
    ∀ r ∈ opcodeMap, r.matchesWord w = false) ∧
  (∀ w : Word, w.toNat % 256 = 0x23 → w.toNat / 256 % 4 = 3 → ∀ r ∈ opcodeMap, r.matchesWord w = false) ∧
  (∀ w : Word, w.toNat % 256 ∈ [0, 3, 4, 5, 6, 0x10, 0x20, 0x21, 0x24, 0x25, 0x26, 0xFF] → w.toNat / 2 ^ 8 ≠ 0 →
    ∀ r ∈ opcodeMap, r.matchesWord w = false) ∧
  (∀ w : Word, w.toNat % 256 = 2 → w.toNat / 2 ^ 16 ≠ 0 → ∀ r ∈ opcodeMap, r.matchesWord w = false) ∧
  (∀ w : Word, w.toNat % 256 ∈ [1, 0x22] → w.toNat / 2 ^ 24 ≠ 0 → ∀ r ∈ opcodeMap, r.matchesWord w = false) ∧
  ∀ w : Word, w.toNat % 256 = 0x23 → w.toNat / 2 ^ 15 ≠ 0 → ∀ r ∈ opcodeMap, r.matchesWord w = false

/-- R245: while FAULT = 1 every word but SRESET ends with FAULTED and its rule is not run; host accesses while BUSY = 0
do what they do while FAULT = 0 (but for the FAULT bit itself, which only STATUS shows); SRESET runs. -/
def Obligations.FaultedUnitAcceptsOnlySreset : Prop :=
  (∀ (s : State) (es : List Event) (w : Word), s.fault = true → w ≠ 0x000000FF#32 →
    step { s with pend := some w, events := .engine :: es } =
      .next { s with pend := none, events := es, err := .faulted }) ∧
  (∀ (s : State) (es : List Event), s.fault = true →
    step { s with pend := some 0x000000FF#32, events := .engine :: es } =
      exec .sreset { s with pend := some 0x000000FF#32, events := es }) ∧
  (∀ (s : State) (addr : BusAddr) (w : Width) (data : Word), s.pend = none →
    hostWrite { s with fault := true } addr w data =
      { hostWrite { s with fault := false } addr w data with fault := true }) ∧
  ∀ (s : State) (addr : BusAddr) (w : Width), target s.params addr w ≠ some (.reg .status) →
    hostRead { s with fault := true } addr w = { hostRead { s with fault := false } addr w with fault := true }

/-- R279 ("Every command terminates") and R280 (no halt state): every step answers a next state. No step of this model
faults or refuses. -/
def Obligations.EveryStepAnswersANextState : Prop :=
  (∀ s : State, ∃ t, step s = .next t) ∧ ∀ (i : Instr) (s : State), ∃ t, exec i s = .next t

/-- R243: an engine step ends BUSY and writes ERR; if the code is not OK, nothing but ERR, FAULT and BUSY changed. -/
def Obligations.ErrorsChangeOnlyErrFaultAndBusy : Prop :=
  ∀ (s t : State) (es : List Event) (w : Word),
    step { s with pend := some w, events := .engine :: es } = .next t →
    t.pend = none ∧
    (t.err ≠ .ok → t = { s with events := es, pend := none, err := t.err, fault := t.fault } ∧
      (t.fault = true → s.fault = true ∨ t.err = .invariant))

/-- R246 (the spec derives it), R244, R247: no command ends with INVARIANT and no event sets FAULT: a sound unit
stays sound, whatever happens to it. -/
def Obligations.FaultStaysZero : Prop :=
  (∀ (i : Instr) (s t : State), exec i s = .next t → t.err ≠ .invariant ∧ (t.fault = true → s.fault = true)) ∧
  ∀ s t : State, s.Sound → step s = .next t → t.Sound

/-- The invariant of Safety.lean (legal parameters, canonical buffers inside their sizes, TCOUNT within TBL within
P_TBL_CAP, valid entries, COVOK not stale) is kept by every step. -/
def Obligations.StepKeepsTheInvariant : Prop :=
  ∀ s t : State, s.Inv → step s = .next t → t.Inv

/-- The invariant holds after reset, for every legal instance and whatever the buffers and the table RAM hold. -/
def Obligations.ResetMeetsTheInvariant : Prop :=
  State.reset.Inv ∧ State.reset.Sound ∧
  ∀ (p : Params) (ibuf obuf : Memory) (tbl : List Entry), p.Legal → ibuf.wf → ibuf.within p.ibufSize → obuf.wf →
    obuf.within p.obufSize → tbl.length ≤ p.tblCap →
    (State.resetWith p ibuf obuf tbl).Inv ∧ (State.resetWith p ibuf obuf tbl).Sound

/-- R23, R26, R30, R32, R33, R35, R40, R44, R66: no command but SRESET writes CTRL, SRC, LEN, DST, TIDX, a header
register, CFG_TAG, CFG_SANITY, OVERRUN or WREJ; no command at all writes IBUF or the parameters. -/
def Obligations.CommandsKeepCtrlSrcLenDstTidxHdrCfgIbuf : Prop :=
  ∀ (i : Instr) (s t : State), exec i s = .next t →
    (∀ a, t.ibuf.read a = s.ibuf.read a) ∧ t.params = s.params ∧
    (i ≠ .sreset →
      t.overrun = s.overrun ∧ t.wrej = s.wrej ∧
      ∀ r ∈ [Reg.ctrl, .src, .len, .dst, .hdrPilot, .hdrSync0, .hdrSync1, .hdrZero, .hdrOne, .hdrPcount, .hdrPause,
        .cfgTag, .cfgSanity, .tidx], readReg t r = readReg s r)

/-- R27, R28, R29, R34, R36, R37, R41, R44: a result register, flag or buffer changes only under the commands that the
state file names as its writers, and under SRESET where the reset writes it. -/
def Obligations.ResultsChangeOnlyUnderTheirWriters : Prop :=
  ∀ (i : Instr) (s t : State), exec i s = .next t →
    (t.outLen ≠ s.outLen → i.mnemonic ∈ ["BLK_SER", "TBL_SER", "SRESET"]) ∧
    (t.acc ≠ s.acc → i.mnemonic ∈ ["CK_SEED", "CK_BYTE", "CK_RUN", "CK_SOLVE", "CK_SOLVE_ACC", "BLK_SER", "SRESET"]) ∧
    (t.suffix ≠ s.suffix → i.mnemonic ∈ ["CK_SOLVE", "CK_SOLVE_ACC", "BLK_SER", "SRESET"]) ∧
    (t.entry ≠ s.entry → i.mnemonic ∈ ["TBL_READ", "SRESET"]) ∧
    (t.tcount ≠ s.tcount → i.mnemonic ∈ ["TBL_CLEAR", "TBL_APPEND", "TBL_SPLIT", "TBL_GEN.COMB", "TBL_GEN.LINEAR",
      "TBL_GEN.ATTRSQ", "SRESET"]) ∧
    (t.fixLen ≠ s.fixLen ∨ t.strat ≠ s.strat ∨ t.shortLen ≠ s.shortLen ∨ t.fixDir ≠ s.fixDir →
      i.mnemonic ∈ ["TBL_SER", "SRESET"]) ∧
    (t.ckok ≠ s.ckok → i.mnemonic ∈ ["CK_SOLVE", "CK_SOLVE_ACC", "CK_CHECK", "BLK_SER", "SRESET"]) ∧
    (t.covok ≠ s.covok → i.mnemonic ∈ ["TBL_CHECK", "TBL_CLEAR", "TBL_APPEND", "TBL_SPLIT", "TBL_GEN.COMB",
      "TBL_GEN.LINEAR", "TBL_GEN.ATTRSQ", "SRESET"]) ∧
    (t.obuf ≠ s.obuf → i.mnemonic ∈ ["BLK_SER", "TBL_SER"]) ∧
    (t.tbl ≠ s.tbl → i.mnemonic ∈ ["TBL_APPEND", "TBL_SPLIT", "TBL_GEN.COMB", "TBL_GEN.LINEAR", "TBL_GEN.ATTRSQ"])

/-! Reset (70_reset_and_hazards.md; 44_control.md). -/

/-- R270: after a hardware reset, in any state and with a command pending or not, every register reads its reset
value, no command is pending, the table is empty, and the buffers hold what the event says (the spec leaves their
contents open). -/
def Obligations.HardwareResetGivesTheResetColumn : Prop :=
  (∀ r : Reg, readReg State.reset r = resetColumn Params.examples r) ∧
  ∀ (s : State) (es : List Event) (ib ob : List Host.Cell) (tb : List Entry),
    ∃ t, step { s with events := .hwReset ib ob tb :: es } = .next t ∧
      (∀ r : Reg, readReg t r = resetColumn s.params r) ∧ t.pend = none ∧ t.entries = [] ∧ t.params = s.params ∧
      t.events = es ∧ t.ibuf = Memory.ofCells s.params.ibufSize ib ∧ t.obuf = Memory.ofCells s.params.obufSize ob

/-- R231: the word 0x000000FF is SRESET, which completes in every state, FAULT or not: every register reads its reset
value, no command is pending, and IBUF, OBUF and the table RAM are unchanged. -/
def Obligations.SresetResetsRegistersAndKeepsBuffers : Prop :=
  decode 0x000000FF#32 = .ok .sreset ∧
  ∀ s : State, ∃ t, exec .sreset s = .next t ∧
    (∀ r : Reg, readReg t r = resetColumn s.params r) ∧ t.pend = none ∧
    (∀ a, t.ibuf.read a = s.ibuf.read a) ∧ ObufKept s t ∧ t.tbl = s.tbl ∧ t.params = s.params ∧
    t.events = s.events ∧ t.resp = s.resp

/-- R230: the all-zero word is NOP, which completes in every state and changes nothing but ERR and BUSY. -/
def Obligations.NopOnlyClearsErr : Prop :=
  decode 0x00000000#32 = .ok .nop ∧
  ∀ s : State, ∃ t, exec .nop s = .next t ∧ CommandFrame [] maskDone s t ∧ ObufKept s t ∧ TableKept s t

/-! The host bus (20_memory.md; 10_state.md section 2). -/

/-- R65 with R60, R61, R62: an access that no window takes is a bus error: a read answers an error and 0, a write
answers an error (its data 0 is the model's, assumption log 6), and nothing else changes, OVERRUN included. -/
def Obligations.BusErrorsChangeNothing : Prop :=
  ∀ (s : State) (es : List Event) (addr : BusAddr) (w : Width) (data : Word), s.params.Legal →
    ¬ Mapped s.params addr w →
    step { s with events := .read addr w :: es } = .next { s with events := es, resp := some ⟨true, 0#32⟩ } ∧
    step { s with events := .write addr w data :: es } = .next { s with events := es, resp := some ⟨true, 0#32⟩ }

/-- R61, R69: an aligned 32-bit read at a register's offset answers the register's value, in every state, and changes
nothing but the bus's answer. The offsets are those of 10_state.md section 2. -/
def Obligations.RegisterReadsAnswerTheRegister : Prop :=
  ∀ (s : State) (es : List Event) (r : Reg),
    step { s with events := .read (regAddr r) .w32 :: es } =
      .next { s with events := es, resp := some ⟨false, readReg { s with events := es } r⟩ } ∧
    (regAddr r).toNat = (match r with
      | .id => 0x00 | .ctrl => 0x04 | .status => 0x08 | .cmd => 0x0C | .src => 0x10 | .len => 0x14 | .dst => 0x18
      | .outLen => 0x1C | .acc => 0x20 | .suffix => 0x24 | .hdrPilot => 0x28 | .hdrSync0 => 0x2C | .hdrSync1 => 0x30
      | .hdrZero => 0x34 | .hdrOne => 0x38 | .hdrPcount => 0x3C | .hdrPause => 0x40 | .cfgTag => 0x44
      | .cfgSanity => 0x48 | .entry => 0x4C | .tidx => 0x50 | .tcount => 0x54 | .fixLen => 0x58 | .capIbuf => 0x5C
      | .capObuf => 0x60 | .capTbl => 0x64)

/-- R39: a 32-bit aligned read at a reserved offset answers 0 and a write there has no effect, BUSY or not. -/
def Obligations.ReservedOffsetsAreInert : Prop :=
  ∀ (s : State) (es : List Event) (addr : BusAddr) (data : Word), 0x68 ≤ addr.toNat → addr.toNat ≤ 0xFC →
    addr.toNat % 4 = 0 →
    step { s with events := .read addr .w32 :: es } = .next { s with events := es, resp := some ⟨false, 0#32⟩ } ∧
    step { s with events := .write addr .w32 data :: es } = .next { s with events := es, resp := some ⟨false, 0#32⟩ }

/-- R23, R24, R26 to R30, R32 to R37, R43, R67: the place of every field of every register as the host reads it, by the
field of State that the commands' rules speak of. BUSY reads PEND.valid; OVERRUN shows while BUSY = 1 the value held
since the write to CMD (R67; assumption log 19); reserved bits read 0. R24, R241: the numbers of STRAT and ERR. ID and
the capability registers stand in `ConstantRegistersNeverChange`, CMD in `CmdWriteIsAcceptance`. -/
def Obligations.RegisterLayout : Prop :=
  ∀ s : State,
    let w := readReg s .status
    w.getLsbD 0 = s.pend.isSome ∧ w.getLsbD 1 = s.fault ∧ w.getLsbD 2 = s.ckok ∧ w.getLsbD 3 = s.covok ∧
    (w.extractLsb' 4 2).toNat = (match s.strat with | .fixed => 0 | .compact => 1 | .full => 2) ∧
    w.getLsbD 6 = (if s.pend = none then s.overrun else s.overrunHeld) ∧ w.getLsbD 7 = s.wrej ∧
    (w.extractLsb' 8 4).toNat = (match s.err with
      | .ok => 0 | .illegal => 1 | .range => 2 | .config => 3 | .shape => 4 | .capacity => 5 | .mode => 6
      | .length => 7 | .faulted => 8 | .invariant => 15) ∧
    w.getLsbD 12 = s.shortLen ∧ w.getLsbD 13 = s.fixDir ∧
    w.toNat < 2 ^ 14 ∧
    (readReg s .acc).toNat = s.acc.l.toNat + 256 * s.acc.h.toNat ∧
    (readReg s .suffix).toNat = s.suffix.l.toNat + 256 * s.suffix.h.toNat ∧
    ((readReg s .ctrl).getLsbD 0 = true ↔ s.sufRule = .literal) ∧ (readReg s .ctrl).getLsbD 1 = s.noFixLen ∧
    (readReg s .ctrl).toNat < 2 ^ 2 ∧
    (readReg s .src).toNat = s.src.toNat ∧ (readReg s .len).toNat = s.len.toNat ∧
    (readReg s .dst).toNat = s.dst.toNat ∧ readReg s .outLen = s.outLen ∧
    (readReg s .hdrPilot).toNat = s.hdr.pilot.toNat ∧ (readReg s .hdrSync0).toNat = s.hdr.sync0.toNat ∧
    (readReg s .hdrSync1).toNat = s.hdr.sync1.toNat ∧ (readReg s .hdrZero).toNat = s.hdr.zero.toNat ∧
    (readReg s .hdrOne).toNat = s.hdr.one.toNat ∧ (readReg s .hdrPcount).toNat = s.hdr.pcount.toNat ∧
    (readReg s .hdrPause).toNat = s.hdr.pause.toNat ∧ (readReg s .cfgTag).toNat = s.cfgTag.toNat ∧
    (readReg s .cfgSanity).toNat = s.cfgSanity.toNat ∧ readReg s .entry = s.entry ∧
    (readReg s .tidx).toNat = s.tidx.toNat ∧ (readReg s .tcount).toNat = s.tcount.toNat ∧
    (readReg s .fixLen).toNat = s.fixLen.toNat

/-- R62, R64: an aligned read of a buffer answers its bytes, the byte at the lowest offset in bits 7:0; the bits above
an 8- or 16-bit access are 0 (the model's choice, assumption log 6). Nothing else changes. -/
def Obligations.BufferReadsAreLittleEndian : Prop :=
  ∀ (s : State) (es : List Event) (addr : BusAddr) (w : Width), s.params.Legal → addr.toNat % w.bytes = 0 →
    (0x1000000 ≤ addr.toNat → addr.toNat - 0x1000000 + w.bytes ≤ s.params.ibufSize →
      ∃ v : Word, step { s with events := .read addr w :: es } =
          .next { s with events := es, resp := some ⟨false, v⟩ } ∧
        (∀ j < w.bytes, v.extractLsb' (8 * j) 8 = s.ibuf.read (addr.toNat - 0x1000000 + j)) ∧
        v.toNat < 2 ^ (8 * w.bytes)) ∧
    (0x2000000 ≤ addr.toNat → addr.toNat - 0x2000000 + w.bytes ≤ s.params.obufSize →
      ∃ v : Word, step { s with events := .read addr w :: es } =
          .next { s with events := es, resp := some ⟨false, v⟩ } ∧
        (∀ j < w.bytes, v.extractLsb' (8 * j) 8 = s.obuf.read (addr.toNat - 0x2000000 + j)) ∧
        v.toNat < 2 ^ (8 * w.bytes))

/-- R62, R64: while BUSY = 0 an aligned write of a buffer stores its bytes, bits 7:0 at the lowest offset, and changes
only the addressed bytes. The data 0 of the answer is the model's choice (assumption log 6). -/
def Obligations.BufferWritesChangeOnlyTheAddressedBytes : Prop :=
  ∀ (s : State) (es : List Event) (addr : BusAddr) (w : Width) (data : Word), s.params.Legal → s.pend = none →
    addr.toNat % w.bytes = 0 →
    (0x1000000 ≤ addr.toNat → addr.toNat - 0x1000000 + w.bytes ≤ s.params.ibufSize →
      ∃ m, step { s with events := .write addr w data :: es } =
          .next { s with events := es, ibuf := m, resp := some ⟨false, 0#32⟩ } ∧
        (∀ j < w.bytes, m.read (addr.toNat - 0x1000000 + j) = data.extractLsb' (8 * j) 8) ∧
        ∀ a, (a < addr.toNat - 0x1000000 ∨ addr.toNat - 0x1000000 + w.bytes ≤ a) → m.read a = s.ibuf.read a) ∧
    (0x2000000 ≤ addr.toNat → addr.toNat - 0x2000000 + w.bytes ≤ s.params.obufSize →
      ∃ m, step { s with events := .write addr w data :: es } =
          .next { s with events := es, obuf := m, resp := some ⟨false, 0#32⟩ } ∧
        (∀ j < w.bytes, m.read (addr.toNat - 0x2000000 + j) = data.extractLsb' (8 * j) 8) ∧
        ∀ a, (a < addr.toNat - 0x2000000 ∨ addr.toNat - 0x2000000 + w.bytes ≤ a) → m.read a = s.obuf.read a)

/-- R66: while BUSY = 1 every host write that is no bus error and goes to no reserved offset is dropped and sets
OVERRUN, a write to CMD, to a read-only register and a W1C write to STATUS included; a write to a reserved offset is
dropped without setting OVERRUN. -/
def Obligations.WritesWhileBusyAreDropped : Prop :=
  ∀ (s : State) (es : List Event) (addr : BusAddr) (w : Width) (data : Word), s.params.Legal → s.pend ≠ none →
    Mapped s.params addr w →
    (¬ (0x68 ≤ addr.toNat ∧ addr.toNat < 0x100) →
      step { s with events := .write addr w data :: es } =
        .next { s with events := es, overrun := true, resp := some ⟨false, 0#32⟩ }) ∧
    (0x68 ≤ addr.toNat ∧ addr.toNat < 0x100 →
      step { s with events := .write addr w data :: es } =
        .next { s with events := es, resp := some ⟨false, 0#32⟩ })

/-- R278, R67, H2, H3: how long the engine's step is delayed does not matter: after any host accesses while BUSY = 1,
every register, STATUS included, and every buffer byte reads as before, the command is still pending, and the engine
step then gives what it gives without them, but for OVERRUN, which a dropped write has set (R66), and the bus's last
answer. That the reads go on from the values at the write to CMD is `CmdWriteIsAcceptance`. -/
def Obligations.EngineDelayDoesNotMatter : Prop :=
  ∀ (s : State) (w : Word) (accesses es : List Event), (∀ e ∈ accesses, e.isAccess = true) →
    ∃ ov rsp, runSteps accesses.length { s with pend := some w, events := accesses ++ .engine :: es } =
        .next { s with pend := some w, events := .engine :: es, overrun := ov, resp := rsp } ∧
      (∀ r : Reg, readReg { s with pend := some w, events := .engine :: es, overrun := ov, resp := rsp } r =
        readReg { s with pend := some w } r) ∧
      ∃ t t', step { s with pend := some w, events := .engine :: es, overrun := ov, resp := rsp } = .next t ∧
        step { s with pend := some w, events := .engine :: es } = .next t' ∧
        t = { t' with overrun := t.overrun, resp := t.resp }

/-- R31: while BUSY = 0, a write to a header register with any of bits 31:16 set leaves every register but STATUS and
sets WREJ; with bits 31:16 zero it stores bits 15:0 and changes no other register. -/
def Obligations.HeaderWritesAreRangeChecked : Prop :=
  ∀ (s : State) (es : List Event) (r : Reg) (v : Word), s.pend = none → r.header →
    (2 ^ 16 ≤ v.toNat → step { s with events := .write (regAddr r) .w32 v :: es } =
      .next { s with events := es, wrej := true, resp := some ⟨false, 0#32⟩ }) ∧
    (v.toNat < 2 ^ 16 → ∃ h, step { s with events := .write (regAddr r) .w32 v :: es } =
      .next { s with events := es, hdr := h, resp := some ⟨false, 0#32⟩ } ∧
      readReg { s with hdr := h } r = v ∧ ∀ q : Reg, q ≠ r → readReg { s with hdr := h } q = readReg s q)

/-- R25: a write to CMD while BUSY = 0 captures the word and sets BUSY, and every register then reads as before the
write but for BUSY (R67: OVERRUN's value is held for the reads while BUSY = 1, assumption log 19); while BUSY = 1 it is
dropped and sets OVERRUN; CMD reads 0. The data 0 of a write's answer is the model's choice (assumption log 6). -/
def Obligations.CmdWriteIsAcceptance : Prop :=
  ∀ (s : State) (es : List Event) (v : Word),
    (s.pend = none →
      ∃ t, step { s with events := .write (regAddr .cmd) .w32 v :: es } = .next t ∧
        t = { s with events := es, pend := some v, overrunHeld := s.overrun, resp := some ⟨false, 0#32⟩ } ∧
        readReg t .status = readReg s .status ||| 1#32 ∧ ∀ q : Reg, q ≠ .status → readReg t q = readReg s q) ∧
    (s.pend ≠ none → step { s with events := .write (regAddr .cmd) .w32 v :: es } =
      .next { s with events := es, overrun := true, resp := some ⟨false, 0#32⟩ }) ∧
    step { s with events := .read (regAddr .cmd) .w32 :: es } =
      .next { s with events := es, resp := some ⟨false, 0#32⟩ }

/-- R24: a write to STATUS while BUSY = 0 clears OVERRUN where bit 6 is 1 and WREJ where bit 7 is 1, and has no other
effect. -/
def Obligations.StatusWriteClearsOverrunAndWrej : Prop :=
  ∀ (s : State) (es : List Event) (v : Word), s.pend = none →
    step { s with events := .write (regAddr .status) .w32 v :: es } =
      .next { s with events := es, resp := some ⟨false, 0#32⟩,
                     overrun := if v.getLsbD 6 then false else s.overrun,
                     wrej := if v.getLsbD 7 then false else s.wrej }

/-- R23, R26, R32 to R35 and section 2's RO and RW: while BUSY = 0, a read-write register then reads the data less its
reserved bits, every other register, flag and buffer byte and the table are unchanged; a write to a read-only register
changes nothing. -/
def Obligations.RegisterWritesReadBack : Prop :=
  ∀ (s : State) (es : List Event) (r : Reg) (v : Word), s.pend = none →
    ∃ t, step { s with events := .write (regAddr r) .w32 v :: es } = .next t ∧
      (∀ m, writableBits r = some m → readReg t r = v &&& m ∧ (∀ q : Reg, q ≠ r → readReg t q = readReg s q) ∧
        t.pend = none ∧ t.ibuf = s.ibuf ∧ t.obuf = s.obuf ∧ t.tbl = s.tbl ∧ t.params = s.params) ∧
      (r.readOnly → t = { s with events := es, resp := some ⟨false, 0#32⟩ })

/-- R22, R38: ID and the capability registers read their constants in every state, and no step changes them. -/
def Obligations.ConstantRegistersNeverChange : Prop :=
  (∀ s : State, readReg s .id = 0x54424D45#32) ∧
  (∀ s : State, s.params.Legal → (readReg s .capIbuf).toNat = s.params.ibufSize ∧
    (readReg s .capObuf).toNat = s.params.obufSize ∧ (readReg s .capTbl).toNat = s.params.tblCap) ∧
  ∀ s t : State, step s = .next t → t.params = s.params

/-! Checksum (40_checksum.md). -/

/-- R10: one's-complement addition of two bytes. R103, which the spec derives: the engine modulo 255, and when an
accumulator ends at zero; the intermediate L are those after each byte. -/
def Obligations.OnesComplementAndClosedForm : Prop :=
  (∀ a b : Byte,
    (ocAdd a b).toNat = (if a.toNat + b.toNat < 256 then a.toNat + b.toNat else a.toNat + b.toNat - 255) ∧
    (ocAdd a b = 0#8 ↔ a = 0#8 ∧ b = 0#8) ∧ (ocAdd a b).toNat % 255 = (a.toNat + b.toNat) % 255) ∧
  ∀ (d : List Byte) (p : BytePair),
    (engine d p).l.toNat % 255 = (p.l.toNat + ∑ i : Fin d.length, (d[i]).toNat) % 255 ∧
    (engine d p).h.toNat % 255 =
      (p.h.toNat + d.length * p.l.toNat + ∑ i : Fin d.length, (d.length - i.val) * (d[i]).toNat) % 255 ∧
    ((engine d p).l = 0#8 ↔ p.l = 0#8 ∧ ∀ b ∈ d, b = 0#8) ∧
    ((engine d p).h = 0#8 ↔ p.h = 0#8 ∧ ∀ k < d.length, (engine (d.take (k + 1)) p).l = 0#8)

/-- R104, and R105, which the spec derives: the CONTRACT suffix by its formula, in 1..255, forces the terminal value
from every state, and so after every data string. -/
def Obligations.ContractSuffixForcesTheTerminalValue : Prop :=
  (∀ p : BytePair,
    (contractSuffix p).l.toNat = 255 - (p.l.toNat + p.h.toNat) % 255 ∧
    (contractSuffix p).h.toNat = 255 - (p.l.toNat + (255 - (p.l.toNat + p.h.toNat) % 255)) % 255 ∧
    engine [(contractSuffix p).l, (contractSuffix p).h] p = ⟨0xFF#8, 0xFF#8⟩) ∧
  ∀ d : List Byte,
    engine (d ++ [(contractSuffix (engine d ⟨0#8, 0#8⟩)).l, (contractSuffix (engine d ⟨0#8, 0#8⟩)).h]) ⟨0#8, 0#8⟩ =
      ⟨0xFF#8, 0xFF#8⟩

/-- R106, and R107, which the spec derives: the LITERAL suffix by its two runs; the engine seeded with it ends at the
terminal value. -/
def Obligations.LiteralSuffixSeedsTheTerminalValue : Prop :=
  ∀ d : List Byte,
    (literalSuffix d).l.toNat = 255 - (engine d ⟨0#8, 0#8⟩).l.toNat ∧
    (literalSuffix d).h.toNat = 255 - (engine d ⟨(literalSuffix d).l, 0#8⟩).h.toNat ∧
    engine d (literalSuffix d) = ⟨0xFF#8, 0xFF#8⟩

/-- R109, which the spec derives: flipping one bit of one byte changes the solver's output under either rule. -/
def Obligations.SuffixChangesWithEveryBitFlip : Prop :=
  ∀ (d : List Byte) (i : Nat) (hi : i < d.length) (k : Nat) (r : SufRule), k < 8 →
    ∃ xy xy' chk chk', solve d r = some (xy, chk) ∧ solve (d.set i (d[i] ^^^ (1#8 <<< k))) r = some (xy', chk') ∧
      xy ≠ xy'

/-- R110: CK_SEED, by its word, completes in every state, loads the accumulators and changes nothing else. -/
def Obligations.CkSeedLoadsTheAccumulators : Prop :=
  (∀ seedL seedH : Byte, decode (0#8 ++ seedH ++ seedL ++ 0x01#8) = .ok (.ckSeed seedL seedH)) ∧
  ∀ (s : State) (seedL seedH : Byte), ∃ t, exec (.ckSeed seedL seedH) s = .next t ∧
    t.acc = ⟨seedL, seedH⟩ ∧ CommandFrame [.acc] maskDone s t ∧ ObufKept s t ∧ TableKept s t

/-- R111, R101: CK_BYTE, by its word, completes in every state: L adds the byte, H adds the new L, both
one's-complement. -/
def Obligations.CkByteAbsorbsOneByte : Prop :=
  (∀ b : Byte, decode (0#16 ++ b ++ 0x02#8) = .ok (.ckByte b)) ∧
  ∀ (s : State) (b : Byte), ∃ t, exec (.ckByte b) s = .next t ∧
    t.acc.l.toNat = (let v := s.acc.l.toNat + b.toNat; if v < 256 then v else v - 255) ∧
    t.acc.h.toNat = (let v := s.acc.h.toNat + t.acc.l.toNat; if v < 256 then v else v - 255) ∧
    CommandFrame [.acc] maskDone s t ∧ ObufKept s t ∧ TableKept s t

/-- R112: CK_RUN (0x00000003) completes exactly when its range lies in IBUF and absorbs the range's bytes in order
from the accumulators (none for LEN = 0); otherwise it raises RANGE and changes nothing else. -/
def Obligations.CkRunAbsorbsTheInputRange : Prop :=
  decode 0x00000003#32 = .ok .ckRun ∧
  ∀ (s : State) (d : List Byte), d.length = s.len.toNat →
    (∀ (i : Nat) (hi : i < d.length), d[i] = s.ibuf.read (s.src.toNat + i)) →
    (s.src.toNat + s.len.toNat ≤ s.params.ibufSize →
      ∃ t, exec .ckRun s = .next t ∧ t.acc = engine d s.acc ∧ (s.len = 0 → t.acc = s.acc) ∧
        CommandFrame [.acc] maskDone s t ∧ ObufKept s t ∧ TableKept s t) ∧
    (s.params.ibufSize < s.src.toNat + s.len.toNat → exec .ckRun s = .next { s with err := .range, pend := none })

/-- R113: CK_SOLVE (0x00000004) completes exactly when its range lies in IBUF, whatever ACC holds: SUFFIX is the
suffix of the range's bytes under CTRL.SUFRULE, ACC the terminal pair, CKOK 1; otherwise it raises RANGE and changes
nothing else. -/
def Obligations.CkSolveWritesTheSuffixOfTheInput : Prop :=
  decode 0x00000004#32 = .ok .ckSolve ∧
  ∀ (s : State) (d : List Byte), d.length = s.len.toNat →
    (∀ (i : Nat) (hi : i < d.length), d[i] = s.ibuf.read (s.src.toNat + i)) →
    (s.src.toNat + s.len.toNat ≤ s.params.ibufSize →
      ∃ t, exec .ckSolve s = .next t ∧
        (s.sufRule = .contract → t.suffix = contractSuffix (engine d ⟨0#8, 0#8⟩)) ∧
        (s.sufRule = .literal → t.suffix = literalSuffix d) ∧
        t.acc = ⟨0xFF#8, 0xFF#8⟩ ∧ t.ckok = true ∧
        CommandFrame [.acc, .suffix] maskCkok s t ∧ ObufKept s t ∧ TableKept s t) ∧
    (s.params.ibufSize < s.src.toNat + s.len.toNat → exec .ckSolve s = .next { s with err := .range, pend := none })

/-- R114: CK_SOLVE_ACC (0x00000005) completes under CONTRACT from every accumulator state, with the CONTRACT suffix
of ACC, after which ACC is the terminal pair and CKOK 1; under LITERAL it raises MODE and changes nothing else. -/
def Obligations.CkSolveAccSolvesFromTheAccumulators : Prop :=
  decode 0x00000005#32 = .ok .ckSolveAcc ∧
  ∀ s : State,
    (s.sufRule = .contract →
      ∃ t, exec .ckSolveAcc s = .next t ∧
        t.suffix.l.toNat = 255 - (s.acc.l.toNat + s.acc.h.toNat) % 255 ∧
        t.suffix.h.toNat = 255 - (s.acc.l.toNat + t.suffix.l.toNat) % 255 ∧
        t.acc = ⟨0xFF#8, 0xFF#8⟩ ∧ t.ckok = true ∧
        CommandFrame [.acc, .suffix] maskCkok s t ∧ ObufKept s t ∧ TableKept s t) ∧
    (s.sufRule = .literal → exec .ckSolveAcc s = .next { s with err := .mode, pend := none })

/-- R115: CK_CHECK (0x00000006) completes in every state and sets CKOK exactly when both accumulators are 0xFF. -/
def Obligations.CkCheckComparesWithAllOnes : Prop :=
  decode 0x00000006#32 = .ok .ckCheck ∧
  ∀ s : State, ∃ t, exec .ckCheck s = .next t ∧
    (t.ckok = true ↔ s.acc.l = 0xFF#8 ∧ s.acc.h = 0xFF#8) ∧
    CommandFrame [] maskCkok s t ∧ ObufKept s t ∧ TableKept s t

/-! Block serializer (41_block.md). -/

/-- R131 to R137: BLK_SER completes when both ranges lie in their buffers and the length field fits, and lays out the
block byte by byte from DST: header, length, sanity marker, payload XOR 0x90, suffix. The suffix is the solver's over
marker and transformed payload. Every other byte of OBUF, all of IBUF, the table and every other register are
unchanged. -/
def Obligations.BlkSerLaysOutTheBlock : Prop :=
  ∀ (s : State) (body : List Byte), body.length = s.len.toNat + 1 → body[0]? = some s.cfgSanity →
    (∀ i < s.len.toNat, body[i + 1]? = some (s.ibuf.read (s.src.toNat + i) ^^^ 0x90#8)) →
    s.src.toNat + s.len.toNat ≤ s.params.ibufSize → s.len.toNat + 3 ≤ 0xFFFFFF →
    s.dst.toNat + s.len.toNat + 22 ≤ s.params.obufSize →
    ∃ t, exec .blkSer s = .next t ∧
      (let out := fun k => t.obuf.read (s.dst.toNat + k)
       out 0 = s.cfgTag ∧ out 2 ++ out 1 = s.hdr.pilot ∧ out 4 ++ out 3 = s.hdr.sync0 ∧ out 6 ++ out 5 = s.hdr.sync1 ∧
       out 8 ++ out 7 = s.hdr.zero ∧ out 10 ++ out 9 = s.hdr.one ∧ out 12 ++ out 11 = s.hdr.pcount ∧
       out 13 = 0x08#8 ∧ out 15 ++ out 14 = s.hdr.pause ∧
       (out 16).toNat + 256 * (out 17).toNat + 65536 * (out 18).toNat = s.len.toNat + 3 ∧
       out 19 = s.cfgSanity ∧
       (∀ i < s.len.toNat, out (20 + i) = s.ibuf.read (s.src.toNat + i) ^^^ 0x90#8) ∧
       out (20 + s.len.toNat) = t.suffix.l ∧ out (21 + s.len.toNat) = t.suffix.h) ∧
      (s.sufRule = .contract → t.suffix = contractSuffix (engine body ⟨0#8, 0#8⟩)) ∧
      (s.sufRule = .literal → t.suffix = literalSuffix body) ∧
      t.outLen.toNat = s.len.toNat + 22 ∧ t.acc = ⟨0xFF#8, 0xFF#8⟩ ∧ t.ckok = true ∧
      CommandFrame [.acc, .suffix, .outLen] maskCkok s t ∧ ObufKeptOutside (s.len.toNat + 22) s t ∧ TableKept s t

/-- R139, which the spec derives, with R133: what a receiver checks in the output of a successful BLK_SER: under
CONTRACT the engine over the NB body bytes ends at the terminal value; under LITERAL the engine over marker and
payload, seeded with the two trailing bytes, does. -/
def Obligations.ReceiverAcceptsTheBlock : Prop :=
  ∀ s t : State, exec .blkSer s = .next t → t.err = .ok →
    (s.sufRule = .contract →
      engine (t.obuf.readRange (s.dst.toNat + 19) (s.len.toNat + 3)) ⟨0#8, 0#8⟩ = ⟨0xFF#8, 0xFF#8⟩) ∧
    (s.sufRule = .literal →
      engine (t.obuf.readRange (s.dst.toNat + 19) (s.len.toNat + 1))
        ⟨t.obuf.read (s.dst.toNat + 20 + s.len.toNat), t.obuf.read (s.dst.toNat + 21 + s.len.toNat)⟩ =
        ⟨0xFF#8, 0xFF#8⟩)

/-- R137, R242: BLK_SER's errors, the first that applies: RANGE on the input, LENGTH, RANGE on the output; nothing else
changes. -/
def Obligations.BlkSerErrorsInOrder : Prop :=
  ∀ s : State,
    (s.params.ibufSize < s.src.toNat + s.len.toNat → exec .blkSer s = .next { s with err := .range, pend := none }) ∧
    (s.src.toNat + s.len.toNat ≤ s.params.ibufSize → 0xFFFFFF < s.len.toNat + 3 →
      exec .blkSer s = .next { s with err := .length, pend := none }) ∧
    (s.src.toNat + s.len.toNat ≤ s.params.ibufSize → s.len.toNat + 3 ≤ 0xFFFFFF →
      s.params.obufSize < s.dst.toNat + s.len.toNat + 22 →
      exec .blkSer s = .next { s with err := .range, pend := none })

/-- R138, which the spec derives: BLK_SER is a function of its operands: two units that agree on the registers it
reads and on the input bytes write the same output bytes, whatever else differs, ACC included. -/
def Obligations.BlkSerDependsOnItsOperandsOnly : Prop :=
  ∀ s s' t t' : State, s.params = s'.params → s.src = s'.src → s.len = s'.len → s.dst = s'.dst → s.hdr = s'.hdr →
    s.cfgTag = s'.cfgTag → s.cfgSanity = s'.cfgSanity → s.sufRule = s'.sufRule →
    (∀ i < s.len.toNat, s.ibuf.read (s.src.toNat + i) = s'.ibuf.read (s.src.toNat + i)) →
    exec .blkSer s = .next t → exec .blkSer s' = .next t' →
    t.err = t'.err ∧ (t.err = .ok →
      (∀ k < s.len.toNat + 22, t.obuf.read (s.dst.toNat + k) = t'.obuf.read (s.dst.toNat + k)) ∧
      t.suffix = t'.suffix ∧ t.outLen = t'.outLen)

/-! The table (42_table.md). -/

/-- R172: TBL_CLEAR (0x00000020) completes in every state: the table is empty, COVOK is 0, nothing else changes. -/
def Obligations.TblClearEmptiesTheTable : Prop :=
  decode 0x00000020#32 = .ok .tblClear ∧
  ∀ s : State, ∃ t, exec .tblClear s = .next t ∧ t.tcount = 0 ∧ t.entries = [] ∧ t.covok = false ∧
    CommandFrame [.tcount] maskCovok s t ∧ ObufKept s t ∧ t.tbl = s.tbl

/-- R173, R150: TBL_APPEND (0x00000021) completes when the entry ENTRY holds is valid and the table is not full: it
is put after the entries there are, COVOK is cleared; SHAPE for an entry that is not valid, else CAPACITY for a full
table. -/
def Obligations.TblAppendAddsAValidEntry : Prop :=
  decode 0x00000021#32 = .ok .tblAppend ∧
  ∀ s : State, s.Inv →
    let a := s.entry.toNat % 65536
    let n := s.entry.toNat / 65536 % 32768
    let ok := 1 ≤ n ∧ n ≤ 32767 ∧ 0x4000 ≤ a ∧ a + n ≤ 0x5B00
    (ok → s.tcount.toNat ≠ s.params.tblCap →
      ∃ t e, exec .tblAppend s = .next t ∧ e.addr.toNat = a ∧ e.len.toNat = n ∧ e.cd = s.entry.getLsbD 31 ∧
        t.entries = s.entries ++ [e] ∧ t.tcount.toNat = s.tcount.toNat + 1 ∧ t.covok = false ∧
        CommandFrame [.tcount] maskCovok s t ∧ ObufKept s t) ∧
    (¬ ok → exec .tblAppend s = .next { s with err := .shape, pend := none }) ∧
    (ok → s.tcount.toNat = s.params.tblCap → exec .tblAppend s = .next { s with err := .capacity, pend := none })

/-- R177, R170: TBL_SPLIT, by its word, completes when TIDX is in the table, the entry there has `cd = 0` and a
length that CHUNK divides, and the table does not grow past its capacity: the entry is replaced in place by
consecutive sub-entries of CHUNK bytes with `cd = 0`; COVOK is cleared. SHAPE and CAPACITY otherwise, with nothing
changed. -/
def Obligations.TblSplitReplacesTheEntryInPlace : Prop :=
  (∀ c : BitVec 16, decode (0#8 ++ c ++ 0x22#8) = .ok (.tblSplit c.toNat)) ∧
  ∀ (s : State) (chunk : Nat), s.Inv →
    (s.tcount.toNat ≤ s.tidx.toNat → exec (.tblSplit chunk) s = .next { s with err := .shape, pend := none }) ∧
    ∀ e : Entry, s.entries[s.tidx.toNat]? = some e →
      (e.cd = true ∨ chunk = 0 ∨ e.len.toNat % chunk ≠ 0 →
        exec (.tblSplit chunk) s = .next { s with err := .shape, pend := none }) ∧
      (e.cd = false → chunk ≠ 0 → e.len.toNat % chunk = 0 →
        (s.params.tblCap < s.tcount.toNat - 1 + e.len.toNat / chunk →
          exec (.tblSplit chunk) s = .next { s with err := .capacity, pend := none }) ∧
        (s.tcount.toNat - 1 + e.len.toNat / chunk ≤ s.params.tblCap →
          ∃ t subs, exec (.tblSplit chunk) s = .next t ∧ subs.length = e.len.toNat / chunk ∧
            (∀ (k : Nat) (hk : k < subs.length), subs[k].addr.toNat = e.addr.toNat + k * chunk ∧
              subs[k].len.toNat = chunk ∧ subs[k].cd = false) ∧
            t.entries = s.entries.take s.tidx.toNat ++ subs ++ s.entries.drop (s.tidx.toNat + 1) ∧
            t.tcount.toNat = s.tcount.toNat - 1 + e.len.toNat / chunk ∧ t.covok = false ∧
            CommandFrame [.tcount] maskCovok s t ∧ ObufKept s t))

/-- R155 to R163, R174: TBL_SER (0x00000024) completes when the table is not empty and its bytes fit OBUF: the
strategy is the first of FIXED, COMPACT, FULL that applies to the entries as they are, each entry stands at its place
in that format, one zero byte ends the table; STRAT, FIXLEN, SHORTLEN, FIXDIR and OUTLEN report it; nothing else
changes. SHAPE for an empty table, else RANGE where the bytes do not fit. Where R174's corner case on `len = 128` and
R160 differ, R160 is followed (DEDUCED, assumption log 21). -/
def Obligations.TblSerWritesTheWireFormat : Prop :=
  decode 0x00000024#32 = .ok .tblSer ∧
  ∀ (s : State) (st : Strategy) (k : Nat), s.tcount.toNat ≤ s.tbl.length →
    (st = .fixed ∧ k = 2) ∨ (st = .compact ∧ k = 3) ∨ (st = .full ∧ k = 4) →
    (let fixed := s.noFixLen = false ∧ (∀ e ∈ s.entries, e.cd = false) ∧
        ∀ e ∈ s.entries, ∀ f ∈ s.entries, e.len = f.len
     let short := ∀ e ∈ s.entries, e.len.toNat ≤ 127
     (fixed → st = .fixed) ∧ (¬ fixed → short → st = .compact) ∧ (¬ fixed → ¬ short → st = .full)) →
    (s.tcount = 0 → exec .tblSer s = .next { s with err := .shape, pend := none }) ∧
    (s.tcount ≠ 0 → s.params.obufSize < s.dst.toNat + (k * s.tcount.toNat + 1) →
      exec .tblSer s = .next { s with err := .range, pend := none }) ∧
    (s.tcount ≠ 0 → s.dst.toNat + (k * s.tcount.toNat + 1) ≤ s.params.obufSize →
      ∃ t, exec .tblSer s = .next t ∧
        (let out := fun j => t.obuf.read (s.dst.toNat + j)
         (∀ (j : Nat) (e : Entry), s.entries[j]? = some e →
           out (k * j) ++ out (k * j + 1) = e.addr ∧
           (st = .compact → (out (k * j + 2)).toNat = (if e.cd then 128 else 0) + e.len.toNat) ∧
           (st = .full → (out (k * j + 2)).toNat * 256 + (out (k * j + 3)).toNat =
             (if e.cd then 32768 else 0) + e.len.toNat)) ∧
         out (k * s.tcount.toNat) = 0x00#8) ∧
        t.outLen.toNat = k * s.tcount.toNat + 1 ∧ t.strat = st ∧
        (st = .fixed → ∀ e, s.entries[0]? = some e → t.fixLen.toNat = e.len.toNat) ∧
        (st ≠ .fixed → t.fixLen = 0) ∧
        (t.shortLen = true ↔ ∀ e ∈ s.entries, e.len.toNat ≤ 127) ∧
        (t.fixDir = true ↔ ∀ e ∈ s.entries, e.cd = false) ∧
        CommandFrame [.outLen, .fixLen] maskReport s t ∧ ObufKeptOutside (k * s.tcount.toNat + 1) s t ∧
        TableKept s t)

/-- R175, R176: TBL_CHECK (0x00000025) completes and sets COVOK exactly when the spans of the table partition the
display region; nothing else changes. -/
def Obligations.TblCheckDecidesThePartition : Prop :=
  decode 0x00000025#32 = .ok .tblCheck ∧
  ∀ s : State, s.Inv → ∃ t, exec .tblCheck s = .next t ∧ (t.covok = true ↔ Partitions s.entries) ∧
    CommandFrame [] maskCovok s t ∧ ObufKept s t ∧ TableKept s t

/-- R171: TBL_READ (0x00000026) completes when TIDX is in the table and puts that entry into ENTRY; else SHAPE. -/
def Obligations.TblReadCopiesTheEntry : Prop :=
  decode 0x00000026#32 = .ok .tblRead ∧
  ∀ s : State, s.tcount.toNat ≤ s.tbl.length →
    (∀ e : Entry, s.entries[s.tidx.toNat]? = some e →
      ∃ t, exec .tblRead s = .next t ∧
        t.entry.toNat = (if e.cd then 2 ^ 31 else 0) + e.len.toNat * 2 ^ 16 + e.addr.toNat ∧
        CommandFrame [.entry] maskDone s t ∧ ObufKept s t ∧ TableKept s t) ∧
    (s.tidx.toNat < s.tcount.toNat → ∃ e, s.entries[s.tidx.toNat]? = some e) ∧
    (s.tcount.toNat ≤ s.tidx.toNat → exec .tblRead s = .next { s with err := .shape, pend := none })

/-- R165, which the spec derives: what a successful TBL_SER wrote parses back, with STRAT and FIXLEN, to the table's
entries in order. -/
def Obligations.SerializedTableParsesBack : Prop :=
  ∀ s t : State, s.Inv → exec .tblSer s = .next t → t.err = .ok →
    parseTable t.strat t.fixLen (t.obuf.readRange s.dst.toNat t.outLen.toNat) = some s.entries

/-- R153's consequence, which the spec derives, with R152: the reader of `DirFlags(seq)` meets the intended
directions, on the addresses and lengths of seq. -/
def Obligations.ReaderMeetsTheIntendedDirections : Prop :=
  ∀ ps : List Pass, readerDirs .fwd (dirFlags ps) = ps.map Pass.dir ∧
    ((∀ p ∈ ps, p.addr < 65536 ∧ p.len < 32768) →
      (dirFlags ps).map (fun e => (e.addr.toNat, e.len.toNat)) = ps.map (fun p => (p.addr, p.len)))

/-- R154 with R175: a table that partitions the region carries every byte of the image exactly once, and its reader
reproduces the image and writes nothing outside the region. -/
def Obligations.ReaderReproducesTheImage : Prop :=
  ∀ (image mem : Nat → Byte) (es : List Entry), Partitions es →
    (carriedAddrs .fwd es).Perm (List.range' dispBase dispSize) ∧
    (∀ a, dispBase ≤ a → a < dispEnd → reload mem es (carriedBytes image .fwd es) a = image a) ∧
    ∀ a, (a < dispBase ∨ dispEnd ≤ a) → reload mem es (carriedBytes image .fwd es) a = mem a

/-! The generators (43_generators.md). -/

/-- R190, R195 to R197: TBL_GEN.COMB with an admissible VAR and SZ completes when 48 entries fit: the table is the two
phases in the order VAR[0] says, the attribute rows in the order VAR[2:1] says (FWD, CONV, DIV), with the directions'
flags; COVOK is 1 and the table partitions the region. -/
def Obligations.TblGenCombBuildsTheTable : Prop :=
  ∀ (s : State) (var : BitVec 3) (rows : List Nat), 48 ≤ s.params.tblCap →
    (var.extractLsb' 1 2 = 0#2 ∧ rows = List.range 24) ∨
    (var.extractLsb' 1 2 = 1#2 ∧ rows = (List.range 12).flatMap fun j => [j, 23 - j]) ∨
    (var.extractLsb' 1 2 = 2#2 ∧ rows = (List.range 12).flatMap fun j => [11 - j, 12 + j]) →
    let pix : List Pass := (List.range 3).flatMap fun t => (List.range 4).flatMap fun j =>
      [⟨0x4000 + 2048 * t + 256 * j, 256, .fwd⟩, ⟨0x4000 + 2048 * t + 256 * (7 - j), 256, .bwd⟩]
    let att : List Pass := rows.map fun r => ⟨0x5800 + 32 * r, 32, .fwd⟩
    ∃ t, exec (.tblGenComb var 0) s = .next t ∧
      t.entries = dirFlags (if var.getLsbD 0 then att ++ pix else pix ++ att) ∧
      t.tcount = 48 ∧ t.covok = true ∧ Partitions t.entries ∧ (∀ e ∈ t.entries, e.valid = true) ∧
      CommandFrame [.tcount] maskCovok s t ∧ ObufKept s t

/-- R190, R191, R200 to R205: TBL_GEN.LINEAR with an admissible VAR and SZ completes when its entries fit: TD, BU, CONV,
DIV or SQUARE of side `n = 2^SZ`, whose half-streams list, square by square of one colour in raster order, the bitmap
bytes of the eight pixel lines and the attribute cells of each character row; the white one is reversed, and the two
alternate entry by entry. COVOK is 1 and the table partitions the region. -/
def Obligations.TblGenLinearBuildsTheTable : Prop :=
  ∀ (s : State) (var : BitVec 3) (sz count : Nat) (table : List Entry),
    let n := 2 ^ sz
    let stream : Nat → List Nat := fun parity => (List.range (24 / n)).flatMap fun R =>
      ((List.range (32 / n)).filter fun J => (R + J) % 2 == parity).flatMap fun J =>
        (List.range n).flatMap fun i =>
          ((List.range 8).map fun k =>
            0x4000 + 2048 * ((R * n + i) / 8) + 256 * k + 32 * ((R * n + i) % 8) + J * n) ++
          [0x5800 + 32 * (R * n + i) + J * n]
    (var = 0#3 ∧ sz = 0 ∧ count = 1 ∧ table = [⟨0x4000#16, 6912#15, false⟩]) ∨
    (var = 1#3 ∧ sz = 0 ∧ count = 1 ∧ table = [⟨0x4000#16, 6912#15, true⟩]) ∨
    (var = 2#3 ∧ sz = 0 ∧ count = 216 ∧ table = dirFlags ((List.range 108).flatMap fun j =>
      [⟨0x4000 + 32 * j, 32, .fwd⟩, ⟨0x4000 + 32 * (215 - j), 32, .bwd⟩])) ∨
    (var = 3#3 ∧ sz = 0 ∧ count = 216 ∧ table = dirFlags ((List.range 108).flatMap fun j =>
      [⟨0x4000 + 32 * (107 - j), 32, .bwd⟩, ⟨0x4000 + 32 * (108 + j), 32, .fwd⟩])) ∨
    (var = 4#3 ∧ sz ≤ 3 ∧ count = 6912 / n ∧
      table = dirFlags (((stream 0).zip (stream 1).reverse).flatMap fun x => [⟨x.1, n, .fwd⟩, ⟨x.2, n, .bwd⟩])) →
    count ≤ s.params.tblCap →
    ∃ t, exec (.tblGenLinear var sz) s = .next t ∧ t.entries = table ∧ t.tcount.toNat = count ∧ t.covok = true ∧
      Partitions t.entries ∧ (∀ e ∈ t.entries, e.valid = true) ∧ CommandFrame [.tcount] maskCovok s t ∧ ObufKept s t

/-- R190, R210 to R212: TBL_GEN.ATTRSQ with VAR = 0 completes when its 3 + 768/k entries fit, k = 2^SZ: three thirds,
the black chunks of k cells in raster order, the white ones in reverse raster order, every entry forward; COVOK is 1 and
the table partitions the region. -/
def Obligations.TblGenAttrSqBuildsTheTable : Prop :=
  ∀ (s : State) (sz : Nat), sz ≤ 3 → 3 + 768 / 2 ^ sz ≤ s.params.tblCap →
    let k := 2 ^ sz
    let thirds : List Pass := [⟨0x4000, 2048, .fwd⟩, ⟨0x4800, 2048, .fwd⟩, ⟨0x5000, 2048, .fwd⟩]
    let chunks : Nat → List Pass := fun parity => (List.range 24).flatMap fun r =>
      ((List.range (32 / k)).filter fun J => (r + J) % 2 == parity).map fun J => ⟨0x5800 + 32 * r + J * k, k, .fwd⟩
    ∃ t, exec (.tblGenAttrSq 0#3 sz) s = .next t ∧
      t.entries = dirFlags (thirds ++ chunks 0 ++ (chunks 1).reverse) ∧ (∀ e ∈ t.entries, e.cd = false) ∧
      t.tcount.toNat = 3 + 768 / k ∧ t.covok = true ∧
      Partitions t.entries ∧ (∀ e ∈ t.entries, e.valid = true) ∧ CommandFrame [.tcount] maskCovok s t ∧ ObufKept s t

/-- R193: of the words with OPC 0x23, bits 31:15 clear and FAM ≤ 2, the 18 listed succeed on an instance that holds
6912 entries; every other one raises CONFIG and changes nothing else, on every instance, so before any CAPACITY (R242).
-/
def Obligations.ExactlyEighteenGeneratorWordsSucceed : Prop :=
  ∀ (s : State) (es : List Event) (w : Word), w.toNat % 256 = 0x23 → w.toNat < 2 ^ 15 → w.toNat / 256 % 4 ≤ 2 →
    s.fault = false →
    (6912 ≤ s.params.tblCap →
      w.toNat ∈ [0x23, 0x423, 0x823, 0xC23, 0x1023, 0x1423, 0x123, 0x523, 0x923, 0xD23, 0x1123, 0x3123, 0x5123, 0x7123,
      0x223, 0x2223, 0x4223, 0x6223] →
      ∃ t, step { s with pend := some w, events := .engine :: es } = .next t ∧ t.err = .ok ∧ t.covok = true) ∧
    (w.toNat ∉ [0x23, 0x423, 0x823, 0xC23, 0x1023, 0x1423, 0x123, 0x523, 0x923, 0xD23, 0x1123, 0x3123, 0x5123, 0x7123,
      0x223, 0x2223, 0x4223, 0x6223] →
      step { s with pend := some w, events := .engine :: es } =
        .next { s with pend := none, events := es, err := .config })

/-- R190: TBL_GEN whose entries do not fit raises CAPACITY and keeps the old table. -/
def Obligations.GeneratorsKeepTheOldTableOnCapacity : Prop :=
  ∀ (s : State) (var : BitVec 3) (sz : Nat) (g : Gen),
    (admitComb var sz = some g → s.params.tblCap < g.table.length →
      exec (.tblGenComb var sz) s = .next { s with err := .capacity, pend := none }) ∧
    (admitLinear var sz = some g → s.params.tblCap < g.table.length →
      exec (.tblGenLinear var sz) s = .next { s with err := .capacity, pend := none }) ∧
    (admitAttrSq var sz = some g → s.params.tblCap < g.table.length →
      exec (.tblGenAttrSq var sz) s = .next { s with err := .capacity, pend := none })

/-- R213, which the spec derives: entry counts, strategies, serialized sizes and common lengths of the generators,
NOFIXLEN = 0. -/
def Obligations.GeneratorSizes : Prop :=
  (∀ (b : Bool) (o : AttOrder), (Gen.comb b o).table.length = 48 ∧ strategyOf (Gen.comb b o).table false = .full ∧
    (tableBytes .full (Gen.comb b o).table).length = 193) ∧
  (strategyOf Gen.td.table false = .fixed ∧ (tableBytes .fixed Gen.td.table).length = 3 ∧
    Gen.td.table.map (fun e => e.len.toNat) = [6912]) ∧
  (Gen.bu.table.length = 1 ∧ strategyOf Gen.bu.table false = .full ∧ (tableBytes .full Gen.bu.table).length = 5) ∧
  (∀ g ∈ [Gen.conv, Gen.div], g.table.length = 216 ∧ strategyOf g.table false = .compact ∧
    (tableBytes .compact g.table).length = 649) ∧
  (∀ x ∈ [(0, 6912, 20737), (1, 3456, 10369), (2, 1728, 5185), (3, 864, 2593)],
    (Gen.square x.1).table.length = x.2.1 ∧ strategyOf (Gen.square x.1).table false = .compact ∧
    (tableBytes .compact (Gen.square x.1).table).length = x.2.2) ∧
  ∀ x ∈ [(0, 771, 3085), (1, 387, 1549), (2, 195, 781), (3, 99, 397)],
    (Gen.attrSq x.1).table.length = x.2.1 ∧ strategyOf (Gen.attrSq x.1).table false = .full ∧
    (tableBytes .full (Gen.attrSq x.1).table).length = x.2.2

/-! Host statements (30_encoding.md R92; 70_reset_and_hazards.md R273, R274). -/

/-- R92, R273, R274 (the spec derives R274; the trace form is the model's, assumption log 18): `RUN c` on an idle
unit, with any number of polls before the engine step, runs the command once, on the operands the unit held, and ends
with BUSY = 0 and a poll that read it so. -/
def Obligations.RunExecutesTheCommandOnce : Prop :=
  ∀ (s u : State) (c : AsmCmd) (polls : Nat), s.pend = none → s.fault = false →
    exec c.instr { s with pend := some (encode c.instr), overrunHeld := s.overrun, events := [], resp := none } =
      .next u →
    ∃ rsp, runSteps (polls + 3) (s.withProgram [.run c polls]) =
        .next { u with resp := some ⟨false, rsp⟩ } ∧ rsp.getLsbD 0 = false ∧ u.pend = none
end

