-- ==== Sys2Proof/Laws/Checksum.lean ====
section
/-! SUPPORT. The checksum engine modulo 255, when an accumulator is zero, and that both suffix rules force the terminal
value (40_checksum.md R101 to R107). -/

namespace Sys2Proof.Machine

theorem ocAdd_toNat (a b : Byte) :
    (ocAdd a b).toNat = if a.toNat + b.toNat < 256 then a.toNat + b.toNat else a.toNat + b.toNat - 255 := by
  have ha := a.isLt
  have hb := b.isLt
  simp only [ocAdd, BitVec.toNat_ofNat]
  split <;> omega

/-- `(a ⊕ b) mod 255 = (a + b) mod 255` (00_scope.md R10). -/
theorem ocAdd_mod (a b : Byte) : (ocAdd a b).toNat % 255 = (a.toNat + b.toNat) % 255 := by
  rw [ocAdd_toNat]; split <;> omega

/-- `a ⊕ b = 0` only for `a = b = 0` (00_scope.md R10). -/
theorem ocAdd_eq_zero (a b : Byte) : (ocAdd a b).toNat = 0 ↔ a.toNat = 0 ∧ b.toNat = 0 := by
  have ha := a.isLt
  have hb := b.isLt
  rw [ocAdd_toNat]; split <;> omega

/-- A byte that is 0 mod 255 and not 0 is 0xFF (40_checksum.md R103). -/
theorem eq_ff_of_mod (a : Byte) (h0 : a.toNat ≠ 0) (hm : a.toNat % 255 = 0) : a = 0xFF#8 := by
  have ha := a.isLt
  apply BitVec.eq_of_toNat_eq
  simp; omega

@[simp] theorem engine_nil (p : BytePair) : engine [] p = p := rfl
@[simp] theorem engine_cons (b : Byte) (d : List Byte) (p : BytePair) : engine (b :: d) p = engine d (ckStep p b) := rfl

/-- `Engine(D ++ E, s) = Engine(E, Engine(D, s))` (40_checksum.md R102). -/
theorem engine_append (d e : List Byte) (p : BytePair) : engine (d ++ e) p = engine e (engine d p) := by
  simp [engine, List.foldl_append]

@[simp] theorem ckStep_l (p : BytePair) (b : Byte) : (ckStep p b).l = ocAdd p.l b := rfl
@[simp] theorem ckStep_h (p : BytePair) (b : Byte) : (ckStep p b).h = ocAdd p.h (ocAdd p.l b) := rfl

/-- The bytes added up. -/
def byteSum (d : List Byte) : Nat := ∑ i : Fin d.length, (d[i]).toNat

/-- The bytes weighted `n - i` and added up (40_checksum.md R103). -/
def weightedSum (d : List Byte) : Nat := ∑ i : Fin d.length, (d.length - i.val) * (d[i]).toNat

theorem byteSum_cons (b : Byte) (d : List Byte) : byteSum (b :: d) = b.toNat + byteSum d := by
  simp [byteSum, Fin.sum_univ_succ]

theorem weightedSum_cons (b : Byte) (d : List Byte) :
    weightedSum (b :: d) = (d.length + 1) * b.toNat + weightedSum d := by
  simp [weightedSum, Fin.sum_univ_succ]

/-- The low accumulator modulo 255 (40_checksum.md R103). -/
theorem engine_l_mod (d : List Byte) (p : BytePair) :
    (engine d p).l.toNat % 255 = (p.l.toNat + byteSum d) % 255 := by
  induction d generalizing p with
  | nil => simp [byteSum]
  | cons b d ih =>
    have h := ocAdd_mod p.l b
    rw [engine_cons, ih, byteSum_cons, ckStep_l]; omega

/-- The high accumulator modulo 255 (40_checksum.md R103). -/
theorem engine_h_mod (d : List Byte) (p : BytePair) :
    (engine d p).h.toNat % 255 = (p.h.toNat + d.length * p.l.toNat + weightedSum d) % 255 := by
  induction d generalizing p with
  | nil => simp [weightedSum]
  | cons b d ih =>
    have hl := ocAdd_mod p.l b
    have hh := ocAdd_mod p.h (ocAdd p.l b)
    have hm : d.length * (ocAdd p.l b).toNat % 255 = d.length * (p.l.toNat + b.toNat) % 255 := by
      rw [Nat.mul_mod, hl, ← Nat.mul_mod]
    rw [engine_cons, ih, weightedSum_cons, ckStep_l, ckStep_h, List.length_cons]
    rw [Nat.mul_add] at hm
    rw [Nat.succ_mul, Nat.succ_mul]
    omega

/-- `L = 0` exactly when the seed's L and every byte are 0 (40_checksum.md R103). -/
theorem engine_l_eq_zero (d : List Byte) (p : BytePair) :
    (engine d p).l.toNat = 0 ↔ p.l.toNat = 0 ∧ ∀ b ∈ d, b.toNat = 0 := by
  induction d generalizing p with
  | nil => simp
  | cons b d ih => rw [engine_cons, ih, ckStep_l, ocAdd_eq_zero]; simp [and_assoc]

/-- Once the last L is not 0, H is not 0. -/
theorem engine_h_ne_zero (d : List Byte) (p : BytePair) (hd : d ≠ []) (h : (engine d p).l.toNat ≠ 0) :
    (engine d p).h.toNat ≠ 0 := by
  obtain ⟨d', b, rfl⟩ := (List.eq_nil_or_concat d).resolve_left hd
  rw [List.concat_eq_append, engine_append, engine_cons, engine_nil] at *
  rw [ckStep_l] at h
  rw [ckStep_h, ne_eq, ocAdd_eq_zero]
  exact fun hz => h hz.2

theorem BytePair.ext_toNat {p q : BytePair} (hl : p.l.toNat = q.l.toNat) (hh : p.h.toNat = q.h.toNat) : p = q := by
  obtain ⟨pl, ph⟩ := p
  obtain ⟨ql, qh⟩ := q
  simp only [BytePair.mk.injEq]
  exact ⟨BitVec.eq_of_toNat_eq hl, BitVec.eq_of_toNat_eq hh⟩

/-- `x` of R104 as a number, in 1..255. -/
theorem contractSuffix_l (p : BytePair) :
    (contractSuffix p).l.toNat = 255 - (p.l.toNat + p.h.toNat) % 255 := by
  simp only [contractSuffix, BitVec.toNat_ofNat]; omega

/-- `y` of R104 as a number, in 1..255. -/
theorem contractSuffix_h (p : BytePair) :
    (contractSuffix p).h.toNat = 255 - (p.l.toNat + (contractSuffix p).l.toNat) % 255 := by
  rw [contractSuffix_l]; simp only [contractSuffix, BitVec.toNat_ofNat]; omega

/-- The CONTRACT suffix forces the terminal value from every state (40_checksum.md R105). -/
theorem engine_contractSuffix (p : BytePair) :
    engine [(contractSuffix p).l, (contractSuffix p).h] p = terminal := by
  have hx := contractSuffix_l p
  have hy := contractSuffix_h p
  generalize (contractSuffix p).l = x at *
  generalize (contractSuffix p).h = y at *
  have m1 := ocAdd_mod p.l x
  have z1 := ocAdd_eq_zero p.l x
  have m2 := ocAdd_mod p.h (ocAdd p.l x)
  have z2 := ocAdd_eq_zero p.h (ocAdd p.l x)
  have m3 := ocAdd_mod (ocAdd p.l x) y
  have z3 := ocAdd_eq_zero (ocAdd p.l x) y
  have hH : ocAdd p.h (ocAdd p.l x) = 0xFF#8 := eq_ff_of_mod _ (by omega) (by omega)
  have hL : ocAdd (ocAdd p.l x) y = 0xFF#8 := eq_ff_of_mod _ (by omega) (by omega)
  simp only [engine_cons, engine_nil, ckStep, hH, hL, terminal]
  decide

/-- The LITERAL suffix, as a seed, forces the terminal value (40_checksum.md R107). -/
theorem engine_literalSuffix (d : List Byte) : engine d (literalSuffix d) = terminal := by
  set l := (engine d zeroPair).l with hl
  set startL : Byte := BitVec.ofNat 8 (255 - l.toNat) with hs
  set h2 := (engine d ⟨startL, 0x00#8⟩).h with hh2
  have hlit : literalSuffix d = ⟨startL, BitVec.ofNat 8 (255 - h2.toNat)⟩ := rfl
  have hsN : startL.toNat = 255 - l.toNat := by have := l.isLt; simp [hs]; omega
  have ml := engine_l_mod d zeroPair
  have ml' := engine_l_mod d (literalSuffix d)
  have mh := engine_h_mod d ⟨startL, 0x00#8⟩
  have mh' := engine_h_mod d (literalSuffix d)
  have zl := engine_l_eq_zero d zeroPair
  have zl' := engine_l_eq_zero d (literalSuffix d)
  have hH := h2.isLt
  have hsH : (literalSuffix d).h.toNat = 255 - h2.toNat := by rw [hlit]; simp; omega
  have hsL : (literalSuffix d).l.toNat = 255 - l.toNat := by rw [hlit]; exact hsN
  rw [← hl] at ml zl
  rw [← hh2] at mh
  have z0 : zeroPair.l.toNat = 0 := rfl
  have hlt := l.isLt
  have hLne : (engine d (literalSuffix d)).l.toNat ≠ 0 := by
    intro h
    obtain ⟨h1, h3⟩ := zl'.1 h
    have := zl.2 ⟨z0, h3⟩
    omega
  have hL : (engine d (literalSuffix d)).l = 0xFF#8 := eq_ff_of_mod _ hLne (by omega)
  have hHne : (engine d (literalSuffix d)).h.toNat ≠ 0 := by
    by_cases hd : d = []
    · subst hd; decide
    · exact engine_h_ne_zero d _ hd hLne
  have hHm : (engine d (literalSuffix d)).h = 0xFF#8 := by
    refine eq_ff_of_mod _ hHne ?_
    rw [mh', hsL, hsH]
    simp only [hsN] at mh
    simp at mh
    omega
  exact BytePair.ext_toNat (by rw [hL]; rfl) (by rw [hHm]; rfl)

/-- The solver's assertion never fails (40_checksum.md R108). -/
theorem solve_contract (d : List Byte) :
    solve d .contract = some (contractSuffix (engine d zeroPair), terminal) := by
  simp [solve, engine_contractSuffix, -engine_cons]

theorem solve_literal (d : List Byte) : solve d .literal = some (literalSuffix d, terminal) := by
  simp [solve, engine_literalSuffix]

/-- The suffix of a data string under a rule (40_checksum.md R104, R106). -/
def suffixOf (d : List Byte) : SufRule → BytePair
  | .contract => contractSuffix (engine d zeroPair)
  | .literal => literalSuffix d

theorem solve_eq (d : List Byte) (r : SufRule) : solve d r = some (suffixOf d r, terminal) := by
  cases r
  · exact solve_contract d
  · exact solve_literal d

end Sys2Proof.Machine
end

