-- ==== Sys2Proof/Laws/Coverage.lean ====
section
/-! SUPPORT. The coverage test of TBL_CHECK and TBL_GEN is the partition of the display region (42_table.md R175). -/

namespace Sys2Proof.Machine

/-- The order of addresses. -/
def AddrSorted (es : List Entry) : Prop := es.Pairwise (fun e f => e.addr.toNat ≤ f.addr.toNat)

theorem filter_split_perm (es : List Entry) (m : Nat) :
    (es.filter (fun e => e.addr.toNat < m) ++ es.filter (fun e => m ≤ e.addr.toNat)).Perm es := by
  have h := List.filter_append_perm (fun e : Entry => decide (e.addr.toNat < m)) es
  have he : (fun e : Entry => !decide (e.addr.toNat < m)) = fun e => decide (m ≤ e.addr.toNat) := by
    funext e; simp only [← decide_not, Nat.not_lt]
  rwa [he] at h

/-- Sorting keeps the entries and puts them in the order of their addresses. -/
theorem sortByAddr_spec (depth lo : Nat) (es : List Entry)
    (h : ∀ e ∈ es, lo ≤ e.addr.toNat ∧ e.addr.toNat < lo + 2 ^ depth) :
    (sortByAddr depth lo es).Perm es ∧ AddrSorted (sortByAddr depth lo es) := by
  induction depth generalizing lo es with
  | zero =>
    cases es with
    | nil => simp [sortByAddr, AddrSorted]
    | cons e es =>
      refine ⟨by simp [sortByAddr], ?_⟩
      simp only [sortByAddr, AddrSorted]
      refine List.Pairwise.imp_of_mem (R := fun _ _ => True) ?_ (List.pairwise_of_forall (fun _ _ => trivial))
      intro a b ha hb _
      have := h a ha
      have := h b hb
      simp at *; omega
  | succ depth ih =>
    cases es with
    | nil => simp [sortByAddr, AddrSorted]
    | cons e es =>
      rw [sortByAddr]
      swap
      · simp
      generalize e :: es = l at *
      obtain ⟨p1, s1⟩ := ih lo (l.filter (fun e => e.addr.toNat < lo + 2 ^ depth)) (by
        intro f hf
        simp only [List.mem_filter, decide_eq_true_eq] at hf
        exact ⟨(h f hf.1).1, hf.2⟩)
      obtain ⟨p2, s2⟩ := ih (lo + 2 ^ depth) (l.filter (fun e => lo + 2 ^ depth ≤ e.addr.toNat)) (by
        intro f hf
        simp only [List.mem_filter, decide_eq_true_eq] at hf
        have := (h f hf.1).2
        rw [Nat.pow_succ] at this
        exact ⟨hf.2, by omega⟩)
      refine ⟨(p1.append p2).trans (filter_split_perm l _), ?_⟩
      refine List.pairwise_append.2 ⟨s1, s2, ?_⟩
      intro f hf g hg
      have hf' := p1.mem_iff.1 hf
      have hg' := p2.mem_iff.1 hg
      simp only [List.mem_filter, decide_eq_true_eq] at hf' hg'
      omega

theorem holds_iff (e : Entry) (a : Nat) : e.holds a = true ↔ e.addr.toNat ≤ a ∧ a < e.stop := by simp [Entry.holds]

/-- `chained` on entries in the order of their addresses: from `at_` on, each address lies in one span. -/
theorem chained_iff (es : List Entry) (at_ : Nat) (hs : AddrSorted es) (hl : ∀ e ∈ es, 1 ≤ e.len.toNat) :
    chained at_ es = true ↔
      at_ ≤ dispEnd ∧ (∀ a, at_ ≤ a → a < dispEnd → es.countP (fun e => e.holds a) = 1) ∧
      ∀ e ∈ es, at_ ≤ e.addr.toNat ∧ e.stop ≤ dispEnd := by
  induction es generalizing at_ with
  | nil =>
    simp only [chained, beq_iff_eq, List.countP_nil, List.not_mem_nil, false_implies, implies_true, and_true]
    refine ⟨fun h => ⟨h.le, fun a h1 h2 => by omega⟩, fun ⟨h1, h2⟩ => ?_⟩
    by_contra hne
    have := h2 at_ le_rfl (by omega)
    omega
  | cons e es ih =>
    obtain ⟨hse, hss⟩ := List.pairwise_cons.1 hs
    have hle := hl e (by simp)
    have hle' : ∀ f ∈ es, 1 ≤ f.len.toNat := fun f hf => hl f (by simp [hf])
    have hstop : e.stop = e.addr.toNat + e.len.toNat := rfl
    simp only [chained, Bool.and_eq_true, beq_iff_eq, ih e.stop hss hle']
    constructor
    · rintro ⟨h1, h2, h3, h4⟩
      refine ⟨by omega, ?_, ?_⟩
      · intro a ha ha'
        rw [List.countP_cons]
        by_cases hb : a < e.stop
        · have h0 : es.countP (fun f => f.holds a) = 0 := by
            rw [List.countP_eq_zero]
            intro f hf
            have := h4 f hf
            rw [holds_iff]; omega
          rw [h0, if_pos (by rw [holds_iff]; omega)]
        · rw [h3 a (by omega) ha', if_neg (by rw [holds_iff]; omega)]
      · intro f hf
        rcases List.mem_cons.1 hf with rfl | hf
        · omega
        · have := h4 f hf
          omega
    · rintro ⟨h1, h2, h3⟩
      obtain ⟨he1, he2⟩ := h3 e (by simp)
      have hat : e.addr.toNat = at_ := by
        have hc := h2 at_ le_rfl (by omega)
        have hpos : 0 < (e :: es).countP (fun f => f.holds at_) := by omega
        obtain ⟨f, hf, hh⟩ := List.countP_pos_iff.1 hpos
        rw [holds_iff] at hh
        rcases List.mem_cons.1 hf with rfl | hf
        · omega
        · have := hse f hf
          omega
      have hdisj : ∀ f ∈ es, e.stop ≤ f.addr.toNat := by
        intro f hf
        by_contra hlt
        have hf' := h3 f (by simp [hf])
        have hfl := hle' f hf
        have hfs : f.stop = f.addr.toNat + f.len.toNat := rfl
        have hc := h2 f.addr.toNat hf'.1 (by omega)
        rw [List.countP_cons, if_pos (by rw [holds_iff]; omega)] at hc
        have hpos : 0 < es.countP (fun g => g.holds f.addr.toNat) :=
          List.countP_pos_iff.2 ⟨f, hf, by rw [holds_iff]; omega⟩
        omega
      refine ⟨hat, he2, ?_, ?_⟩
      · intro a ha ha'
        have hc := h2 a (by omega) ha'
        rw [List.countP_cons, if_neg (by rw [holds_iff]; omega)] at hc
        omega
      · intro f hf
        exact ⟨hdisj f hf, (h3 f (by simp [hf])).2⟩

/-- The coverage test answers true exactly for a partition of the display region (42_table.md R175). -/
theorem covers_iff_partitions (es : List Entry) (hl : ∀ e ∈ es, 1 ≤ e.len.toNat) :
    covers es = true ↔ Partitions es := by
  obtain ⟨hp, hs⟩ := sortByAddr_spec 16 0 es (fun e _ => ⟨by omega, by simpa using e.addr.isLt⟩)
  unfold covers
  rw [chained_iff _ _ hs (fun e he => hl e (hp.mem_iff.1 he))]
  unfold Partitions
  constructor
  · rintro ⟨_, h2, h3⟩
    exact ⟨fun a ha ha' => by rw [← hp.countP_eq]; exact h2 a ha ha', fun e he => h3 e (hp.mem_iff.2 he)⟩
  · rintro ⟨h2, h3⟩
    exact ⟨by decide, fun a ha ha' => by rw [hp.countP_eq]; exact h2 a ha ha', fun e he => h3 e (hp.mem_iff.1 he)⟩

theorem valid_iff (e : Entry) :
    e.valid = true ↔ 1 ≤ e.len.toNat ∧ e.len.toNat ≤ 32767 ∧ dispBase ≤ e.addr.toNat ∧ e.stop ≤ dispEnd := by
  simp [Entry.valid, and_assoc]

end Sys2Proof.Machine
end

