-- ==== Sys2Proof/Laws/Encoding.lean ====
section
/-! SUPPORT. The fields of an encoded word: every format's word gives back its opcode, its operands, and zero in its
fixed bits. -/

namespace Sys2Proof

theorem field_eq_ofNat (w : Word) (lo n : Nat) : field w lo n = BitVec.ofNat n (w.toNat / 2 ^ lo) := by
  simp [field, BitVec.extractLsb', Nat.shiftRight_eq_div_pow]

theorem toNat_cat2 {m n : Nat} (a : BitVec m) (b : BitVec n) : (a ++ b).toNat = a.toNat * 2 ^ n + b.toNat := by
  rw [BitVec.toNat_append, Nat.shiftLeft_eq, Nat.mul_comm, Nat.two_pow_add_eq_or_of_lt b.isLt]

/-- The number a format S word is (30_encoding.md R83). -/
theorem toNat_formatS (h l o : Byte) :
    (0#8 ++ h ++ l ++ o : BitVec 32).toNat = h.toNat * 2 ^ 16 + l.toNat * 2 ^ 8 + o.toNat := by
  simp only [toNat_cat2, BitVec.toNat_ofNat]; omega

/-- The number a format B word is (30_encoding.md R82). -/
theorem toNat_formatB (b o : Byte) : (0#16 ++ b ++ o : BitVec 32).toNat = b.toNat * 2 ^ 8 + o.toNat := by
  simp only [toNat_cat2, BitVec.toNat_ofNat]; omega

/-- The number a format K word is (30_encoding.md R84). -/
theorem toNat_formatK (c : Nat) (o : Byte) :
    (0#8 ++ BitVec.ofNat 16 c ++ o : BitVec 32).toNat = c % 65536 * 2 ^ 8 + o.toNat := by
  simp only [toNat_cat2, BitVec.toNat_ofNat]; omega

/-- The number a format G word is (30_encoding.md R85). -/
theorem toNat_wordG (fam : BitVec 2) (var : BitVec 3) (sz : Nat) :
    (wordG fam var sz).toNat = sz % 4 * 2 ^ 13 + var.toNat * 2 ^ 10 + fam.toNat * 2 ^ 8 + 0x23 := by
  simp only [wordG, toNat_cat2, BitVec.toNat_ofNat]; omega

/-- A field is the bit vector `v` when the word's number has `v` at that place. -/
theorem field_eq (w : Word) (lo n : Nat) (v : BitVec n) (h : w.toNat / 2 ^ lo % 2 ^ n = v.toNat) : field w lo n = v := by
  rw [field_eq_ofNat]; apply BitVec.eq_of_toNat_eq; simpa using h

theorem field_toNat (w : Word) (lo n : Nat) : (field w lo n).toNat = w.toNat / 2 ^ lo % 2 ^ n := by
  rw [field_eq_ofNat, BitVec.toNat_ofNat]

end Sys2Proof
end

