-- ==== Sys2Proof/Laws/Generators.lean ====
section
/-! SUPPORT. Every generator's table partitions the display region with valid entries (43_generators.md R214). The
region is a number with one bit per address: each span's bits are added, and none may be there already. -/

namespace Sys2Proof.Machine

/-- One bit per address of the entry's span. -/
def spanMask (e : Entry) : Nat := (2 ^ e.len.toNat - 1) <<< e.addr.toNat

/-- The spans added to the addresses already taken; none where a span is empty or overlaps. -/
def fillMask : Nat → List Entry → Option Nat
  | m, [] => some m
  | m, e :: es => if e.len = 0 then none else if m &&& spanMask e = 0 then fillMask (m ||| spanMask e) es else none

/-- The spans are not empty, do not overlap, and fill the display region. -/
def tiles (es : List Entry) : Bool := fillMask 0 es == some ((2 ^ dispSize - 1) <<< dispBase)

theorem testBit_spanMask (e : Entry) (a : Nat) : (spanMask e).testBit a = e.holds a := by
  unfold spanMask
  rw [Nat.testBit_shiftLeft, Nat.testBit_two_pow_sub_one, Bool.eq_iff_iff, holds_iff]
  simp only [ge_iff_le, Bool.and_eq_true, decide_eq_true_eq, Entry.stop]
  omega

/-- What filling says of each address: it was free, and is taken once. -/
theorem fillMask_spec (es : List Entry) (m m' : Nat) (h : fillMask m es = some m') :
    (∀ e ∈ es, 1 ≤ e.len.toNat) ∧
    ∀ a, (if m.testBit a then 1 else 0) + es.countP (fun e => e.holds a) = if m'.testBit a then 1 else 0 := by
  induction es generalizing m with
  | nil => simp [fillMask] at h; simp [h]
  | cons e es ih =>
    simp only [fillMask] at h
    split at h
    · cases h
    · rename_i hlen
      split at h
      · rename_i hand
        obtain ⟨h1, h2⟩ := ih _ h
        have hl : 1 ≤ e.len.toNat := by
          by_contra hz
          exact hlen (BitVec.eq_of_toNat_eq (by simp; omega))
        refine ⟨fun f hf => ?_, fun a => ?_⟩
        · rcases List.mem_cons.1 hf with rfl | hf
          · exact hl
          · exact h1 f hf
        · have hb : (m &&& spanMask e).testBit a = false := by rw [hand]; simp
          have h3 := h2 a
          rw [Nat.testBit_and, testBit_spanMask] at hb
          rw [Nat.testBit_or, testBit_spanMask] at h3
          rw [List.countP_cons, ← h3]
          cases hm : m.testBit a <;> cases he : e.holds a <;> (simp_all; try omega)
      · cases h

/-- Tiling is a partition with valid entries. -/
theorem tiles_spec (es : List Entry) (h : tiles es = true) : Partitions es ∧ ∀ e ∈ es, e.valid = true := by
  have hf : fillMask 0 es = some ((2 ^ dispSize - 1) <<< dispBase) := by simpa [tiles] using h
  obtain ⟨hl, hc⟩ := fillMask_spec _ _ _ hf
  have hbit : ∀ a, ((2 ^ dispSize - 1) <<< dispBase).testBit a = decide (dispBase ≤ a ∧ a < dispEnd) := by
    intro a
    rw [Nat.testBit_shiftLeft, Nat.testBit_two_pow_sub_one, Bool.eq_iff_iff]
    simp only [ge_iff_le, Bool.and_eq_true, decide_eq_true_eq]
    have : dispEnd = dispBase + dispSize := rfl
    omega
  have hin : ∀ e ∈ es, ∀ a, e.holds a = true → dispBase ≤ a ∧ a < dispEnd := by
    intro e he a ha
    have hpos : 0 < es.countP (fun e => e.holds a) := List.countP_pos_iff.2 ⟨e, he, ha⟩
    have := hc a
    rw [hbit] at this
    by_contra hn
    simp [hn] at this
    simp [this e he] at ha
  have hbounds : ∀ e ∈ es, dispBase ≤ e.addr.toNat ∧ e.stop ≤ dispEnd := by
    intro e he
    have h1 := hl e he
    have hs : e.stop = e.addr.toNat + e.len.toNat := rfl
    have := hin e he e.addr.toNat (by rw [holds_iff]; omega)
    have := hin e he (e.stop - 1) (by rw [holds_iff]; omega)
    omega
  refine ⟨⟨fun a ha ha' => ?_, hbounds⟩, fun e he => ?_⟩
  · have := hc a
    rw [hbit] at this
    simpa [ha, ha'] using this
  · have h1 := hl e he
    have h2 := hbounds e he
    have h3 := e.len.isLt
    rw [valid_iff]; omega

/-- The generators of 43_generators.md R193. -/
def Gen.admitted : List Gen :=
  [.comb false .fwd, .comb true .fwd, .comb false .conv, .comb true .conv, .comb false .div, .comb true .div,
   .td, .bu, .conv, .div, .square 0, .square 1, .square 2, .square 3, .attrSq 0, .attrSq 1, .attrSq 2, .attrSq 3]

theorem tiles_comb (b : Bool) (o : AttOrder) : tiles (Gen.comb b o).table = true := by
  cases b <;> cases o <;> decide +kernel
theorem tiles_td : tiles Gen.td.table = true := by decide +kernel
theorem tiles_bu : tiles Gen.bu.table = true := by decide +kernel
theorem tiles_conv : tiles Gen.conv.table = true := by decide +kernel
theorem tiles_div : tiles Gen.div.table = true := by decide +kernel
theorem tiles_square0 : tiles (Gen.square 0).table = true := by decide +kernel
theorem tiles_square1 : tiles (Gen.square 1).table = true := by decide +kernel
theorem tiles_square2 : tiles (Gen.square 2).table = true := by decide +kernel
theorem tiles_square3 : tiles (Gen.square 3).table = true := by decide +kernel
theorem tiles_attrSq0 : tiles (Gen.attrSq 0).table = true := by decide +kernel
theorem tiles_attrSq1 : tiles (Gen.attrSq 1).table = true := by decide +kernel
theorem tiles_attrSq2 : tiles (Gen.attrSq 2).table = true := by decide +kernel
theorem tiles_attrSq3 : tiles (Gen.attrSq 3).table = true := by decide +kernel

/-- Every admitted generator's table tiles the region. -/
theorem tiles_admitted (g : Gen) (h : g ∈ Gen.admitted) : tiles g.table = true := by
  simp only [Gen.admitted, List.mem_cons, List.not_mem_nil, or_false] at h
  rcases h with rfl | rfl | rfl | rfl | rfl | rfl | rfl | rfl | rfl | rfl | rfl | rfl | rfl | rfl | rfl | rfl | rfl | rfl
  · exact tiles_comb _ _
  · exact tiles_comb _ _
  · exact tiles_comb _ _
  · exact tiles_comb _ _
  · exact tiles_comb _ _
  · exact tiles_comb _ _
  · exact tiles_td
  · exact tiles_bu
  · exact tiles_conv
  · exact tiles_div
  · exact tiles_square0
  · exact tiles_square1
  · exact tiles_square2
  · exact tiles_square3
  · exact tiles_attrSq0
  · exact tiles_attrSq1
  · exact tiles_attrSq2
  · exact tiles_attrSq3

theorem admitComb_mem (var : BitVec 3) (sz : Nat) (g : Gen) (h : admitComb var sz = some g) : g ∈ Gen.admitted := by
  unfold admitComb at h
  split at h
  · cases h
  · revert g; revert var; decide

theorem admitLinear_mem (var : BitVec 3) (sz : Nat) (g : Gen) (h : admitLinear var sz = some g) :
    g ∈ Gen.admitted := by
  unfold admitLinear at h
  split at h
  · split at h
    · rename_i hs
      cases h
      obtain rfl | rfl | rfl | rfl : sz = 0 ∨ sz = 1 ∨ sz = 2 ∨ sz = 3 := by omega
      all_goals decide
    · cases h
  · repeat' (split at h)
    all_goals cases h
    all_goals decide

theorem admitAttrSq_mem (var : BitVec 3) (sz : Nat) (g : Gen) (h : admitAttrSq var sz = some g) :
    g ∈ Gen.admitted := by
  unfold admitAttrSq at h
  split at h
  · rename_i hs
    cases h
    obtain rfl | rfl | rfl | rfl : sz = 0 ∨ sz = 1 ∨ sz = 2 ∨ sz = 3 := by omega
    all_goals decide
  · cases h

/-- The assertion of TBL_GEN never fails (43_generators.md R190, R214). -/
theorem assertion_holds (g : Gen) (h : g ∈ Gen.admitted) :
    (covers g.table && g.table.all Entry.valid) = true := by
  obtain ⟨hp, hv⟩ := tiles_spec _ (tiles_admitted g h)
  rw [Bool.and_eq_true]
  refine ⟨(covers_iff_partitions _ fun e he => ((valid_iff e).1 (hv e he)).1).2 hp, List.all_eq_true.2 hv⟩

/-! The half-streams of SQUARE and the chunks of ATTRSQ, spelled out (43_generators.md R205, R212). -/

/-- The lowest addresses of one colour's entries, square by square in raster order: of each character row of a square
the spans of the eight pixel lines, then of the attribute cells. -/
def squareStream (n parity : Nat) : List Nat :=
  (List.range (24 / n)).flatMap fun R =>
    ((List.range (32 / n)).filter fun J => (R + J) % 2 == parity).flatMap fun J =>
      (List.range n).flatMap fun i =>
        ((List.range 8).map fun k =>
          0x4000 + 2048 * ((R * n + i) / 8) + 256 * k + 32 * ((R * n + i) % 8) + J * n) ++
        [0x5800 + 32 * (R * n + i) + J * n]

theorem checker_flatMap_squarePasses (n parity : Nat) (d : Dir) :
    ((checker (24 / n) (32 / n) parity).flatMap fun c => squarePasses n c.1 c.2 d) =
      (squareStream n parity).map fun a => ⟨a, n, d⟩ := by
  simp only [checker, squareStream, squarePasses, bmAddr, atAddr, List.flatMap_assoc, List.flatMap_map, List.map_flatMap,
    List.map_append, List.map_map, List.map_cons, List.map_nil, Function.comp_def]

/-- Interleaving two streams of one length is pairing them. -/
theorem interleave_map (as bs : List Nat) (f g : Nat → Pass) (h : as.length = bs.length) :
    interleave (as.map f) (bs.map g) = (as.zip bs).flatMap fun x => [f x.1, g x.2] := by
  induction as generalizing bs with
  | nil => cases bs <;> simp_all [interleave]
  | cons a as ih =>
    cases bs with
    | nil => simp at h
    | cons b bs => simp [interleave, ih bs (by simpa using h)]

theorem squareStream_length : ∀ sz ≤ 3, (squareStream (2 ^ sz) 0).length = (squareStream (2 ^ sz) 1).length := by
  decide +kernel

/-- SQUARE as pairs of a black and a white entry (43_generators.md R205). -/
theorem squareTiling_eq (sz : Nat) (h : sz ≤ 3) :
    squareTiling (2 ^ sz) =
      ((squareStream (2 ^ sz) 0).zip (squareStream (2 ^ sz) 1).reverse).flatMap fun x =>
        [⟨x.1, 2 ^ sz, .fwd⟩, ⟨x.2, 2 ^ sz, .bwd⟩] := by
  rw [squareTiling, checker_flatMap_squarePasses, checker_flatMap_squarePasses, ← List.map_reverse, interleave_map]
  rw [List.length_reverse]
  exact squareStream_length sz h

theorem checker_map_chunkPass (k parity : Nat) :
    (checker 24 (32 / k) parity).map (chunkPass k) =
      (List.range 24).flatMap fun r =>
        ((List.range (32 / k)).filter fun J => (r + J) % 2 == parity).map fun J => ⟨0x5800 + 32 * r + J * k, k, .fwd⟩ := by
  simp only [checker, List.map_flatMap, List.map_map, Function.comp_def, chunkPass, atAddr]

end Sys2Proof.Machine
end

