-- ==== Sys2Proof/Laws/Memory.lean ====
section
/-! SUPPORT. Buffers: a read after a write, and that every operation keeps the canonical form. -/

namespace Sys2Proof.Machine

theorem lookup_filter_key (p : Nat → Bool) (m : Memory) (x : Nat) :
    (m.filter (fun c => p c.1)).lookup x = if p x then m.lookup x else none := by
  induction m with
  | nil => simp
  | cons c m ih =>
    obtain ⟨k, v⟩ := c
    rw [List.lookup_cons]
    by_cases hk : x = k
    · subst hk
      by_cases hp : p x
      · rw [List.filter_cons_of_pos (by simpa using hp), List.lookup_cons]; simp [hp]
      · rw [List.filter_cons_of_neg (by simpa using hp), ih]; simp [hp]
    · have hb : (x == k) = false := by simpa using hk
      by_cases hp : p k
      · rw [List.filter_cons_of_pos (by simpa using hp), List.lookup_cons, hb, ih]
      · rw [List.filter_cons_of_neg (by simpa using hp), ih, hb]

theorem lookup_cellsFrom (bs : List Byte) (a x : Nat) :
    ((cellsFrom a bs).lookup x).getD unwritten = if a ≤ x then bs.getD (x - a) unwritten else unwritten := by
  induction bs generalizing a with
  | nil => simp [cellsFrom]
  | cons b bs ih =>
    have hsucc : a < x → x - a = (x - (a + 1)) + 1 := by omega
    by_cases hb : b = unwritten
    · simp only [cellsFrom, hb, if_true, ih]
      rcases Nat.lt_trichotomy x a with h | h | h
      · simp [show ¬ a + 1 ≤ x by omega, show ¬ a ≤ x by omega]
      · subst h; simp
      · simp [show a + 1 ≤ x by omega, show a ≤ x by omega, hsucc h]
    · simp only [cellsFrom, hb, if_false, List.lookup_cons]
      rcases Nat.lt_trichotomy x a with h | h | h
      · simp [show (x == a) = false by simp; omega, ih, show ¬ a + 1 ≤ x by omega, show ¬ a ≤ x by omega]
      · subst h; simp
      · simp [show (x == a) = false by simp; omega, ih, show a + 1 ≤ x by omega, show a ≤ x by omega, hsucc h]

theorem lookup_cellsFrom_outside (bs : List Byte) (a x : Nat) (h : x < a ∨ a + bs.length ≤ x) :
    (cellsFrom a bs).lookup x = none := by
  induction bs generalizing a with
  | nil => simp [cellsFrom]
  | cons b bs ih =>
    have h' : x < a + 1 ∨ a + 1 + bs.length ≤ x := by simp at h; omega
    have hne : (x == a) = false := by simp at h ⊢; omega
    by_cases hb : b = unwritten
    · simp [cellsFrom, hb, ih _ h']
    · simp [cellsFrom, hb, List.lookup_cons, hne, ih _ h']

/-- A read after a write (20_memory.md R62, R68): the byte written there, or the byte that was there before. -/
theorem Memory.read_write (m : Memory) (a : Nat) (bs : List Byte) (x : Nat) :
    (m.write a bs).read x = if a ≤ x ∧ x < a + bs.length then bs.getD (x - a) unwritten else m.read x := by
  have h1 := lookup_filter_key (fun k => decide (k < a)) m x
  have h2 := lookup_filter_key (fun k => decide (a + bs.length ≤ k)) m x
  unfold Memory.write Memory.read
  rw [List.append_assoc, List.lookup_append, h1, List.lookup_append, h2]
  by_cases hx : a ≤ x ∧ x < a + bs.length
  · have hc := lookup_cellsFrom bs a x
    simp only [show ¬ x < a by omega, show ¬ a + bs.length ≤ x by omega, hx, decide_false, Bool.false_eq_true,
      if_false, Option.none_or, Option.or_none, if_true] at hc ⊢
    rw [hc]; simp
  · rw [if_neg hx]
    have hc := lookup_cellsFrom_outside bs a x (by omega)
    rw [hc]
    by_cases hl : x < a
    · simp [hl, show ¬ a + bs.length ≤ x by omega]
    · simp [hl, show a + bs.length ≤ x by omega]

theorem Memory.read_write_inside (m : Memory) (a : Nat) (bs : List Byte) (k : Nat) (h : k < bs.length) :
    (m.write a bs).read (a + k) = bs[k] := by
  rw [Memory.read_write, if_pos (by omega)]; simp [h]

theorem Memory.read_write_outside (m : Memory) (a : Nat) (bs : List Byte) (x : Nat)
    (h : x < a ∨ a + bs.length ≤ x) : (m.write a bs).read x = m.read x := by
  rw [Memory.read_write, if_neg (by omega)]

@[simp] theorem Memory.length_readRange (m : Memory) (a n : Nat) : (m.readRange a n).length = n := by
  simp [Memory.readRange]

@[simp] theorem Memory.getElem_readRange (m : Memory) (a n i : Nat) (h : i < (m.readRange a n).length) :
    (m.readRange a n)[i] = m.read (a + i) := by
  simp [Memory.readRange]

/-- Reading back what was written. -/
theorem Memory.readRange_write (m : Memory) (a : Nat) (bs : List Byte) :
    (m.write a bs).readRange a bs.length = bs := by
  apply List.ext_getElem (by simp)
  intro i h1 h2
  rw [Memory.getElem_readRange, Memory.read_write_inside m a bs i h2]

/-- Two buffers that read the same on a range have the same bytes there. -/
theorem Memory.readRange_congr (m m' : Memory) (a n : Nat) (h : ∀ i < n, m.read (a + i) = m'.read (a + i)) :
    m.readRange a n = m'.readRange a n := by
  apply List.ext_getElem (by simp)
  intro i h1 h2
  simpa using h i (by simpa using h1)

theorem mem_cellsFrom (bs : List Byte) (a : Nat) (c : Host.Cell) (h : c ∈ cellsFrom a bs) :
    a ≤ c.1 ∧ c.1 < a + bs.length ∧ c.2 ≠ unwritten := by
  induction bs generalizing a with
  | nil => simp [cellsFrom] at h
  | cons b bs ih =>
    by_cases hb : b = unwritten
    · simp only [cellsFrom, hb, if_true] at h
      obtain ⟨h1, h2, h3⟩ := ih _ h
      exact ⟨by omega, by simp; omega, h3⟩
    · simp only [cellsFrom, hb, if_false, List.mem_cons] at h
      rcases h with h | h
      · subst h; simp [hb]
      · obtain ⟨h1, h2, h3⟩ := ih _ h
        exact ⟨by omega, by simp; omega, h3⟩

theorem pairwise_cellsFrom (bs : List Byte) (a : Nat) : (cellsFrom a bs).Pairwise (fun c d => c.1 < d.1) := by
  induction bs generalizing a with
  | nil => simp [cellsFrom]
  | cons b bs ih =>
    by_cases hb : b = unwritten
    · simpa [cellsFrom, hb] using ih (a + 1)
    · simp only [cellsFrom, hb, if_false, List.pairwise_cons]
      refine ⟨fun c hc => ?_, ih _⟩
      have := mem_cellsFrom _ _ _ hc
      simp; omega

/-- A write keeps the canonical form. -/
theorem Memory.wf_write (m : Memory) (a : Nat) (bs : List Byte) (h : m.wf) : (m.write a bs).wf := by
  obtain ⟨hp, hv⟩ := h
  refine ⟨?_, ?_⟩
  · unfold Memory.write
    rw [List.pairwise_append, List.pairwise_append]
    refine ⟨⟨hp.filter _, pairwise_cellsFrom _ _, ?_⟩, hp.filter _, ?_⟩
    · intro c hc d hd
      have := mem_cellsFrom _ _ _ hd
      simp at hc; omega
    · intro c hc d hd
      simp only [List.mem_append, List.mem_filter, decide_eq_true_eq] at hc hd
      rcases hc with hc | hc
      · omega
      · have := mem_cellsFrom _ _ _ hc; omega
  · intro c hc
    simp only [Memory.write, List.mem_append, List.mem_filter] at hc
    rcases hc with (hc | hc) | hc
    · exact hv _ hc.1
    · exact (mem_cellsFrom _ _ _ hc).2.2
    · exact hv _ hc.1

/-- A write inside the buffer keeps every byte inside it. -/
theorem Memory.within_write (m : Memory) (a size : Nat) (bs : List Byte) (h : m.within size)
    (hb : a + bs.length ≤ size) : (m.write a bs).within size := by
  intro c hc
  simp only [Memory.write, List.mem_append, List.mem_filter] at hc
  rcases hc with (hc | hc) | hc
  · exact h _ hc.1
  · have := mem_cellsFrom _ _ _ hc; omega
  · exact h _ hc.1

theorem Memory.wf_nil : Memory.wf [] := ⟨List.Pairwise.nil, by simp⟩

/-- The contents a hardware reset leaves are in canonical form and inside the buffer. -/
theorem Memory.ofCells_keeps (size : Nat) (cells : List Host.Cell) :
    (Memory.ofCells size cells).wf ∧ (Memory.ofCells size cells).within size := by
  unfold Memory.ofCells
  suffices h : ∀ m : Memory, m.wf ∧ m.within size →
      (cells.foldl (fun m c => if c.1 < size then Memory.write m c.1 [c.2] else m) m).wf ∧
      Memory.within (cells.foldl (fun m c => if c.1 < size then Memory.write m c.1 [c.2] else m) m) size from
    h [] ⟨Memory.wf_nil, by simp⟩
  induction cells with
  | nil => intro m h; exact h
  | cons c cs ih =>
    intro m h
    rw [List.foldl_cons]
    apply ih
    split
    · exact ⟨Memory.wf_write _ _ _ h.1, Memory.within_write _ _ _ _ h.2 (by simpa using ‹_›)⟩
    · exact h

end Sys2Proof.Machine
end

