-- ==== Sys2Proof/Laws/State.lean ====
section
/-! SUPPORT. One lemma per field per named update of State, so that no later proof unfolds a record update. -/

namespace Sys2Proof.Machine

section
variable (s : State) (p : BytePair)

@[simp] theorem State.setAcc_params : (s.setAcc p).params = s.params := rfl
@[simp] theorem State.setAcc_sufRule : (s.setAcc p).sufRule = s.sufRule := rfl
@[simp] theorem State.setAcc_noFixLen : (s.setAcc p).noFixLen = s.noFixLen := rfl
@[simp] theorem State.setAcc_fault : (s.setAcc p).fault = s.fault := rfl
@[simp] theorem State.setAcc_ckok : (s.setAcc p).ckok = s.ckok := rfl
@[simp] theorem State.setAcc_covok : (s.setAcc p).covok = s.covok := rfl
@[simp] theorem State.setAcc_strat : (s.setAcc p).strat = s.strat := rfl
@[simp] theorem State.setAcc_overrun : (s.setAcc p).overrun = s.overrun := rfl
@[simp] theorem State.setAcc_overrunHeld : (s.setAcc p).overrunHeld = s.overrunHeld := rfl
@[simp] theorem State.setAcc_wrej : (s.setAcc p).wrej = s.wrej := rfl
@[simp] theorem State.setAcc_err : (s.setAcc p).err = s.err := rfl
@[simp] theorem State.setAcc_shortLen : (s.setAcc p).shortLen = s.shortLen := rfl
@[simp] theorem State.setAcc_fixDir : (s.setAcc p).fixDir = s.fixDir := rfl
@[simp] theorem State.setAcc_src : (s.setAcc p).src = s.src := rfl
@[simp] theorem State.setAcc_len : (s.setAcc p).len = s.len := rfl
@[simp] theorem State.setAcc_dst : (s.setAcc p).dst = s.dst := rfl
@[simp] theorem State.setAcc_outLen : (s.setAcc p).outLen = s.outLen := rfl
@[simp] theorem State.setAcc_acc : (s.setAcc p).acc = p := rfl
@[simp] theorem State.setAcc_suffix : (s.setAcc p).suffix = s.suffix := rfl
@[simp] theorem State.setAcc_hdr : (s.setAcc p).hdr = s.hdr := rfl
@[simp] theorem State.setAcc_cfgTag : (s.setAcc p).cfgTag = s.cfgTag := rfl
@[simp] theorem State.setAcc_cfgSanity : (s.setAcc p).cfgSanity = s.cfgSanity := rfl
@[simp] theorem State.setAcc_entry : (s.setAcc p).entry = s.entry := rfl
@[simp] theorem State.setAcc_tidx : (s.setAcc p).tidx = s.tidx := rfl
@[simp] theorem State.setAcc_tcount : (s.setAcc p).tcount = s.tcount := rfl
@[simp] theorem State.setAcc_fixLen : (s.setAcc p).fixLen = s.fixLen := rfl
@[simp] theorem State.setAcc_ibuf : (s.setAcc p).ibuf = s.ibuf := rfl
@[simp] theorem State.setAcc_obuf : (s.setAcc p).obuf = s.obuf := rfl
@[simp] theorem State.setAcc_tbl : (s.setAcc p).tbl = s.tbl := rfl
@[simp] theorem State.setAcc_pend : (s.setAcc p).pend = s.pend := rfl
@[simp] theorem State.setAcc_events : (s.setAcc p).events = s.events := rfl
@[simp] theorem State.setAcc_resp : (s.setAcc p).resp = s.resp := rfl

end

section
variable (s : State) (xy chk : BytePair)

@[simp] theorem State.setSolved_params : (s.setSolved xy chk).params = s.params := rfl
@[simp] theorem State.setSolved_sufRule : (s.setSolved xy chk).sufRule = s.sufRule := rfl
@[simp] theorem State.setSolved_noFixLen : (s.setSolved xy chk).noFixLen = s.noFixLen := rfl
@[simp] theorem State.setSolved_fault : (s.setSolved xy chk).fault = s.fault := rfl
@[simp] theorem State.setSolved_ckok : (s.setSolved xy chk).ckok = true := rfl
@[simp] theorem State.setSolved_covok : (s.setSolved xy chk).covok = s.covok := rfl
@[simp] theorem State.setSolved_strat : (s.setSolved xy chk).strat = s.strat := rfl
@[simp] theorem State.setSolved_overrun : (s.setSolved xy chk).overrun = s.overrun := rfl
@[simp] theorem State.setSolved_overrunHeld : (s.setSolved xy chk).overrunHeld = s.overrunHeld := rfl
@[simp] theorem State.setSolved_wrej : (s.setSolved xy chk).wrej = s.wrej := rfl
@[simp] theorem State.setSolved_err : (s.setSolved xy chk).err = s.err := rfl
@[simp] theorem State.setSolved_shortLen : (s.setSolved xy chk).shortLen = s.shortLen := rfl
@[simp] theorem State.setSolved_fixDir : (s.setSolved xy chk).fixDir = s.fixDir := rfl
@[simp] theorem State.setSolved_src : (s.setSolved xy chk).src = s.src := rfl
@[simp] theorem State.setSolved_len : (s.setSolved xy chk).len = s.len := rfl
@[simp] theorem State.setSolved_dst : (s.setSolved xy chk).dst = s.dst := rfl
@[simp] theorem State.setSolved_outLen : (s.setSolved xy chk).outLen = s.outLen := rfl
@[simp] theorem State.setSolved_acc : (s.setSolved xy chk).acc = chk := rfl
@[simp] theorem State.setSolved_suffix : (s.setSolved xy chk).suffix = xy := rfl
@[simp] theorem State.setSolved_hdr : (s.setSolved xy chk).hdr = s.hdr := rfl
@[simp] theorem State.setSolved_cfgTag : (s.setSolved xy chk).cfgTag = s.cfgTag := rfl
@[simp] theorem State.setSolved_cfgSanity : (s.setSolved xy chk).cfgSanity = s.cfgSanity := rfl
@[simp] theorem State.setSolved_entry : (s.setSolved xy chk).entry = s.entry := rfl
@[simp] theorem State.setSolved_tidx : (s.setSolved xy chk).tidx = s.tidx := rfl
@[simp] theorem State.setSolved_tcount : (s.setSolved xy chk).tcount = s.tcount := rfl
@[simp] theorem State.setSolved_fixLen : (s.setSolved xy chk).fixLen = s.fixLen := rfl
@[simp] theorem State.setSolved_ibuf : (s.setSolved xy chk).ibuf = s.ibuf := rfl
@[simp] theorem State.setSolved_obuf : (s.setSolved xy chk).obuf = s.obuf := rfl
@[simp] theorem State.setSolved_tbl : (s.setSolved xy chk).tbl = s.tbl := rfl
@[simp] theorem State.setSolved_pend : (s.setSolved xy chk).pend = s.pend := rfl
@[simp] theorem State.setSolved_events : (s.setSolved xy chk).events = s.events := rfl
@[simp] theorem State.setSolved_resp : (s.setSolved xy chk).resp = s.resp := rfl

end

section
variable (s : State) (b : Bool)

@[simp] theorem State.setCkok_params : (s.setCkok b).params = s.params := rfl
@[simp] theorem State.setCkok_sufRule : (s.setCkok b).sufRule = s.sufRule := rfl
@[simp] theorem State.setCkok_noFixLen : (s.setCkok b).noFixLen = s.noFixLen := rfl
@[simp] theorem State.setCkok_fault : (s.setCkok b).fault = s.fault := rfl
@[simp] theorem State.setCkok_ckok : (s.setCkok b).ckok = b := rfl
@[simp] theorem State.setCkok_covok : (s.setCkok b).covok = s.covok := rfl
@[simp] theorem State.setCkok_strat : (s.setCkok b).strat = s.strat := rfl
@[simp] theorem State.setCkok_overrun : (s.setCkok b).overrun = s.overrun := rfl
@[simp] theorem State.setCkok_overrunHeld : (s.setCkok b).overrunHeld = s.overrunHeld := rfl
@[simp] theorem State.setCkok_wrej : (s.setCkok b).wrej = s.wrej := rfl
@[simp] theorem State.setCkok_err : (s.setCkok b).err = s.err := rfl
@[simp] theorem State.setCkok_shortLen : (s.setCkok b).shortLen = s.shortLen := rfl
@[simp] theorem State.setCkok_fixDir : (s.setCkok b).fixDir = s.fixDir := rfl
@[simp] theorem State.setCkok_src : (s.setCkok b).src = s.src := rfl
@[simp] theorem State.setCkok_len : (s.setCkok b).len = s.len := rfl
@[simp] theorem State.setCkok_dst : (s.setCkok b).dst = s.dst := rfl
@[simp] theorem State.setCkok_outLen : (s.setCkok b).outLen = s.outLen := rfl
@[simp] theorem State.setCkok_acc : (s.setCkok b).acc = s.acc := rfl
@[simp] theorem State.setCkok_suffix : (s.setCkok b).suffix = s.suffix := rfl
@[simp] theorem State.setCkok_hdr : (s.setCkok b).hdr = s.hdr := rfl
@[simp] theorem State.setCkok_cfgTag : (s.setCkok b).cfgTag = s.cfgTag := rfl
@[simp] theorem State.setCkok_cfgSanity : (s.setCkok b).cfgSanity = s.cfgSanity := rfl
@[simp] theorem State.setCkok_entry : (s.setCkok b).entry = s.entry := rfl
@[simp] theorem State.setCkok_tidx : (s.setCkok b).tidx = s.tidx := rfl
@[simp] theorem State.setCkok_tcount : (s.setCkok b).tcount = s.tcount := rfl
@[simp] theorem State.setCkok_fixLen : (s.setCkok b).fixLen = s.fixLen := rfl
@[simp] theorem State.setCkok_ibuf : (s.setCkok b).ibuf = s.ibuf := rfl
@[simp] theorem State.setCkok_obuf : (s.setCkok b).obuf = s.obuf := rfl
@[simp] theorem State.setCkok_tbl : (s.setCkok b).tbl = s.tbl := rfl
@[simp] theorem State.setCkok_pend : (s.setCkok b).pend = s.pend := rfl
@[simp] theorem State.setCkok_events : (s.setCkok b).events = s.events := rfl
@[simp] theorem State.setCkok_resp : (s.setCkok b).resp = s.resp := rfl

end

section
variable (s : State) (b : Bool)

@[simp] theorem State.setCovok_params : (s.setCovok b).params = s.params := rfl
@[simp] theorem State.setCovok_sufRule : (s.setCovok b).sufRule = s.sufRule := rfl
@[simp] theorem State.setCovok_noFixLen : (s.setCovok b).noFixLen = s.noFixLen := rfl
@[simp] theorem State.setCovok_fault : (s.setCovok b).fault = s.fault := rfl
@[simp] theorem State.setCovok_ckok : (s.setCovok b).ckok = s.ckok := rfl
@[simp] theorem State.setCovok_covok : (s.setCovok b).covok = b := rfl
@[simp] theorem State.setCovok_strat : (s.setCovok b).strat = s.strat := rfl
@[simp] theorem State.setCovok_overrun : (s.setCovok b).overrun = s.overrun := rfl
@[simp] theorem State.setCovok_overrunHeld : (s.setCovok b).overrunHeld = s.overrunHeld := rfl
@[simp] theorem State.setCovok_wrej : (s.setCovok b).wrej = s.wrej := rfl
@[simp] theorem State.setCovok_err : (s.setCovok b).err = s.err := rfl
@[simp] theorem State.setCovok_shortLen : (s.setCovok b).shortLen = s.shortLen := rfl
@[simp] theorem State.setCovok_fixDir : (s.setCovok b).fixDir = s.fixDir := rfl
@[simp] theorem State.setCovok_src : (s.setCovok b).src = s.src := rfl
@[simp] theorem State.setCovok_len : (s.setCovok b).len = s.len := rfl
@[simp] theorem State.setCovok_dst : (s.setCovok b).dst = s.dst := rfl
@[simp] theorem State.setCovok_outLen : (s.setCovok b).outLen = s.outLen := rfl
@[simp] theorem State.setCovok_acc : (s.setCovok b).acc = s.acc := rfl
@[simp] theorem State.setCovok_suffix : (s.setCovok b).suffix = s.suffix := rfl
@[simp] theorem State.setCovok_hdr : (s.setCovok b).hdr = s.hdr := rfl
@[simp] theorem State.setCovok_cfgTag : (s.setCovok b).cfgTag = s.cfgTag := rfl
@[simp] theorem State.setCovok_cfgSanity : (s.setCovok b).cfgSanity = s.cfgSanity := rfl
@[simp] theorem State.setCovok_entry : (s.setCovok b).entry = s.entry := rfl
@[simp] theorem State.setCovok_tidx : (s.setCovok b).tidx = s.tidx := rfl
@[simp] theorem State.setCovok_tcount : (s.setCovok b).tcount = s.tcount := rfl
@[simp] theorem State.setCovok_fixLen : (s.setCovok b).fixLen = s.fixLen := rfl
@[simp] theorem State.setCovok_ibuf : (s.setCovok b).ibuf = s.ibuf := rfl
@[simp] theorem State.setCovok_obuf : (s.setCovok b).obuf = s.obuf := rfl
@[simp] theorem State.setCovok_tbl : (s.setCovok b).tbl = s.tbl := rfl
@[simp] theorem State.setCovok_pend : (s.setCovok b).pend = s.pend := rfl
@[simp] theorem State.setCovok_events : (s.setCovok b).events = s.events := rfl
@[simp] theorem State.setCovok_resp : (s.setCovok b).resp = s.resp := rfl

end

section
variable (s : State) (w : Word)

@[simp] theorem State.setEntry_params : (s.setEntry w).params = s.params := rfl
@[simp] theorem State.setEntry_sufRule : (s.setEntry w).sufRule = s.sufRule := rfl
@[simp] theorem State.setEntry_noFixLen : (s.setEntry w).noFixLen = s.noFixLen := rfl
@[simp] theorem State.setEntry_fault : (s.setEntry w).fault = s.fault := rfl
@[simp] theorem State.setEntry_ckok : (s.setEntry w).ckok = s.ckok := rfl
@[simp] theorem State.setEntry_covok : (s.setEntry w).covok = s.covok := rfl
@[simp] theorem State.setEntry_strat : (s.setEntry w).strat = s.strat := rfl
@[simp] theorem State.setEntry_overrun : (s.setEntry w).overrun = s.overrun := rfl
@[simp] theorem State.setEntry_overrunHeld : (s.setEntry w).overrunHeld = s.overrunHeld := rfl
@[simp] theorem State.setEntry_wrej : (s.setEntry w).wrej = s.wrej := rfl
@[simp] theorem State.setEntry_err : (s.setEntry w).err = s.err := rfl
@[simp] theorem State.setEntry_shortLen : (s.setEntry w).shortLen = s.shortLen := rfl
@[simp] theorem State.setEntry_fixDir : (s.setEntry w).fixDir = s.fixDir := rfl
@[simp] theorem State.setEntry_src : (s.setEntry w).src = s.src := rfl
@[simp] theorem State.setEntry_len : (s.setEntry w).len = s.len := rfl
@[simp] theorem State.setEntry_dst : (s.setEntry w).dst = s.dst := rfl
@[simp] theorem State.setEntry_outLen : (s.setEntry w).outLen = s.outLen := rfl
@[simp] theorem State.setEntry_acc : (s.setEntry w).acc = s.acc := rfl
@[simp] theorem State.setEntry_suffix : (s.setEntry w).suffix = s.suffix := rfl
@[simp] theorem State.setEntry_hdr : (s.setEntry w).hdr = s.hdr := rfl
@[simp] theorem State.setEntry_cfgTag : (s.setEntry w).cfgTag = s.cfgTag := rfl
@[simp] theorem State.setEntry_cfgSanity : (s.setEntry w).cfgSanity = s.cfgSanity := rfl
@[simp] theorem State.setEntry_entry : (s.setEntry w).entry = w := rfl
@[simp] theorem State.setEntry_tidx : (s.setEntry w).tidx = s.tidx := rfl
@[simp] theorem State.setEntry_tcount : (s.setEntry w).tcount = s.tcount := rfl
@[simp] theorem State.setEntry_fixLen : (s.setEntry w).fixLen = s.fixLen := rfl
@[simp] theorem State.setEntry_ibuf : (s.setEntry w).ibuf = s.ibuf := rfl
@[simp] theorem State.setEntry_obuf : (s.setEntry w).obuf = s.obuf := rfl
@[simp] theorem State.setEntry_tbl : (s.setEntry w).tbl = s.tbl := rfl
@[simp] theorem State.setEntry_pend : (s.setEntry w).pend = s.pend := rfl
@[simp] theorem State.setEntry_events : (s.setEntry w).events = s.events := rfl
@[simp] theorem State.setEntry_resp : (s.setEntry w).resp = s.resp := rfl

end

section
variable (s : State) (n : Nat)

@[simp] theorem State.setCount_params : (s.setCount n).params = s.params := rfl
@[simp] theorem State.setCount_sufRule : (s.setCount n).sufRule = s.sufRule := rfl
@[simp] theorem State.setCount_noFixLen : (s.setCount n).noFixLen = s.noFixLen := rfl
@[simp] theorem State.setCount_fault : (s.setCount n).fault = s.fault := rfl
@[simp] theorem State.setCount_ckok : (s.setCount n).ckok = s.ckok := rfl
@[simp] theorem State.setCount_covok : (s.setCount n).covok = s.covok := rfl
@[simp] theorem State.setCount_strat : (s.setCount n).strat = s.strat := rfl
@[simp] theorem State.setCount_overrun : (s.setCount n).overrun = s.overrun := rfl
@[simp] theorem State.setCount_overrunHeld : (s.setCount n).overrunHeld = s.overrunHeld := rfl
@[simp] theorem State.setCount_wrej : (s.setCount n).wrej = s.wrej := rfl
@[simp] theorem State.setCount_err : (s.setCount n).err = s.err := rfl
@[simp] theorem State.setCount_shortLen : (s.setCount n).shortLen = s.shortLen := rfl
@[simp] theorem State.setCount_fixDir : (s.setCount n).fixDir = s.fixDir := rfl
@[simp] theorem State.setCount_src : (s.setCount n).src = s.src := rfl
@[simp] theorem State.setCount_len : (s.setCount n).len = s.len := rfl
@[simp] theorem State.setCount_dst : (s.setCount n).dst = s.dst := rfl
@[simp] theorem State.setCount_outLen : (s.setCount n).outLen = s.outLen := rfl
@[simp] theorem State.setCount_acc : (s.setCount n).acc = s.acc := rfl
@[simp] theorem State.setCount_suffix : (s.setCount n).suffix = s.suffix := rfl
@[simp] theorem State.setCount_hdr : (s.setCount n).hdr = s.hdr := rfl
@[simp] theorem State.setCount_cfgTag : (s.setCount n).cfgTag = s.cfgTag := rfl
@[simp] theorem State.setCount_cfgSanity : (s.setCount n).cfgSanity = s.cfgSanity := rfl
@[simp] theorem State.setCount_entry : (s.setCount n).entry = s.entry := rfl
@[simp] theorem State.setCount_tidx : (s.setCount n).tidx = s.tidx := rfl
@[simp] theorem State.setCount_tcount : (s.setCount n).tcount = BitVec.ofNat 16 n := rfl
@[simp] theorem State.setCount_fixLen : (s.setCount n).fixLen = s.fixLen := rfl
@[simp] theorem State.setCount_ibuf : (s.setCount n).ibuf = s.ibuf := rfl
@[simp] theorem State.setCount_obuf : (s.setCount n).obuf = s.obuf := rfl
@[simp] theorem State.setCount_tbl : (s.setCount n).tbl = s.tbl := rfl
@[simp] theorem State.setCount_pend : (s.setCount n).pend = s.pend := rfl
@[simp] theorem State.setCount_events : (s.setCount n).events = s.events := rfl
@[simp] theorem State.setCount_resp : (s.setCount n).resp = s.resp := rfl

end

section
variable (s : State) (es : List Entry)

@[simp] theorem State.setTable_params : (s.setTable es).params = s.params := rfl
@[simp] theorem State.setTable_sufRule : (s.setTable es).sufRule = s.sufRule := rfl
@[simp] theorem State.setTable_noFixLen : (s.setTable es).noFixLen = s.noFixLen := rfl
@[simp] theorem State.setTable_fault : (s.setTable es).fault = s.fault := rfl
@[simp] theorem State.setTable_ckok : (s.setTable es).ckok = s.ckok := rfl
@[simp] theorem State.setTable_covok : (s.setTable es).covok = s.covok := rfl
@[simp] theorem State.setTable_strat : (s.setTable es).strat = s.strat := rfl
@[simp] theorem State.setTable_overrun : (s.setTable es).overrun = s.overrun := rfl
@[simp] theorem State.setTable_overrunHeld : (s.setTable es).overrunHeld = s.overrunHeld := rfl
@[simp] theorem State.setTable_wrej : (s.setTable es).wrej = s.wrej := rfl
@[simp] theorem State.setTable_err : (s.setTable es).err = s.err := rfl
@[simp] theorem State.setTable_shortLen : (s.setTable es).shortLen = s.shortLen := rfl
@[simp] theorem State.setTable_fixDir : (s.setTable es).fixDir = s.fixDir := rfl
@[simp] theorem State.setTable_src : (s.setTable es).src = s.src := rfl
@[simp] theorem State.setTable_len : (s.setTable es).len = s.len := rfl
@[simp] theorem State.setTable_dst : (s.setTable es).dst = s.dst := rfl
@[simp] theorem State.setTable_outLen : (s.setTable es).outLen = s.outLen := rfl
@[simp] theorem State.setTable_acc : (s.setTable es).acc = s.acc := rfl
@[simp] theorem State.setTable_suffix : (s.setTable es).suffix = s.suffix := rfl
@[simp] theorem State.setTable_hdr : (s.setTable es).hdr = s.hdr := rfl
@[simp] theorem State.setTable_cfgTag : (s.setTable es).cfgTag = s.cfgTag := rfl
@[simp] theorem State.setTable_cfgSanity : (s.setTable es).cfgSanity = s.cfgSanity := rfl
@[simp] theorem State.setTable_entry : (s.setTable es).entry = s.entry := rfl
@[simp] theorem State.setTable_tidx : (s.setTable es).tidx = s.tidx := rfl
@[simp] theorem State.setTable_tcount : (s.setTable es).tcount = BitVec.ofNat 16 es.length := rfl
@[simp] theorem State.setTable_fixLen : (s.setTable es).fixLen = s.fixLen := rfl
@[simp] theorem State.setTable_ibuf : (s.setTable es).ibuf = s.ibuf := rfl
@[simp] theorem State.setTable_obuf : (s.setTable es).obuf = s.obuf := rfl
@[simp] theorem State.setTable_tbl : (s.setTable es).tbl = es ++ s.tbl.drop es.length := rfl
@[simp] theorem State.setTable_pend : (s.setTable es).pend = s.pend := rfl
@[simp] theorem State.setTable_events : (s.setTable es).events = s.events := rfl
@[simp] theorem State.setTable_resp : (s.setTable es).resp = s.resp := rfl

end

section
variable (s : State) (out : List Byte)

@[simp] theorem State.emit_params : (s.emit out).params = s.params := rfl
@[simp] theorem State.emit_sufRule : (s.emit out).sufRule = s.sufRule := rfl
@[simp] theorem State.emit_noFixLen : (s.emit out).noFixLen = s.noFixLen := rfl
@[simp] theorem State.emit_fault : (s.emit out).fault = s.fault := rfl
@[simp] theorem State.emit_ckok : (s.emit out).ckok = s.ckok := rfl
@[simp] theorem State.emit_covok : (s.emit out).covok = s.covok := rfl
@[simp] theorem State.emit_strat : (s.emit out).strat = s.strat := rfl
@[simp] theorem State.emit_overrun : (s.emit out).overrun = s.overrun := rfl
@[simp] theorem State.emit_overrunHeld : (s.emit out).overrunHeld = s.overrunHeld := rfl
@[simp] theorem State.emit_wrej : (s.emit out).wrej = s.wrej := rfl
@[simp] theorem State.emit_err : (s.emit out).err = s.err := rfl
@[simp] theorem State.emit_shortLen : (s.emit out).shortLen = s.shortLen := rfl
@[simp] theorem State.emit_fixDir : (s.emit out).fixDir = s.fixDir := rfl
@[simp] theorem State.emit_src : (s.emit out).src = s.src := rfl
@[simp] theorem State.emit_len : (s.emit out).len = s.len := rfl
@[simp] theorem State.emit_dst : (s.emit out).dst = s.dst := rfl
@[simp] theorem State.emit_outLen : (s.emit out).outLen = BitVec.ofNat 32 out.length := rfl
@[simp] theorem State.emit_acc : (s.emit out).acc = s.acc := rfl
@[simp] theorem State.emit_suffix : (s.emit out).suffix = s.suffix := rfl
@[simp] theorem State.emit_hdr : (s.emit out).hdr = s.hdr := rfl
@[simp] theorem State.emit_cfgTag : (s.emit out).cfgTag = s.cfgTag := rfl
@[simp] theorem State.emit_cfgSanity : (s.emit out).cfgSanity = s.cfgSanity := rfl
@[simp] theorem State.emit_entry : (s.emit out).entry = s.entry := rfl
@[simp] theorem State.emit_tidx : (s.emit out).tidx = s.tidx := rfl
@[simp] theorem State.emit_tcount : (s.emit out).tcount = s.tcount := rfl
@[simp] theorem State.emit_fixLen : (s.emit out).fixLen = s.fixLen := rfl
@[simp] theorem State.emit_ibuf : (s.emit out).ibuf = s.ibuf := rfl
@[simp] theorem State.emit_obuf : (s.emit out).obuf = s.obuf.write s.dst.toNat out := rfl
@[simp] theorem State.emit_tbl : (s.emit out).tbl = s.tbl := rfl
@[simp] theorem State.emit_pend : (s.emit out).pend = s.pend := rfl
@[simp] theorem State.emit_events : (s.emit out).events = s.events := rfl
@[simp] theorem State.emit_resp : (s.emit out).resp = s.resp := rfl

end

section
variable (s : State) (st : Strategy) (n : BitVec 16) (a b : Bool)

@[simp] theorem State.setReport_params : (s.setReport st n a b).params = s.params := rfl
@[simp] theorem State.setReport_sufRule : (s.setReport st n a b).sufRule = s.sufRule := rfl
@[simp] theorem State.setReport_noFixLen : (s.setReport st n a b).noFixLen = s.noFixLen := rfl
@[simp] theorem State.setReport_fault : (s.setReport st n a b).fault = s.fault := rfl
@[simp] theorem State.setReport_ckok : (s.setReport st n a b).ckok = s.ckok := rfl
@[simp] theorem State.setReport_covok : (s.setReport st n a b).covok = s.covok := rfl
@[simp] theorem State.setReport_strat : (s.setReport st n a b).strat = st := rfl
@[simp] theorem State.setReport_overrun : (s.setReport st n a b).overrun = s.overrun := rfl
@[simp] theorem State.setReport_overrunHeld : (s.setReport st n a b).overrunHeld = s.overrunHeld := rfl
@[simp] theorem State.setReport_wrej : (s.setReport st n a b).wrej = s.wrej := rfl
@[simp] theorem State.setReport_err : (s.setReport st n a b).err = s.err := rfl
@[simp] theorem State.setReport_shortLen : (s.setReport st n a b).shortLen = a := rfl
@[simp] theorem State.setReport_fixDir : (s.setReport st n a b).fixDir = b := rfl
@[simp] theorem State.setReport_src : (s.setReport st n a b).src = s.src := rfl
@[simp] theorem State.setReport_len : (s.setReport st n a b).len = s.len := rfl
@[simp] theorem State.setReport_dst : (s.setReport st n a b).dst = s.dst := rfl
@[simp] theorem State.setReport_outLen : (s.setReport st n a b).outLen = s.outLen := rfl
@[simp] theorem State.setReport_acc : (s.setReport st n a b).acc = s.acc := rfl
@[simp] theorem State.setReport_suffix : (s.setReport st n a b).suffix = s.suffix := rfl
@[simp] theorem State.setReport_hdr : (s.setReport st n a b).hdr = s.hdr := rfl
@[simp] theorem State.setReport_cfgTag : (s.setReport st n a b).cfgTag = s.cfgTag := rfl
@[simp] theorem State.setReport_cfgSanity : (s.setReport st n a b).cfgSanity = s.cfgSanity := rfl
@[simp] theorem State.setReport_entry : (s.setReport st n a b).entry = s.entry := rfl
@[simp] theorem State.setReport_tidx : (s.setReport st n a b).tidx = s.tidx := rfl
@[simp] theorem State.setReport_tcount : (s.setReport st n a b).tcount = s.tcount := rfl
@[simp] theorem State.setReport_fixLen : (s.setReport st n a b).fixLen = n := rfl
@[simp] theorem State.setReport_ibuf : (s.setReport st n a b).ibuf = s.ibuf := rfl
@[simp] theorem State.setReport_obuf : (s.setReport st n a b).obuf = s.obuf := rfl
@[simp] theorem State.setReport_tbl : (s.setReport st n a b).tbl = s.tbl := rfl
@[simp] theorem State.setReport_pend : (s.setReport st n a b).pend = s.pend := rfl
@[simp] theorem State.setReport_events : (s.setReport st n a b).events = s.events := rfl
@[simp] theorem State.setReport_resp : (s.setReport st n a b).resp = s.resp := rfl

end

section
variable (s : State)

@[simp] theorem State.commit_params : (s.commit).params = s.params := rfl
@[simp] theorem State.commit_sufRule : (s.commit).sufRule = s.sufRule := rfl
@[simp] theorem State.commit_noFixLen : (s.commit).noFixLen = s.noFixLen := rfl
@[simp] theorem State.commit_fault : (s.commit).fault = s.fault := rfl
@[simp] theorem State.commit_ckok : (s.commit).ckok = s.ckok := rfl
@[simp] theorem State.commit_covok : (s.commit).covok = s.covok := rfl
@[simp] theorem State.commit_strat : (s.commit).strat = s.strat := rfl
@[simp] theorem State.commit_overrun : (s.commit).overrun = s.overrun := rfl
@[simp] theorem State.commit_overrunHeld : (s.commit).overrunHeld = s.overrunHeld := rfl
@[simp] theorem State.commit_wrej : (s.commit).wrej = s.wrej := rfl
@[simp] theorem State.commit_err : (s.commit).err = .ok := rfl
@[simp] theorem State.commit_shortLen : (s.commit).shortLen = s.shortLen := rfl
@[simp] theorem State.commit_fixDir : (s.commit).fixDir = s.fixDir := rfl
@[simp] theorem State.commit_src : (s.commit).src = s.src := rfl
@[simp] theorem State.commit_len : (s.commit).len = s.len := rfl
@[simp] theorem State.commit_dst : (s.commit).dst = s.dst := rfl
@[simp] theorem State.commit_outLen : (s.commit).outLen = s.outLen := rfl
@[simp] theorem State.commit_acc : (s.commit).acc = s.acc := rfl
@[simp] theorem State.commit_suffix : (s.commit).suffix = s.suffix := rfl
@[simp] theorem State.commit_hdr : (s.commit).hdr = s.hdr := rfl
@[simp] theorem State.commit_cfgTag : (s.commit).cfgTag = s.cfgTag := rfl
@[simp] theorem State.commit_cfgSanity : (s.commit).cfgSanity = s.cfgSanity := rfl
@[simp] theorem State.commit_entry : (s.commit).entry = s.entry := rfl
@[simp] theorem State.commit_tidx : (s.commit).tidx = s.tidx := rfl
@[simp] theorem State.commit_tcount : (s.commit).tcount = s.tcount := rfl
@[simp] theorem State.commit_fixLen : (s.commit).fixLen = s.fixLen := rfl
@[simp] theorem State.commit_ibuf : (s.commit).ibuf = s.ibuf := rfl
@[simp] theorem State.commit_obuf : (s.commit).obuf = s.obuf := rfl
@[simp] theorem State.commit_tbl : (s.commit).tbl = s.tbl := rfl
@[simp] theorem State.commit_pend : (s.commit).pend = none := rfl
@[simp] theorem State.commit_events : (s.commit).events = s.events := rfl
@[simp] theorem State.commit_resp : (s.commit).resp = s.resp := rfl

end

section
variable (s : State) (c : ErrCode)

@[simp] theorem State.raise_params : (s.raise c).params = s.params := rfl
@[simp] theorem State.raise_sufRule : (s.raise c).sufRule = s.sufRule := rfl
@[simp] theorem State.raise_noFixLen : (s.raise c).noFixLen = s.noFixLen := rfl
@[simp] theorem State.raise_fault : (s.raise c).fault = (s.fault || c == .invariant) := rfl
@[simp] theorem State.raise_ckok : (s.raise c).ckok = s.ckok := rfl
@[simp] theorem State.raise_covok : (s.raise c).covok = s.covok := rfl
@[simp] theorem State.raise_strat : (s.raise c).strat = s.strat := rfl
@[simp] theorem State.raise_overrun : (s.raise c).overrun = s.overrun := rfl
@[simp] theorem State.raise_overrunHeld : (s.raise c).overrunHeld = s.overrunHeld := rfl
@[simp] theorem State.raise_wrej : (s.raise c).wrej = s.wrej := rfl
@[simp] theorem State.raise_err : (s.raise c).err = c := rfl
@[simp] theorem State.raise_shortLen : (s.raise c).shortLen = s.shortLen := rfl
@[simp] theorem State.raise_fixDir : (s.raise c).fixDir = s.fixDir := rfl
@[simp] theorem State.raise_src : (s.raise c).src = s.src := rfl
@[simp] theorem State.raise_len : (s.raise c).len = s.len := rfl
@[simp] theorem State.raise_dst : (s.raise c).dst = s.dst := rfl
@[simp] theorem State.raise_outLen : (s.raise c).outLen = s.outLen := rfl
@[simp] theorem State.raise_acc : (s.raise c).acc = s.acc := rfl
@[simp] theorem State.raise_suffix : (s.raise c).suffix = s.suffix := rfl
@[simp] theorem State.raise_hdr : (s.raise c).hdr = s.hdr := rfl
@[simp] theorem State.raise_cfgTag : (s.raise c).cfgTag = s.cfgTag := rfl
@[simp] theorem State.raise_cfgSanity : (s.raise c).cfgSanity = s.cfgSanity := rfl
@[simp] theorem State.raise_entry : (s.raise c).entry = s.entry := rfl
@[simp] theorem State.raise_tidx : (s.raise c).tidx = s.tidx := rfl
@[simp] theorem State.raise_tcount : (s.raise c).tcount = s.tcount := rfl
@[simp] theorem State.raise_fixLen : (s.raise c).fixLen = s.fixLen := rfl
@[simp] theorem State.raise_ibuf : (s.raise c).ibuf = s.ibuf := rfl
@[simp] theorem State.raise_obuf : (s.raise c).obuf = s.obuf := rfl
@[simp] theorem State.raise_tbl : (s.raise c).tbl = s.tbl := rfl
@[simp] theorem State.raise_pend : (s.raise c).pend = none := rfl
@[simp] theorem State.raise_events : (s.raise c).events = s.events := rfl
@[simp] theorem State.raise_resp : (s.raise c).resp = s.resp := rfl

end

section
variable (s : State) (e : Bool) (d : Word)

@[simp] theorem State.respond_params : (s.respond e d).params = s.params := rfl
@[simp] theorem State.respond_sufRule : (s.respond e d).sufRule = s.sufRule := rfl
@[simp] theorem State.respond_noFixLen : (s.respond e d).noFixLen = s.noFixLen := rfl
@[simp] theorem State.respond_fault : (s.respond e d).fault = s.fault := rfl
@[simp] theorem State.respond_ckok : (s.respond e d).ckok = s.ckok := rfl
@[simp] theorem State.respond_covok : (s.respond e d).covok = s.covok := rfl
@[simp] theorem State.respond_strat : (s.respond e d).strat = s.strat := rfl
@[simp] theorem State.respond_overrun : (s.respond e d).overrun = s.overrun := rfl
@[simp] theorem State.respond_overrunHeld : (s.respond e d).overrunHeld = s.overrunHeld := rfl
@[simp] theorem State.respond_wrej : (s.respond e d).wrej = s.wrej := rfl
@[simp] theorem State.respond_err : (s.respond e d).err = s.err := rfl
@[simp] theorem State.respond_shortLen : (s.respond e d).shortLen = s.shortLen := rfl
@[simp] theorem State.respond_fixDir : (s.respond e d).fixDir = s.fixDir := rfl
@[simp] theorem State.respond_src : (s.respond e d).src = s.src := rfl
@[simp] theorem State.respond_len : (s.respond e d).len = s.len := rfl
@[simp] theorem State.respond_dst : (s.respond e d).dst = s.dst := rfl
@[simp] theorem State.respond_outLen : (s.respond e d).outLen = s.outLen := rfl
@[simp] theorem State.respond_acc : (s.respond e d).acc = s.acc := rfl
@[simp] theorem State.respond_suffix : (s.respond e d).suffix = s.suffix := rfl
@[simp] theorem State.respond_hdr : (s.respond e d).hdr = s.hdr := rfl
@[simp] theorem State.respond_cfgTag : (s.respond e d).cfgTag = s.cfgTag := rfl
@[simp] theorem State.respond_cfgSanity : (s.respond e d).cfgSanity = s.cfgSanity := rfl
@[simp] theorem State.respond_entry : (s.respond e d).entry = s.entry := rfl
@[simp] theorem State.respond_tidx : (s.respond e d).tidx = s.tidx := rfl
@[simp] theorem State.respond_tcount : (s.respond e d).tcount = s.tcount := rfl
@[simp] theorem State.respond_fixLen : (s.respond e d).fixLen = s.fixLen := rfl
@[simp] theorem State.respond_ibuf : (s.respond e d).ibuf = s.ibuf := rfl
@[simp] theorem State.respond_obuf : (s.respond e d).obuf = s.obuf := rfl
@[simp] theorem State.respond_tbl : (s.respond e d).tbl = s.tbl := rfl
@[simp] theorem State.respond_pend : (s.respond e d).pend = s.pend := rfl
@[simp] theorem State.respond_events : (s.respond e d).events = s.events := rfl
@[simp] theorem State.respond_resp : (s.respond e d).resp = some { error := e, data := d } := rfl

end

section
variable (s : State) (w : Word)

@[simp] theorem State.accept_params : (s.accept w).params = s.params := rfl
@[simp] theorem State.accept_sufRule : (s.accept w).sufRule = s.sufRule := rfl
@[simp] theorem State.accept_noFixLen : (s.accept w).noFixLen = s.noFixLen := rfl
@[simp] theorem State.accept_fault : (s.accept w).fault = s.fault := rfl
@[simp] theorem State.accept_ckok : (s.accept w).ckok = s.ckok := rfl
@[simp] theorem State.accept_covok : (s.accept w).covok = s.covok := rfl
@[simp] theorem State.accept_strat : (s.accept w).strat = s.strat := rfl
@[simp] theorem State.accept_overrun : (s.accept w).overrun = s.overrun := rfl
@[simp] theorem State.accept_overrunHeld : (s.accept w).overrunHeld = s.overrun := rfl
@[simp] theorem State.accept_wrej : (s.accept w).wrej = s.wrej := rfl
@[simp] theorem State.accept_err : (s.accept w).err = s.err := rfl
@[simp] theorem State.accept_shortLen : (s.accept w).shortLen = s.shortLen := rfl
@[simp] theorem State.accept_fixDir : (s.accept w).fixDir = s.fixDir := rfl
@[simp] theorem State.accept_src : (s.accept w).src = s.src := rfl
@[simp] theorem State.accept_len : (s.accept w).len = s.len := rfl
@[simp] theorem State.accept_dst : (s.accept w).dst = s.dst := rfl
@[simp] theorem State.accept_outLen : (s.accept w).outLen = s.outLen := rfl
@[simp] theorem State.accept_acc : (s.accept w).acc = s.acc := rfl
@[simp] theorem State.accept_suffix : (s.accept w).suffix = s.suffix := rfl
@[simp] theorem State.accept_hdr : (s.accept w).hdr = s.hdr := rfl
@[simp] theorem State.accept_cfgTag : (s.accept w).cfgTag = s.cfgTag := rfl
@[simp] theorem State.accept_cfgSanity : (s.accept w).cfgSanity = s.cfgSanity := rfl
@[simp] theorem State.accept_entry : (s.accept w).entry = s.entry := rfl
@[simp] theorem State.accept_tidx : (s.accept w).tidx = s.tidx := rfl
@[simp] theorem State.accept_tcount : (s.accept w).tcount = s.tcount := rfl
@[simp] theorem State.accept_fixLen : (s.accept w).fixLen = s.fixLen := rfl
@[simp] theorem State.accept_ibuf : (s.accept w).ibuf = s.ibuf := rfl
@[simp] theorem State.accept_obuf : (s.accept w).obuf = s.obuf := rfl
@[simp] theorem State.accept_tbl : (s.accept w).tbl = s.tbl := rfl
@[simp] theorem State.accept_pend : (s.accept w).pend = some w := rfl
@[simp] theorem State.accept_events : (s.accept w).events = s.events := rfl
@[simp] theorem State.accept_resp : (s.accept w).resp = s.resp := rfl

end

end Sys2Proof.Machine
end

