-- ==== Sys2Proof/Laws/Ops.lean ====
section
/-! SUPPORT. What a command can do: how it ends, the table after an update, the lengths of what it writes, and one
inversion lemma over all commands. -/

namespace Sys2Proof.Machine

@[simp] theorem finish_ok (s t : State) : finish s (.ok t) = .next t.commit := rfl
@[simp] theorem finish_error (s : State) (c : ErrCode) : finish s (.error c) = .next (s.raise c) := rfl

/-- An error that is no INVARIANT changes ERR and PEND only (60_exceptions.md R243). -/
theorem raise_eq (s : State) (c : ErrCode) (h : c ≠ .invariant) : s.raise c = { s with err := c, pend := none } := by
  cases c <;> first | exact absurd rfl h | simp [State.raise]

/-- The table after it is written: what was written, as long as TCOUNT holds its length. -/
theorem entries_setTable (s : State) (es : List Entry) (h : es.length < 65536) : (s.setTable es).entries = es := by
  simp [State.entries, Nat.mod_eq_of_lt h]

theorem entries_setCount_zero (s : State) : (s.setCount 0).entries = [] := by simp [State.entries]

@[simp] theorem entries_commit (s : State) : s.commit.entries = s.entries := rfl
@[simp] theorem entries_setCovok (s : State) (b : Bool) : (s.setCovok b).entries = s.entries := rfl

theorem length_entries (s : State) (h : s.tcount.toNat ≤ s.tbl.length) : s.entries.length = s.tcount.toNat := by
  simp [State.entries, h]

@[simp] theorem length_input (s : State) : s.input.length = s.len.toNat := by simp [State.input]

@[simp] theorem length_header16 (s : State) : (header16 s).length = 16 := by simp [header16, le16]

@[simp] theorem length_blockBody0 (s : State) : (blockBody0 s).length = s.len.toNat + 1 := by
  simp [blockBody0, transform]

/-- BLK_SER writes LEN + 22 bytes (41_block.md R136). -/
theorem length_blockBytes (s : State) (xy : BytePair) : (blockBytes s xy).length = s.len.toNat + 22 := by
  simp [blockBytes, le24]; omega

@[simp] theorem length_entryBytes (st : Strategy) (e : Entry) : (entryBytes st e).length = st.entrySize := by
  cases st <;> rfl

/-- A serialized table has `k·m + 1` bytes (42_table.md R164). -/
theorem length_tableBytes (st : Strategy) (es : List Entry) :
    (tableBytes st es).length = st.entrySize * es.length + 1 := by
  simp [tableBytes, List.length_flatMap, Nat.mul_comm]

/-- BLK_SER, by cases of its checks. -/
theorem execBlkSer_eq (s : State) :
    execBlkSer s =
      if s.params.ibufSize < s.src.toNat + s.len.toNat then .next (s.raise .range)
      else if 0xFFFFFF < s.len.toNat + 3 then .next (s.raise .length)
      else if s.params.obufSize < s.dst.toNat + s.len.toNat + 22 then .next (s.raise .range)
      else .next (((s.emit (blockBytes s (suffixOf (blockBody0 s) s.sufRule))).setSolved
        (suffixOf (blockBody0 s) s.sufRule) terminal)).commit := by
  unfold execBlkSer
  rw [solve_eq]
  simp only [State.inputFits, State.outputFits, Bool.not_eq_true', decide_eq_false_iff_not, Nat.not_le, gt_iff_lt,
    ← Nat.add_assoc]
  repeat' split
  all_goals rfl

/-- CK_RUN, by cases of its check. -/
theorem execCkRun_eq (s : State) :
    execCkRun s =
      if s.src.toNat + s.len.toNat ≤ s.params.ibufSize then .next (s.setAcc (engine s.input s.acc)).commit
      else .next (s.raise .range) := by
  simp only [execCkRun, State.inputFits, decide_eq_true_eq]
  split <;> rfl

/-- CK_SOLVE, by cases of its check. -/
theorem execCkSolve_eq (s : State) :
    execCkSolve s =
      if s.src.toNat + s.len.toNat ≤ s.params.ibufSize then
        .next (s.setSolved (suffixOf s.input s.sufRule) terminal).commit
      else .next (s.raise .range) := by
  unfold execCkSolve
  rw [solve_eq]
  simp only [State.inputFits, decide_eq_true_eq]
  split <;> rfl

/-- CK_SOLVE_ACC, by the suffix rule. -/
theorem execCkSolveAcc_eq (s : State) :
    execCkSolveAcc s =
      match s.sufRule with
      | .contract => .next (s.setSolved (contractSuffix s.acc) terminal).commit
      | .literal => .next (s.raise .mode) := by
  unfold execCkSolveAcc
  cases s.sufRule
  · simp only [engine_contractSuffix, if_true]; rfl
  · rfl

/-- TBL_GEN of a word that is not admissible raises CONFIG (43_generators.md R190). -/
theorem generate_none (s : State) : generate s none = .next (s.raise .config) := rfl

/-- TBL_GEN of an admissible word: CAPACITY, else the table. The assertion never fails (43_generators.md R190, R214). -/
theorem generate_some (s : State) (g : Gen) (h : g ∈ Gen.admitted) :
    generate s (some g) =
      if s.params.tblCap < g.table.length then .next (s.raise .capacity)
      else .next ((s.setTable g.table).setCovok true).commit := by
  simp only [generate, assertion_holds g h, if_true, gt_iff_lt]
  split <;> rfl

/-- What a command writes on success: the state it stages, by command. SRESET stands apart. -/
inductive Staged (s : State) : Instr → State → Prop where
  | nop : Staged s .nop s
  | ckSeed (l h : Byte) : Staged s (.ckSeed l h) (s.setAcc ⟨l, h⟩)
  | ckByte (b : Byte) : Staged s (.ckByte b) (s.setAcc (ckStep s.acc b))
  | ckRun : s.src.toNat + s.len.toNat ≤ s.params.ibufSize → Staged s .ckRun (s.setAcc (engine s.input s.acc))
  | ckSolve : s.src.toNat + s.len.toNat ≤ s.params.ibufSize →
      Staged s .ckSolve (s.setSolved (suffixOf s.input s.sufRule) terminal)
  | ckSolveAcc : s.sufRule = .contract → Staged s .ckSolveAcc (s.setSolved (contractSuffix s.acc) terminal)
  | ckCheck : Staged s .ckCheck (s.setCkok (ckokOf s.acc))
  | blkSer : s.src.toNat + s.len.toNat ≤ s.params.ibufSize → s.len.toNat + 3 ≤ 0xFFFFFF →
      s.dst.toNat + s.len.toNat + 22 ≤ s.params.obufSize →
      Staged s .blkSer ((s.emit (blockBytes s (suffixOf (blockBody0 s) s.sufRule))).setSolved
        (suffixOf (blockBody0 s) s.sufRule) terminal)
  | tblClear : Staged s .tblClear ((s.setCount 0).setCovok false)
  | tblAppend : (Entry.ofWord s.entry).valid = true → s.tcount.toNat ≠ s.params.tblCap →
      Staged s .tblAppend ((s.setTable (s.entries ++ [Entry.ofWord s.entry])).setCovok false)
  | tblSplit (chunk : Nat) (e : Entry) (subs : List Entry) : s.entries[s.tidx.toNat]? = some e →
      splitEntry e chunk = some subs → s.entries.length - 1 + subs.length ≤ s.params.tblCap →
      Staged s (.tblSplit chunk)
        ((s.setTable (s.entries.take s.tidx.toNat ++ subs ++ s.entries.drop (s.tidx.toNat + 1))).setCovok false)
  | tblGenComb (var : BitVec 3) (sz : Nat) (g : Gen) : admitComb var sz = some g → g ∈ Gen.admitted →
      g.table.length ≤ s.params.tblCap → Staged s (.tblGenComb var sz) ((s.setTable g.table).setCovok true)
  | tblGenLinear (var : BitVec 3) (sz : Nat) (g : Gen) : admitLinear var sz = some g → g ∈ Gen.admitted →
      g.table.length ≤ s.params.tblCap → Staged s (.tblGenLinear var sz) ((s.setTable g.table).setCovok true)
  | tblGenAttrSq (var : BitVec 3) (sz : Nat) (g : Gen) : admitAttrSq var sz = some g → g ∈ Gen.admitted →
      g.table.length ≤ s.params.tblCap → Staged s (.tblGenAttrSq var sz) ((s.setTable g.table).setCovok true)
  | tblSer (e : Entry) (es : List Entry) : s.entries = e :: es →
      s.dst.toNat + ((strategyOf (e :: es) s.noFixLen).entrySize * (e :: es).length + 1) ≤ s.params.obufSize →
      Staged s .tblSer ((s.emit (tableBytes (strategyOf (e :: es) s.noFixLen) (e :: es))).setReport
        (strategyOf (e :: es) s.noFixLen) (if strategyOf (e :: es) s.noFixLen = .fixed then e.len.setWidth 16 else 0)
        (shortLenOf (e :: es)) (fixDirOf (e :: es)))
  | tblCheck : Staged s .tblCheck (s.setCovok (covers s.entries))
  | tblRead (e : Entry) : s.entries[s.tidx.toNat]? = some e → Staged s .tblRead (s.setEntry e.toWord)

/-- What no staged state changes: the operands, the configuration, IBUF, the parameters, FAULT, OVERRUN, WREJ, the
events to come, the bus's last answer (00_scope.md R9). -/
theorem Staged.keeps {s t : State} {i : Instr} (h : Staged s i t) :
    t.params = s.params ∧ t.sufRule = s.sufRule ∧ t.noFixLen = s.noFixLen ∧ t.fault = s.fault ∧ t.overrun = s.overrun ∧
    t.wrej = s.wrej ∧ t.src = s.src ∧ t.len = s.len ∧ t.dst = s.dst ∧ t.hdr = s.hdr ∧ t.cfgTag = s.cfgTag ∧
    t.cfgSanity = s.cfgSanity ∧ t.tidx = s.tidx ∧ t.ibuf = s.ibuf ∧ t.events = s.events ∧ t.resp = s.resp := by
  cases h <;> simp

/-- What only some commands change: the writers of each result (10_state.md section 2). -/
theorem Staged.writers {s t : State} {i : Instr} (h : Staged s i t) :
    (t.outLen ≠ s.outLen ∨ t.obuf ≠ s.obuf → i.mnemonic ∈ ["BLK_SER", "TBL_SER"]) ∧
    (t.acc ≠ s.acc → i.mnemonic ∈ ["CK_SEED", "CK_BYTE", "CK_RUN", "CK_SOLVE", "CK_SOLVE_ACC", "BLK_SER"]) ∧
    (t.suffix ≠ s.suffix → i.mnemonic ∈ ["CK_SOLVE", "CK_SOLVE_ACC", "BLK_SER"]) ∧
    (t.entry ≠ s.entry → i.mnemonic ∈ ["TBL_READ"]) ∧
    (t.tcount ≠ s.tcount → i.mnemonic ∈ ["TBL_CLEAR", "TBL_APPEND", "TBL_SPLIT", "TBL_GEN.COMB", "TBL_GEN.LINEAR",
      "TBL_GEN.ATTRSQ"]) ∧
    (t.fixLen ≠ s.fixLen ∨ t.strat ≠ s.strat ∨ t.shortLen ≠ s.shortLen ∨ t.fixDir ≠ s.fixDir →
      i.mnemonic ∈ ["TBL_SER"]) ∧
    (t.ckok ≠ s.ckok → i.mnemonic ∈ ["CK_SOLVE", "CK_SOLVE_ACC", "CK_CHECK", "BLK_SER"]) ∧
    (t.covok ≠ s.covok → i.mnemonic ∈ ["TBL_CHECK", "TBL_CLEAR", "TBL_APPEND", "TBL_SPLIT", "TBL_GEN.COMB",
      "TBL_GEN.LINEAR", "TBL_GEN.ATTRSQ"]) ∧
    (t.tbl ≠ s.tbl → i.mnemonic ∈ ["TBL_APPEND", "TBL_SPLIT", "TBL_GEN.COMB", "TBL_GEN.LINEAR", "TBL_GEN.ATTRSQ"]) := by
  cases h <;> simp [Instr.mnemonic]

/-- Everything a command can do: commit what it staged, end with an error that is neither OK nor INVARIANT, or reset
(30_encoding.md R90; 60_exceptions.md R243, R246). -/
theorem exec_cases (i : Instr) (s : State) :
    (∃ t, Staged s i t ∧ exec i s = .next t.commit) ∨
    (∃ c, c ≠ .ok ∧ c ≠ .invariant ∧ exec i s = .next (s.raise c)) ∨
    (i = .sreset ∧ exec i s = .next s.softReset) := by
  cases i with
  | nop => exact .inl ⟨_, .nop, rfl⟩
  | ckSeed l h => exact .inl ⟨_, .ckSeed l h, rfl⟩
  | ckByte b => exact .inl ⟨_, .ckByte b, rfl⟩
  | ckRun =>
    simp only [exec, execCkRun_eq]
    split
    · exact .inl ⟨_, .ckRun ‹_›, rfl⟩
    · exact .inr (.inl ⟨.range, by decide, by decide, rfl⟩)
  | ckSolve =>
    simp only [exec, execCkSolve_eq]
    split
    · exact .inl ⟨_, .ckSolve ‹_›, rfl⟩
    · exact .inr (.inl ⟨.range, by decide, by decide, rfl⟩)
  | ckSolveAcc =>
    simp only [exec, execCkSolveAcc_eq]
    split
    · exact .inl ⟨_, .ckSolveAcc ‹_›, rfl⟩
    · exact .inr (.inl ⟨.mode, by decide, by decide, rfl⟩)
  | ckCheck => exact .inl ⟨_, .ckCheck, rfl⟩
  | blkSer =>
    simp only [exec, execBlkSer_eq]
    split
    · exact .inr (.inl ⟨.range, by decide, by decide, rfl⟩)
    split
    · exact .inr (.inl ⟨.length, by decide, by decide, rfl⟩)
    split
    · exact .inr (.inl ⟨.range, by decide, by decide, rfl⟩)
    · exact .inl ⟨_, .blkSer (by omega) (by omega) (by omega), rfl⟩
  | tblClear => exact .inl ⟨_, .tblClear, rfl⟩
  | tblAppend =>
    simp only [exec, execTblAppend]
    split
    · exact .inr (.inl ⟨.shape, by decide, by decide, rfl⟩)
    split
    · exact .inr (.inl ⟨.capacity, by decide, by decide, rfl⟩)
    · exact .inl ⟨_, .tblAppend (by simpa using ‹¬ (!_) = true›) ‹_›, rfl⟩
  | tblSplit chunk =>
    simp only [exec, execTblSplit]
    split
    · exact .inr (.inl ⟨.shape, by decide, by decide, rfl⟩)
    split
    · exact .inr (.inl ⟨.shape, by decide, by decide, rfl⟩)
    split
    · exact .inr (.inl ⟨.capacity, by decide, by decide, rfl⟩)
    · exact .inl ⟨_, .tblSplit chunk _ _ ‹_› ‹_› (by omega), rfl⟩
  | tblGenComb var sz =>
    simp only [exec, execTblGenComb]
    cases hg : admitComb var sz with
    | none => exact .inr (.inl ⟨.config, by decide, by decide, rfl⟩)
    | some g =>
      rw [generate_some s g (admitComb_mem var sz g hg)]
      split
      · exact .inr (.inl ⟨.capacity, by decide, by decide, rfl⟩)
      · exact .inl ⟨_, .tblGenComb var sz g hg (admitComb_mem var sz g hg) (by omega), rfl⟩
  | tblGenLinear var sz =>
    simp only [exec, execTblGenLinear]
    cases hg : admitLinear var sz with
    | none => exact .inr (.inl ⟨.config, by decide, by decide, rfl⟩)
    | some g =>
      rw [generate_some s g (admitLinear_mem var sz g hg)]
      split
      · exact .inr (.inl ⟨.capacity, by decide, by decide, rfl⟩)
      · exact .inl ⟨_, .tblGenLinear var sz g hg (admitLinear_mem var sz g hg) (by omega), rfl⟩
  | tblGenAttrSq var sz =>
    simp only [exec, execTblGenAttrSq]
    cases hg : admitAttrSq var sz with
    | none => exact .inr (.inl ⟨.config, by decide, by decide, rfl⟩)
    | some g =>
      rw [generate_some s g (admitAttrSq_mem var sz g hg)]
      split
      · exact .inr (.inl ⟨.capacity, by decide, by decide, rfl⟩)
      · exact .inl ⟨_, .tblGenAttrSq var sz g hg (admitAttrSq_mem var sz g hg) (by omega), rfl⟩
  | tblSer =>
    simp only [exec, execTblSer]
    split
    · exact .inr (.inl ⟨.shape, by decide, by decide, rfl⟩)
    split
    · exact .inr (.inl ⟨.range, by decide, by decide, rfl⟩)
    · rename_i hfit
      simp only [State.outputFits, Bool.not_eq_true', decide_eq_false_iff_not, not_not] at hfit
      exact .inl ⟨_, .tblSer _ _ ‹_› hfit, rfl⟩
  | tblCheck => exact .inl ⟨_, .tblCheck, rfl⟩
  | tblRead =>
    simp only [exec, execTblRead]
    split
    · exact .inr (.inl ⟨.shape, by decide, by decide, rfl⟩)
    · exact .inl ⟨_, .tblRead _ ‹_›, rfl⟩
  | sreset => exact .inr (.inr ⟨rfl, rfl⟩)

end Sys2Proof.Machine
end

