-- ==== Sys2Proof/Laws/Frame.lean ====
section
/-! SUPPORT. The frame of a command that succeeds: what a staged state keeps, STATUS under each of the masks. -/

namespace Sys2Proof.Machine

theorem statusWord_and (s : State) (m : Word) :
    s.statusWord &&& m =
      (bitAt s.busy 0 &&& m) ||| (bitAt s.fault 1 &&& m) ||| (bitAt s.ckok 2 &&& m) ||| (bitAt s.covok 3 &&& m) |||
      (BitVec.ofNat 32 (s.strat.code * 2 ^ 4) &&& m) ||| (bitAt s.overrunShown 6 &&& m) ||| (bitAt s.wrej 7 &&& m) |||
      (BitVec.ofNat 32 (s.err.code * 2 ^ 8) &&& m) ||| (bitAt s.shortLen 12 &&& m) ||| (bitAt s.fixDir 13 &&& m) := by
  unfold State.statusWord
  ext i hi
  simp only [BitVec.getElem_and, BitVec.getElem_or]
  cases m[i] <;> simp

/-- STATUS outside BUSY, ERR, OVERRUN's bit (30_encoding.md R90; 20_memory.md R67). -/
theorem statusKept_done {s t : State} (h : t.fault = s.fault ∧ t.ckok = s.ckok ∧ t.covok = s.covok ∧
    t.strat = s.strat ∧ t.wrej = s.wrej ∧ t.shortLen = s.shortLen ∧ t.fixDir = s.fixDir) :
    StatusKept maskDone s t := by
  obtain ⟨h1, h2, h3, h4, h6, h7, h8⟩ := h
  have hb (b : Bool) : bitAt b 0 &&& ~~~maskDone = 0#32 := by cases b <;> rfl
  have ho (b : Bool) : bitAt b 6 &&& ~~~maskDone = 0#32 := by cases b <;> rfl
  have he (e : ErrCode) : BitVec.ofNat 32 (e.code * 2 ^ 8) &&& ~~~maskDone = 0#32 := by cases e <;> rfl
  simp only [StatusKept, readReg, statusWord_and, hb, ho, he, h1, h2, h3, h4, h6, h7, h8]

/-- STATUS outside BUSY, ERR, OVERRUN's bit and CKOK. -/
theorem statusKept_ckok {s t : State} (h : t.fault = s.fault ∧ t.covok = s.covok ∧
    t.strat = s.strat ∧ t.wrej = s.wrej ∧ t.shortLen = s.shortLen ∧ t.fixDir = s.fixDir) :
    StatusKept maskCkok s t := by
  obtain ⟨h1, h3, h4, h6, h7, h8⟩ := h
  have hb (b : Bool) : bitAt b 0 &&& ~~~maskCkok = 0#32 := by cases b <;> rfl
  have ho (b : Bool) : bitAt b 6 &&& ~~~maskCkok = 0#32 := by cases b <;> rfl
  have hc (b : Bool) : bitAt b 2 &&& ~~~maskCkok = 0#32 := by cases b <;> rfl
  have he (e : ErrCode) : BitVec.ofNat 32 (e.code * 2 ^ 8) &&& ~~~maskCkok = 0#32 := by cases e <;> rfl
  simp only [StatusKept, readReg, statusWord_and, hb, ho, hc, he, h1, h3, h4, h6, h7, h8]

/-- STATUS outside BUSY, ERR, OVERRUN's bit and COVOK. -/
theorem statusKept_covok {s t : State} (h : t.fault = s.fault ∧ t.ckok = s.ckok ∧
    t.strat = s.strat ∧ t.wrej = s.wrej ∧ t.shortLen = s.shortLen ∧ t.fixDir = s.fixDir) :
    StatusKept maskCovok s t := by
  obtain ⟨h1, h3, h4, h6, h7, h8⟩ := h
  have hb (b : Bool) : bitAt b 0 &&& ~~~maskCovok = 0#32 := by cases b <;> rfl
  have ho (b : Bool) : bitAt b 6 &&& ~~~maskCovok = 0#32 := by cases b <;> rfl
  have hc (b : Bool) : bitAt b 3 &&& ~~~maskCovok = 0#32 := by cases b <;> rfl
  have he (e : ErrCode) : BitVec.ofNat 32 (e.code * 2 ^ 8) &&& ~~~maskCovok = 0#32 := by cases e <;> rfl
  simp only [StatusKept, readReg, statusWord_and, hb, ho, hc, he, h1, h3, h4, h6, h7, h8]

/-- STATUS outside BUSY, ERR, OVERRUN's bit and what TBL_SER reports. -/
theorem statusKept_report {s t : State} (h : t.fault = s.fault ∧ t.ckok = s.ckok ∧ t.covok = s.covok ∧
    t.wrej = s.wrej) : StatusKept maskReport s t := by
  obtain ⟨h1, h2, h3, h6⟩ := h
  have hb (b : Bool) : bitAt b 0 &&& ~~~maskReport = 0#32 := by cases b <;> rfl
  have ho (b : Bool) : bitAt b 6 &&& ~~~maskReport = 0#32 := by cases b <;> rfl
  have h12 (b : Bool) : bitAt b 12 &&& ~~~maskReport = 0#32 := by cases b <;> rfl
  have h13 (b : Bool) : bitAt b 13 &&& ~~~maskReport = 0#32 := by cases b <;> rfl
  have he (e : ErrCode) : BitVec.ofNat 32 (e.code * 2 ^ 8) &&& ~~~maskReport = 0#32 := by cases e <;> rfl
  have hs (e : Strategy) : BitVec.ofNat 32 (e.code * 2 ^ 4) &&& ~~~maskReport = 0#32 := by cases e <;> rfl
  simp only [StatusKept, readReg, statusWord_and, hb, ho, h12, h13, he, hs, h1, h2, h3, h6]

/-- What no staged state changes but SRESET: OVERRUN, IBUF, the parameters, the events to come, the bus's last answer. -/
theorem completed_commit {s t : State}
    (h : t.overrun = s.overrun ∧ t.ibuf = s.ibuf ∧ t.params = s.params ∧ t.events = s.events ∧ t.resp = s.resp) :
    Completed s t.commit := by
  obtain ⟨h0, h1, h2, h3, h4⟩ := h
  exact ⟨rfl, rfl, h0, fun a => by simp [h1], h2, h3, h4⟩

end Sys2Proof.Machine
end

