-- ==== Sys2Proof/Laws/PerInstr.lean ====
section
/-! SUPPORT. Statements per instruction. Family RoundTrip: the word of a well-formed command decodes to that command
(30_encoding.md R81 to R86). -/

namespace Sys2Proof.Laws.RoundTrip

/-- Decoding the encoded command gives the command back. -/
def Statement (i : Instr) : Prop := i.wellFormed = true → decode (encode i) = .ok i

theorem nop : Statement .nop := fun _ => rfl
theorem ckRun : Statement .ckRun := fun _ => rfl
theorem ckSolve : Statement .ckSolve := fun _ => rfl
theorem ckSolveAcc : Statement .ckSolveAcc := fun _ => rfl
theorem ckCheck : Statement .ckCheck := fun _ => rfl
theorem blkSer : Statement .blkSer := fun _ => rfl
theorem tblClear : Statement .tblClear := fun _ => rfl
theorem tblAppend : Statement .tblAppend := fun _ => rfl
theorem tblSer : Statement .tblSer := fun _ => rfl
theorem tblCheck : Statement .tblCheck := fun _ => rfl
theorem tblRead : Statement .tblRead := fun _ => rfl
theorem sreset : Statement .sreset := fun _ => rfl

theorem ckSeed (seedL seedH : Byte) : Statement (.ckSeed seedL seedH) := by
  intro _
  have hw := toNat_formatS seedH seedL 0x01#8
  have hl := seedL.isLt
  have hh := seedH.isLt
  have e0 : field (encode (.ckSeed seedL seedH)) 0 8 = 0x01#8 := field_eq _ _ _ _ (by simp [encode, hw]; omega)
  have e1 : field (encode (.ckSeed seedL seedH)) 8 8 = seedL := field_eq _ _ _ _ (by simp [encode, hw]; omega)
  have e2 : field (encode (.ckSeed seedL seedH)) 16 8 = seedH := field_eq _ _ _ _ (by simp [encode, hw]; omega)
  have e3 : zeroFrom (encode (.ckSeed seedL seedH)) 24 = true := by simp [zeroFrom, encode, hw]; omega
  simp [decode, e0, formatS, e1, e2, e3]

theorem ckByte (imm8 : Byte) : Statement (.ckByte imm8) := by
  intro _
  have hw := toNat_formatB imm8 0x02#8
  have hl := imm8.isLt
  have e0 : field (encode (.ckByte imm8)) 0 8 = 0x02#8 := field_eq _ _ _ _ (by simp [encode, hw])
  have e1 : field (encode (.ckByte imm8)) 8 8 = imm8 := field_eq _ _ _ _ (by simp [encode, hw]; omega)
  have e3 : zeroFrom (encode (.ckByte imm8)) 16 = true := by simp [zeroFrom, encode, hw]; omega
  simp [decode, e0, formatB, e1, e3]

theorem tblSplit (chunk : Nat) : Statement (.tblSplit chunk) := by
  intro wf
  have hc : chunk < 65536 := by simpa [Instr.wellFormed] using wf
  have hw := toNat_formatK chunk 0x22#8
  have e0 : field (encode (.tblSplit chunk)) 0 8 = 0x22#8 := field_eq _ _ _ _ (by simp [encode, hw])
  have e1 : (field (encode (.tblSplit chunk)) 8 16).toNat = chunk := by rw [field_toNat]; simp [encode, hw]; omega
  have e3 : zeroFrom (encode (.tblSplit chunk)) 24 = true := by simp [zeroFrom, encode, hw]; omega
  simp [decode, e0, formatK, e1, e3]

/-- What decoding reads from a format G word (30_encoding.md R85). -/
theorem wordG_fields (fam : BitVec 2) (var : BitVec 3) (sz : Nat) (hs : sz < 4) :
    field (wordG fam var sz) 0 8 = 0x23#8 ∧ field (wordG fam var sz) 8 2 = fam ∧ field (wordG fam var sz) 10 3 = var ∧
    (field (wordG fam var sz) 13 2).toNat = sz ∧ zeroFrom (wordG fam var sz) 15 = true := by
  have hw := toNat_wordG fam var sz
  have hf := fam.isLt
  have hv := var.isLt
  refine ⟨field_eq _ _ _ _ ?_, field_eq _ _ _ _ ?_, field_eq _ _ _ _ ?_, ?_, ?_⟩
  · simp [hw]; omega
  · simp [hw]; omega
  · simp [hw]; omega
  · rw [field_toNat]; simp [hw]; omega
  · simp [zeroFrom, hw]; omega

theorem tblGenComb (var : BitVec 3) (sz : Nat) : Statement (.tblGenComb var sz) := by
  intro wf
  obtain ⟨e0, e1, e2, e3, e4⟩ := wordG_fields 0#2 var sz (by simpa [Instr.wellFormed] using wf)
  simp [decode, encode, e0, formatG, e1, e2, e3, e4]

theorem tblGenLinear (var : BitVec 3) (sz : Nat) : Statement (.tblGenLinear var sz) := by
  intro wf
  obtain ⟨e0, e1, e2, e3, e4⟩ := wordG_fields 1#2 var sz (by simpa [Instr.wellFormed] using wf)
  simp [decode, encode, e0, formatG, e1, e2, e3, e4]

theorem tblGenAttrSq (var : BitVec 3) (sz : Nat) : Statement (.tblGenAttrSq var sz) := by
  intro wf
  obtain ⟨e0, e1, e2, e3, e4⟩ := wordG_fields 2#2 var sz (by simpa [Instr.wellFormed] using wf)
  simp [decode, encode, e0, formatG, e1, e2, e3, e4]

end Sys2Proof.Laws.RoundTrip
end

