-- ==== Sys2Proof/Laws/Step.lean ====
section
/-! SUPPORT. What a step can do, what a host access can do, and when the invariant carries over. -/

namespace Sys2Proof.Machine

/-- Everything a step can do: wait, run the pending command, raise an error, a host read, a host write, a hardware
reset (20_memory.md R71). -/
theorem step_cases (s t : State) (h : step s = .next t) :
    (∃ es, t = { s with events := es }) ∨
    (∃ es w i, s.pend = some w ∧ decode w = .ok i ∧ exec i { s with events := es } = .next t) ∨
    (∃ es c, c ≠ .invariant ∧ t = State.raise { s with events := es } c) ∨
    (∃ es addr w, t = hostRead { s with events := es } addr w) ∨
    (∃ es addr w data, t = hostWrite { s with events := es } addr w data) ∨
    (∃ es ib ob tb, t = State.hardReset { s with events := es } ib ob tb) := by
  have turn : ∀ es, engineTurn { s with events := es } = .next t →
      (∃ es, t = { s with events := es }) ∨
      (∃ es w i, s.pend = some w ∧ decode w = .ok i ∧ exec i { s with events := es } = .next t) ∨
      (∃ es c, c ≠ .invariant ∧ t = State.raise { s with events := es } c) := by
    intro es h
    unfold engineTurn engineStep at h
    split at h
    · cases h; exact .inl ⟨es, rfl⟩
    split at h
    · cases h; exact .inr (.inr ⟨es, _, by decide, rfl⟩)
    split at h
    · cases h; exact .inr (.inr ⟨es, _, by decide, rfl⟩)
    · exact .inr (.inl ⟨es, _, _, ‹_›, ‹_›, h⟩)
  unfold step nextEvent at h
  split at h
  · rcases turn s.events h with h | h | h
    exacts [.inl h, .inr (.inl h), .inr (.inr (.inl h))]
  · rename_i es _
    rcases turn es h with h | h | h
    exacts [.inl h, .inr (.inl h), .inr (.inr (.inl h))]
  · cases h; exact .inr (.inr (.inr (.inl ⟨_, _, _, rfl⟩)))
  · cases h; exact .inr (.inr (.inr (.inr (.inl ⟨_, _, _, _, rfl⟩))))
  · cases h; exact .inr (.inr (.inr (.inr (.inr ⟨_, _, _, _, rfl⟩))))

/-- While BUSY = 1 every register reads the same whatever happens to OVERRUN, the answer and the events
(20_memory.md R67). -/
theorem readReg_busy (s : State) (w : Word) (ov : Bool) (rsp : Option Response) (es : List Event) (r : Reg) :
    readReg { s with pend := some w, overrun := ov, resp := rsp, events := es } r = readReg { s with pend := some w } r := by
  cases r <;> rfl

/-- A write to CMD changes what one bit of STATUS reads, BUSY, and no other register (10_state.md R25; 20_memory.md
R67). -/
theorem readReg_accept (s : State) (w : Word) (r : Reg) (h : r ≠ .status) : readReg (s.accept w) r = readReg s r := by
  cases r <;> first | rfl | exact absurd rfl h

/-- A host read changes nothing but the bus's answer (20_memory.md R69). -/
theorem hostRead_cases (s : State) (addr : BusAddr) (w : Width) : ∃ r, hostRead s addr w = { s with resp := r } := by
  unfold hostRead; split <;> exact ⟨_, rfl⟩

@[simp] theorem length_bytesLE (v n : Nat) : (bytesLE v n).length = n := by induction n generalizing v <;> simp [bytesLE, *]

/-- A buffer access that is no bus error is aligned and inside the buffer (20_memory.md R62). -/
theorem target_ibuf {p : Params} {addr : BusAddr} {w : Width} {off : Nat} (h : target p addr w = some (.ibuf off)) :
    off % w.bytes = 0 ∧ off + w.bytes ≤ p.ibufSize := by
  unfold target at h
  (repeat' split at h) <;> simp_all [bufferAccess]

theorem target_obuf {p : Params} {addr : BusAddr} {w : Width} {off : Nat} (h : target p addr w = some (.obuf off)) :
    off % w.bytes = 0 ∧ off + w.bytes ≤ p.obufSize := by
  unfold target at h
  (repeat' split at h) <;> simp_all [bufferAccess]

theorem target_ibuf_of {p : Params} {addr : BusAddr} {w : Width} (hp : p.Legal) (ha : addr.toNat % w.bytes = 0)
    (h1 : 0x1000000 ≤ addr.toNat) (h2 : addr.toNat - 0x1000000 + w.bytes ≤ p.ibufSize) :
    target p addr w = some (.ibuf (addr.toNat - 0x1000000)) := by
  obtain ⟨_, _, _, _, _, _⟩ := hp
  have hb : w.bytes = 1 ∨ w.bytes = 2 ∨ w.bytes = 4 := by cases w <;> decide
  unfold target bufferAccess
  rw [if_neg (by omega), if_neg (by omega), if_pos (by omega), if_pos]
  simp only [Bool.and_eq_true, decide_eq_true_eq]
  rcases hb with hb | hb | hb <;> rw [hb] at ha h2 ⊢ <;> omega

theorem target_obuf_of {p : Params} {addr : BusAddr} {w : Width} (hp : p.Legal) (ha : addr.toNat % w.bytes = 0)
    (h1 : 0x2000000 ≤ addr.toNat) (h2 : addr.toNat - 0x2000000 + w.bytes ≤ p.obufSize) :
    target p addr w = some (.obuf (addr.toNat - 0x2000000)) := by
  obtain ⟨_, _, _, _, _, _⟩ := hp
  have hb : w.bytes = 1 ∨ w.bytes = 2 ∨ w.bytes = 4 := by cases w <;> decide
  unfold target bufferAccess
  rw [if_neg (by omega), if_neg (by omega), if_neg (by omega), if_pos (by omega), if_pos]
  simp only [Bool.and_eq_true, decide_eq_true_eq]
  rcases hb with hb | hb | hb <;> rw [hb] at ha h2 ⊢ <;> omega

@[simp] theorem target_regAddr (p : Params) (r : Reg) : target p (regAddr r) .w32 = some (.reg r) := by cases r <;> rfl

theorem target_reserved (p : Params) (addr : BusAddr) (h1 : 0x68 ≤ addr.toNat) (h2 : addr.toNat ≤ 0xFC)
    (h3 : addr.toNat % 4 = 0) : target p addr .w32 = some .reserved := by
  unfold target
  rw [if_pos (by omega), if_pos ⟨rfl, h3⟩]
  have hn : Reg.ofOffset addr.toNat = none := by
    simp only [Reg.ofOffset, List.find?_eq_none, beq_iff_eq, Reg.all]
    intro r _; cases r <;> simp [Reg.offset] <;> omega
  rw [hn]

/-- The bytes of a little-endian value (20_memory.md R64). -/
theorem loadLE_byte (m : Memory) (a n j : Nat) (h : j < n) :
    loadLE m a n / 2 ^ (8 * j) % 256 = (m.read (a + j)).toNat := by
  induction n generalizing a j with
  | zero => omega
  | succ n ih =>
    have h0 := (m.read a).isLt
    cases j with
    | zero => simp [loadLE]; omega
    | succ j =>
      rw [show a + (j + 1) = a + 1 + j by omega, ← ih (a + 1) j (by omega)]
      simp only [loadLE, Nat.mul_add, Nat.pow_add, Nat.mul_one]
      rw [Nat.mul_comm (2 ^ (8 * j)), ← Nat.div_div_eq_div_mul]
      congr 2; omega

theorem getElem?_bytesLE (v n j : Nat) (h : j < n) : (bytesLE v n)[j]? = some (BitVec.ofNat 8 (v / 2 ^ (8 * j))) := by
  induction n generalizing v j with
  | zero => omega
  | succ n ih =>
    cases j with
    | zero => simp [bytesLE]
    | succ j =>
      simp only [bytesLE, List.getElem?_cons_succ]
      rw [ih _ _ (by omega)]
      simp only [Nat.mul_add, Nat.pow_add, Nat.mul_one]
      rw [Nat.mul_comm (2 ^ (8 * j)), ← Nat.div_div_eq_div_mul]

/-- A header write changes HDR or WREJ and nothing else (10_state.md R31). -/
theorem writeHeader_cases (s : State) (v : Word) (put : Header → BitVec 16 → Header) :
    writeHeader s v put = { s with hdr := put s.hdr (v.setWidth 16) } ∨ writeHeader s v put = { s with wrej := true } := by
  unfold writeHeader; split
  · exact .inl rfl
  · exact .inr rfl

theorem writeHeader_keeps (s : State) (v : Word) (put : Header → BitVec 16 → Header) :
    (writeHeader s v put).params = s.params ∧ (writeHeader s v put).fault = s.fault ∧
    (writeHeader s v put).err = s.err ∧ (writeHeader s v put).ibuf = s.ibuf ∧ (writeHeader s v put).obuf = s.obuf ∧
    (writeHeader s v put).tbl = s.tbl ∧ (writeHeader s v put).tcount = s.tcount ∧
    (writeHeader s v put).covok = s.covok := by
  rcases writeHeader_cases s v put with h | h <;> rw [h] <;> exact ⟨rfl, rfl, rfl, rfl, rfl, rfl, rfl, rfl⟩

/-- What a register write changes: never the parameters, FAULT, ERR, the results, the buffers or the table. -/
theorem writeReg_keeps (s : State) (v : Word) (r : Reg) :
    (writeReg s v r).params = s.params ∧ (writeReg s v r).fault = s.fault ∧ (writeReg s v r).err = s.err ∧
    (writeReg s v r).ibuf = s.ibuf ∧ (writeReg s v r).obuf = s.obuf ∧ (writeReg s v r).tbl = s.tbl ∧
    (writeReg s v r).tcount = s.tcount ∧ (writeReg s v r).covok = s.covok := by
  cases r
  all_goals first
    | exact ⟨rfl, rfl, rfl, rfl, rfl, rfl, rfl, rfl⟩
    | exact writeHeader_keeps s v _

/-- Everything a host write can do: nothing but the answer, OVERRUN, a register write, bytes of IBUF, bytes of OBUF
(20_memory.md R62, R65, R66). -/
theorem hostWrite_cases (s : State) (addr : BusAddr) (w : Width) (data : Word) :
    (∃ e, hostWrite s addr w data = s.respond e 0#32) ∨
    (s.busy = true ∧ hostWrite s addr w data = { s with overrun := true }.respond false 0#32) ∨
    (∃ r, s.busy = false ∧ hostWrite s addr w data = (writeReg s data r).respond false 0#32) ∨
    (∃ off bs, s.busy = false ∧ off + bs.length ≤ s.params.ibufSize ∧
      hostWrite s addr w data = { s with ibuf := s.ibuf.write off bs }.respond false 0#32) ∨
    (∃ off bs, s.busy = false ∧ off + bs.length ≤ s.params.obufSize ∧
      hostWrite s addr w data = { s with obuf := s.obuf.write off bs }.respond false 0#32) := by
  unfold hostWrite
  split
  · exact .inl ⟨_, rfl⟩
  rename_i t ht
  cases hb : s.busy with
  | true =>
    rw [if_pos rfl]
    cases t with
    | reserved => exact .inl ⟨_, rfl⟩
    | reg r => exact .inr (.inl ⟨rfl, rfl⟩)
    | ibuf off => exact .inr (.inl ⟨rfl, rfl⟩)
    | obuf off => exact .inr (.inl ⟨rfl, rfl⟩)
  | false =>
    rw [if_neg (by decide)]
    cases t with
    | reserved => exact .inl ⟨_, rfl⟩
    | reg r => exact .inr (.inr (.inl ⟨r, rfl, rfl⟩))
    | ibuf off =>
      exact .inr (.inr (.inr (.inl ⟨off, bytesLE data.toNat w.bytes, rfl, by simpa using (target_ibuf ht).2, rfl⟩)))
    | obuf off =>
      exact .inr (.inr (.inr (.inr ⟨off, bytesLE data.toNat w.bytes, rfl, by simpa using (target_obuf ht).2, rfl⟩)))

/-- After a reset every register reads the reset column (10_state.md section 2; 70_reset_and_hazards.md R270). -/
theorem readReg_resetWith (p : Params) (ibuf obuf : Memory) (tbl : List Entry) (r : Reg) :
    readReg (State.resetWith p ibuf obuf tbl) r = resetColumn p r := by
  cases r <;> simp [readReg, State.resetWith, resetColumn, idWord, State.ctrlWord, State.statusWord,
    State.overrunShown, State.busy, bitAt,
    Strategy.code, ErrCode.code, BytePair.word]

/-- The invariant speaks of the parameters, the buffers, the table and COVOK only. -/
theorem State.Inv.of_same {s t : State} (h : s.Inv) (hp : t.params = s.params) (hi : t.ibuf = s.ibuf)
    (ho : t.obuf = s.obuf) (ht : t.tbl = s.tbl) (hn : t.tcount = s.tcount) (hc : t.covok = s.covok) : t.Inv := by
  have he : t.entries = s.entries := by simp [State.entries, ht, hn]
  refine ⟨?_, ?_, ?_, ?_, ?_, ?_, ?_, ?_, ?_⟩
  all_goals simp only [hp, hi, ho, ht, hn, hc, he]
  exacts [h.1, h.2, h.3, h.4, h.5, h.6, h.7, h.8, h.9]

/-- Output inside OBUF keeps the invariant. -/
theorem State.Inv.of_emit {s : State} (h : s.Inv) (out : List Byte)
    (hl : s.dst.toNat + out.length ≤ s.params.obufSize) : (s.emit out).Inv :=
  ⟨h.1, h.2, h.3, Memory.wf_write _ _ _ h.4, Memory.within_write _ _ _ _ h.5 hl, h.6, h.7, h.8, h.9⟩

/-- A new table keeps the invariant when it fits, its entries are valid and COVOK is not stale. -/
theorem State.Inv.of_table {s : State} (h : s.Inv) (es : List Entry) (b : Bool) (hl : es.length ≤ s.params.tblCap)
    (hv : ∀ e ∈ es, e.valid = true) (hb : b = true → Partitions es) : ((s.setTable es).setCovok b).Inv := by
  have hlt : es.length < 65536 := by have := h.1.2.2.2.2.2; omega
  have he : ((s.setTable es).setCovok b).entries = es := entries_setTable s es hlt
  have h6 := h.6
  refine ⟨h.1, h.2, h.3, h.4, h.5, ?_, ?_, ?_, ?_⟩
  · simp [State.setTable, State.setCovok]; omega
  · simp [State.setTable, State.setCovok, Nat.mod_eq_of_lt hlt]
  · rw [he]; exact hv
  · rw [he]; exact hb

/-- The sub-entries of a valid entry are valid (42_table.md R170). -/
theorem valid_splitEntry (e : Entry) (c : Nat) (subs : List Entry) (h : splitEntry e c = some subs)
    (hv : e.valid = true) : ∀ f ∈ subs, f.valid = true := by
  unfold splitEntry at h
  split at h
  · cases h
  split at h
  · cases h
  split at h
  · cases h
  cases h
  rename_i _ hc0 hm
  intro f hf
  simp only [List.mem_map, List.mem_range] at hf
  obtain ⟨k, hk, rfl⟩ := hf
  rw [valid_iff] at *
  obtain ⟨h1, h2, h3, h4⟩ := hv
  have hd : c * (e.len.toNat / c) = e.len.toNat := by have := Nat.div_add_mod e.len.toNat c; omega
  have hk' : (k + 1) * c ≤ e.len.toNat := by rw [← hd, Nat.mul_comm]; exact Nat.mul_le_mul_left _ hk
  have e1 : (k + 1) * c = k * c + c := by ring
  simp only [Entry.stop, BitVec.toNat_ofNat, dispBase, dispEnd] at *
  omega

end Sys2Proof.Machine
end

