-- ==== Sys2Proof/Tests/Slice0.lean ====
section
/-! SUPPORT. Tests: ill-formed terms, words written out from the formats of 30_encoding.md, one-step vectors of
95_test_vectors.md, and for every statement with hypotheses a state and operands that meet them. -/

namespace Sys2Proof.Tests

open Sys2Proof Sys2Proof.Machine

/-! WellFormed (30_encoding.md R84, R85): an operand past its field is refused. -/

theorem test_wellFormed_split_chunk : (Instr.tblSplit 65536).wellFormed = false := by decide
theorem test_wellFormed_comb_sz : (Instr.tblGenComb 0#3 4).wellFormed = false := by decide
theorem test_wellFormed_linear_sz : (Instr.tblGenLinear 4#3 4).wellFormed = false := by decide
theorem test_wellFormed_attrSq_sz : (Instr.tblGenAttrSq 0#3 4).wellFormed = false := by decide

/-! Decoding: every row's word, written out from 30_encoding.md R81 to R86 and 95_test_vectors.md section 2. -/

theorem test_decode_formatN :
    decode 0b00000000000000000000000000000000#32 = .ok .nop ∧
    decode 0b00000000000000000000000000000011#32 = .ok .ckRun ∧
    decode 0b00000000000000000000000000000100#32 = .ok .ckSolve ∧
    decode 0b00000000000000000000000000000101#32 = .ok .ckSolveAcc ∧
    decode 0b00000000000000000000000000000110#32 = .ok .ckCheck ∧
    decode 0b00000000000000000000000000010000#32 = .ok .blkSer ∧
    decode 0b00000000000000000000000000100000#32 = .ok .tblClear ∧
    decode 0b00000000000000000000000000100001#32 = .ok .tblAppend ∧
    decode 0b00000000000000000000000000100100#32 = .ok .tblSer ∧
    decode 0b00000000000000000000000000100101#32 = .ok .tblCheck ∧
    decode 0b00000000000000000000000000100110#32 = .ok .tblRead ∧
    decode 0b00000000000000000000000011111111#32 = .ok .sreset := ⟨rfl, rfl, rfl, rfl, rfl, rfl, rfl, rfl, rfl, rfl, rfl, rfl⟩

/-- SEEDL in bits 15:8 and SEEDH in bits 23:16 (R83; 95_test_vectors.md 2.2: CK_SEED 12, 34). -/
theorem test_decode_formatS : decode 0b00000000001101000001001000000001#32 = .ok (.ckSeed 0x12#8 0x34#8) := rfl

/-- IMM8 in bits 15:8 (R82; 95_test_vectors.md 2.2: CK_BYTE FE). -/
theorem test_decode_formatB : decode 0b00000000000000001111111000000010#32 = .ok (.ckByte 0xFE#8) := rfl

/-- CHUNK in bits 23:8 (R84; 95_test_vectors.md 2.7: CHUNK 6144 and CHUNK 1). -/
theorem test_decode_formatK :
    decode 0b00000000000110000000000000100010#32 = .ok (.tblSplit 6144) ∧
    decode 0b00000000000000000000000100100010#32 = .ok (.tblSplit 1) := ⟨rfl, rfl⟩

/-- FAM in bits 9:8, VAR in bits 12:10, SZ in bits 14:13 (R85; 95_test_vectors.md 2.8: SQUARE 8, ATTRSQ 8, COMB with
VAR = 6). -/
theorem test_decode_formatG :
    decode 0b00000000000000000111000100100011#32 = .ok (.tblGenLinear 0b100#3 3) ∧
    decode 0b00000000000000000110001000100011#32 = .ok (.tblGenAttrSq 0b000#3 3) ∧
    decode 0b00000000000000000001100000100011#32 = .ok (.tblGenComb 0b110#3 0) := ⟨rfl, rfl, rfl⟩

/-- Rejection by name (R87; the words of 95_test_vectors.md 2.8 and 2.9). -/
theorem test_decode_rejects :
    decode 0x00000007#32 = .error .opcode ∧ decode 0x00000323#32 = .error .family ∧
    decode 0x00008023#32 = .error .fixedBits ∧ decode 0x01000003#32 = .error .fixedBits := ⟨rfl, rfl, rfl, rfl⟩

/-! One step on a small unit. The expected values stand in 95_test_vectors.md, in the subsection named. -/

/-- A unit with 64-byte buffers and eight table entries, after reset. -/
def small : State := State.resetWith { ibufSize := 64, obufSize := 64, tblCap := 8 } [] [] []

/-- With these bytes at IBUF offset 0 and LEN their number. -/
def withInput (bs : List Byte) : State := { small with ibuf := Memory.write [] 0 bs, len := BitVec.ofNat 24 bs.length }

/-- With this table. -/
def withTable (es : List Entry) : State := small.setTable es

/-- With this accumulator. -/
def withAcc (l h : Byte) : State := { small with acc := ⟨l, h⟩ }

/-- With this ENTRY register. -/
def withEntry (w : Word) : State := { small with entry := w }

/-- The state after a step that did not stop. -/
def after (r : Result) : Option State :=
  match r with
  | .next t => some t
  | .fault _ => none
  | .refused _ => none

/-- What an observer reads after a step. -/
def look {α : Type} (r : Result) (f : State → α) : Option α := (after r).map f

/-- 1.1's payload, transformed: B2 91 92 93. -/
def body11 : List Byte := [0xB2#8, 0x91#8, 0x92#8, 0x93#8]

/-- 2.9: NOP clears ERR. -/
theorem test_nop_clears_err : look (exec .nop { small with err := .shape }) (·.err) = some .ok := by decide

/-- 2.2: CK_SEED 12, 34 leaves (12, 34). -/
theorem test_ckSeed : look (exec (.ckSeed 0x12#8 0x34#8) (withAcc 0 0)) (·.acc) = some ⟨0x12#8, 0x34#8⟩ := by decide

/-- 2.2: from (80, 80), CK_BYTE 80 leaves (01, 81): the sum wraps and H takes the new L. -/
theorem test_ckByte_wraps : look (exec (.ckByte 0x80#8) (withAcc 0x80#8 0x80#8)) (·.acc) = some ⟨0x01#8, 0x81#8⟩ := by
  decide

/-- 2.2: from (01, FF), CK_BYTE FE leaves (FF, FF). -/
theorem test_ckByte_allOnes : look (exec (.ckByte 0xFE#8) (withAcc 0x01#8 0xFF#8)) (·.acc) = some terminal := by decide

/-- 1.1: the engine over B2 91 92 93 from (0, 0) ends at (6A, 38). -/
theorem test_ckRun : look (exec .ckRun (withInput body11)) (·.acc) = some ⟨0x6A#8, 0x38#8⟩ := by decide

/-- 2.3's corner: a range one byte past IBUF is RANGE and leaves ACC. -/
theorem test_ckRun_range :
    look (exec .ckRun { withAcc 0x11#8 0x22#8 with src := 63, len := 2 }) (fun t => (t.err, t.acc)) =
      some (.range, ⟨0x11#8, 0x22#8⟩) := by decide

/-- 2.3, last row, SUFRULE 0: (5D, 38). -/
theorem test_ckSolve_contract : look (exec .ckSolve (withInput body11)) (·.suffix) = some ⟨0x5D#8, 0x38#8⟩ := by decide

/-- 2.3, last row, SUFRULE 1: (95, 71). -/
theorem test_ckSolve_literal :
    look (exec .ckSolve { withInput body11 with sufRule := .literal }) (·.suffix) = some ⟨0x95#8, 0x71#8⟩ := by decide

/-- 2.4: from (13, 37) the suffix is (B5, 37). -/
theorem test_ckSolveAcc :
    look (exec .ckSolveAcc (withAcc 0x13#8 0x37#8)) (fun t => (t.suffix, t.acc)) = some (⟨0xB5#8, 0x37#8⟩, terminal) := by
  decide

/-- 2.4: MODE under LITERAL. -/
theorem test_ckSolveAcc_mode :
    look (exec .ckSolveAcc { withAcc 0x13#8 0x37#8 with sufRule := .literal }) (fun t => (t.err, t.acc)) =
      some (.mode, ⟨0x13#8, 0x37#8⟩) := by decide

/-- 2.5: 0xFFFF gives 1. -/
theorem test_ckCheck_one : look (exec .ckCheck (withAcc 0xFF#8 0xFF#8)) (·.ckok) = some true := by decide

/-- 2.5: 0xFF00 gives 0, and clears an old 1. -/
theorem test_ckCheck_zero : look (exec .ckCheck { withAcc 0x00#8 0xFF#8 with ckok := true }) (·.ckok) = some false := by
  decide

/-- 2.6, first row: the ROM header and payload 01 02 03. -/
theorem test_blkSer_rom :
    look (exec .blkSer { withInput [0x01#8, 0x02#8, 0x03#8] with
        hdr := ⟨0x878#16, 0x29B#16, 0x2DF#16, 0x357#16, 0x6AE#16, 0xC97#16, 0x3E8#16⟩ })
      (fun t => t.obuf.readRange 0 26) =
      some [0x11#8, 0x78#8, 0x08#8, 0x9B#8, 0x02#8, 0xDF#8, 0x02#8, 0x57#8, 0x03#8, 0xAE#8, 0x06#8, 0x97#8, 0x0C#8,
        0x08#8, 0xE8#8, 0x03#8, 0x06#8, 0x00#8, 0x00#8, 0xB2#8, 0x91#8, 0x92#8, 0x93#8, 0x5D#8, 0x38#8, 0x00#8] := by
  decide

/-- 2.6, fourth row: LITERAL, no payload, the suffix 4D 00. -/
theorem test_blkSer_literal :
    look (exec .blkSer { small with sufRule := .literal }) (fun t => (t.suffix, t.outLen, t.obuf.readRange 16 6)) =
      some (⟨0x4D#8, 0x00#8⟩, 22#32, [0x03#8, 0x00#8, 0x00#8, 0xB2#8, 0x4D#8, 0x00#8]) := by decide

/-- 42_table.md R172. -/
theorem test_tblClear : look (exec .tblClear (withTable [⟨0x4000#16, 1#15, false⟩])) (·.entries) = some [] := by decide

/-- 2.7: 0x00015AFF is appended. -/
theorem test_tblAppend : look (exec .tblAppend (withEntry 0x00015AFF#32)) (·.entries) = some [⟨0x5AFF#16, 1#15, false⟩] := by
  decide

/-- 2.7: 0x00025AFF ends at 5B01: SHAPE. -/
theorem test_tblAppend_shape :
    look (exec .tblAppend (withEntry 0x00025AFF#32)) (fun t => (t.err, t.tcount)) = some (.shape, 0#16) := by decide

/-- 1.3: (4000, 6144, 0) split by 2048. -/
theorem test_tblSplit :
    look (exec (.tblSplit 2048) (withTable [⟨0x4000#16, 6144#15, false⟩])) (·.entries) =
      some [⟨16384#16, 2048#15, false⟩, ⟨18432#16, 2048#15, false⟩, ⟨20480#16, 2048#15, false⟩] := by decide

/-- 1.3: an entry with `cd = 1` fails. -/
theorem test_tblSplit_cd :
    look (exec (.tblSplit 2048) (withTable [⟨0x4000#16, 6144#15, true⟩])) (fun t => (t.err, t.tcount)) =
      some (.shape, 1#16) := by decide

/-- 2.8: 0x2023, COMB with SZ = 1, is CONFIG. -/
theorem test_tblGenComb_config : look (exec (.tblGenComb 0#3 1) small) (·.err) = some .config := by decide

/-- 2.8: 0x423 starts with (5800,32,0) and ends with (5400,256,1), 48 entries. -/
theorem test_tblGenComb_attr :
    look (exec (.tblGenComb 1#3 0) State.reset) (fun t => (t.tcount, t.entries[0]?, t.entries[47]?)) =
      some (48#16, some ⟨0x5800#16, 32#15, false⟩, some ⟨0x5400#16, 256#15, true⟩) := by decide +kernel

/-- 2.8: 0x523, LINEAR BU, is the one entry (4000, 6912, 1). -/
theorem test_tblGenLinear_bu :
    look (exec (.tblGenLinear 1#3 0) small) (fun t => (t.entries, t.covok)) =
      some ([⟨0x4000#16, 6912#15, true⟩], true) := by decide +kernel

/-- 2.8's last row: an instance too small is CAPACITY and keeps the old table. -/
theorem test_tblGenLinear_capacity :
    look (exec (.tblGenLinear 2#3 0) (withTable [⟨0x4000#16, 1#15, false⟩])) (fun t => (t.err, t.entries)) =
      some (.capacity, [⟨0x4000#16, 1#15, false⟩]) := by decide +kernel

/-- 2.8: 0x6223, ATTRSQ 8: 99 entries, (5800,8,0) (5810,8,0) after the thirds, (5808,8,0) last. -/
theorem test_tblGenAttrSq :
    look (exec (.tblGenAttrSq 0#3 3) State.reset)
      (fun t => (t.tcount, t.entries[3]?, t.entries[4]?, t.entries[98]?)) =
      some (99#16, some ⟨0x5800#16, 8#15, false⟩, some ⟨0x5810#16, 8#15, false⟩, some ⟨0x5808#16, 8#15, false⟩) := by
  decide +kernel

/-- 2.8: 0x623, ATTRSQ with VAR = 1, is CONFIG. -/
theorem test_tblGenAttrSq_config : look (exec (.tblGenAttrSq 1#3 0) small) (·.err) = some .config := by decide

/-- 1.2: the fixed-length table. -/
theorem test_tblSer_fixed :
    look (exec .tblSer (withTable [⟨0x5800#16, 32#15, false⟩, ⟨0x5820#16, 32#15, false⟩]))
      (fun t => (t.obuf.readRange 0 6, t.outLen, t.strat, t.fixLen)) =
      some ([0x58#8, 0x00#8, 0x58#8, 0x20#8, 0x00#8, 0x00#8], 5#32, .fixed, 32#16) := by decide

/-- 2.7: (4000,200,1) (40C8,100,0) goes out as FULL. -/
theorem test_tblSer_full :
    look (exec .tblSer (withTable [⟨0x4000#16, 200#15, true⟩, ⟨0x40C8#16, 100#15, false⟩]))
      (fun t => (t.obuf.readRange 0 9, t.strat, t.shortLen, t.fixDir)) =
      some ([0x40#8, 0x00#8, 0x80#8, 0xC8#8, 0x40#8, 0xC8#8, 0x00#8, 0x64#8, 0x00#8], .full, false, false) := by decide

/-- 2.7: (4000,3456,0) (4D80,3456,1) covers. -/
theorem test_tblCheck_covers :
    look (exec .tblCheck (withTable [⟨0x4000#16, 3456#15, false⟩, ⟨0x4D80#16, 3456#15, true⟩])) (·.covok) = some true := by
  decide

/-- 2.7: a gap of one byte does not. -/
theorem test_tblCheck_gap :
    look (exec .tblCheck (withTable [⟨0x4000#16, 3456#15, false⟩, ⟨0x4D80#16, 3455#15, false⟩])) (·.covok) =
      some false := by decide

/-- The table after the split of 1.3. -/
def thirds : List Entry := [⟨0x4000#16, 2048#15, false⟩, ⟨0x4800#16, 2048#15, false⟩, ⟨0x5000#16, 2048#15, false⟩]

/-- 2.7: TIDX = 2 after the split of 1.3 gives ENTRY = 0x08005000. -/
theorem test_tblRead : look (exec .tblRead { withTable thirds with tidx := 2 }) (·.entry) = some 0x08005000#32 := by decide

/-- 2.7: TIDX = 3 gives SHAPE. -/
theorem test_tblRead_shape :
    look (exec .tblRead { withTable thirds with tidx := 3, entry := 7 }) (fun t => (t.err, t.entry)) =
      some (.shape, 7#32) := by decide

/-- 2.9: SRESET with FAULT = 1: STATUS 0, IBUF kept. -/
theorem test_sreset :
    look (exec .sreset { withInput body11 with fault := true, err := .invariant, src := 5 })
      (fun t => (t.statusWord, t.src, t.cfgTag, t.ibuf.read 1)) = some (0#32, 0#24, 0x11#8, 0x91#8) := by decide

/-- 2.9: a write of 0x10000 to HDR_PILOT is rejected with WREJ. -/
theorem test_bus_wrej :
    look (step { small with events := [.write 0x28#26 .w32 0x00010000#32], hdr := { small.hdr with pilot := 0x878#16 } })
      (fun t => (t.hdr.pilot, t.wrej)) = some (0x878#16, true) := by decide

/-- 20_memory.md R66, R67: a write while BUSY = 1 sets OVERRUN, and a read of STATUS while BUSY = 1 shows the value held
since the write to CMD. -/
theorem test_bus_overrun_held :
    look (step { small with pend := some 0#32, events := [.write 0x10#26 .w32 5#32] }) (fun t => (t.overrun, t.src, readReg t .status)) =
      some (true, 0#24, 1#32) ∧
    look (step { small with overrun := true }) (fun t => readReg t .status) = some 0x40#32 := by decide

/-- 95_test_vectors.md: `WR CMD` then `WR SRC` with the engine step between them, or after both. -/
theorem test_program_turn :
    program [.cmd .nop, .turn, .wr .src 5#32] = [.write 0xC#26 .w32 0#32, .engine, .write 0x10#26 .w32 5#32] ∧
    program [.cmd .nop, .wr .src 5#32, .turn] = [.write 0xC#26 .w32 0#32, .write 0x10#26 .w32 5#32, .engine] := by decide

/-- 2.9: a 32-bit read of four bytes of OBUF, and a misaligned read, a bus error that answers 0. -/
theorem test_bus_read :
    look (step { small with events := [.read 0x2000000#26 .w32],
                            obuf := Memory.write [] 0 [0x11#8, 0x78#8, 0x08#8, 0x9B#8] }) (·.resp) =
      some (some ⟨false, 0x9B087811#32⟩) ∧
    look (step { small with events := [.read 0x1000001#26 .w16] }) (·.resp) = some (some ⟨true, 0#32⟩) := by decide

/-! Witnesses: for every statement with hypotheses, a state and operands that meet all of them, clause by clause, at
the boundary values of each range. -/

/-- A unit with the one-entry table of 95_test_vectors.md 2.7 that covers the region, COVOK = 1. -/
def covered : State := (small.setTable [⟨0x4000#16, 6912#15, false⟩]).setCovok true

/-- A unit whose table of eight entries is full. -/
def full : State := small.setTable (List.replicate 8 ⟨0x5AFF#16, 1#15, false⟩)

/-- A unit with a command pending. -/
def busy : State := { small with pend := some 0#32 }

theorem covered_inv : covered.Inv where
  paramsLegal := by decide
  ibufWf := by decide
  ibufWithin := by decide
  obufWf := by decide
  obufWithin := by decide
  tblWithin := by decide
  countWithin := by decide
  entriesValid := by decide
  covokFresh := fun _ => (covers_iff_partitions covered.entries (by decide)).1 (by decide)

theorem full_inv : full.Inv where
  paramsLegal := by decide
  ibufWf := by decide
  ibufWithin := by decide
  obufWf := by decide
  obufWithin := by decide
  tblWithin := by decide
  countWithin := by decide
  entriesValid := by decide
  covokFresh := fun h => absurd h (by decide)

theorem small_inv : small.Inv where
  paramsLegal := by decide
  ibufWf := by decide
  ibufWithin := by decide
  obufWf := by decide
  obufWithin := by decide
  tblWithin := by decide
  countWithin := by decide
  entriesValid := by decide
  covokFresh := fun h => absurd h (by decide)

/-- The invariant does not speak of ENTRY. -/
theorem withEntry_inv (w : Word) : (withEntry w).Inv :=
  ⟨small_inv.1, small_inv.2, small_inv.3, small_inv.4, small_inv.5, small_inv.6, small_inv.7, small_inv.8, small_inv.9⟩

theorem test_witness_DecodeOfEncode :
    (Instr.ckSeed 0xFF#8 0xFF#8).wellFormed = true ∧ (Instr.ckByte 0xFF#8).wellFormed = true ∧
    (Instr.tblSplit 65535).wellFormed = true ∧ (Instr.tblGenComb 7#3 3).wellFormed = true ∧
    (Instr.tblGenLinear 7#3 3).wellFormed = true ∧ (Instr.tblGenAttrSq 7#3 3).wellFormed = true ∧
    Instr.sreset.wellFormed = true := by decide

theorem test_witness_EncodeOfDecode :
    decode 0x00FFFF22#32 = .ok (.tblSplit 65535) ∧ decode 0x00007D23#32 = .ok (.tblGenLinear 7#3 3) := ⟨rfl, rfl⟩

theorem test_witness_DecoderFollowsTheOpcodeMap :
    ∃ r ∈ opcodeMap, r.matchesWord 0x00007F23#32 = false ∧ r.matchesWord 0x00FFFF22#32 = true ∧
      decode 0x00FFFF22#32 = .ok (.tblSplit 65535) :=
  ⟨⟨"TBL_SPLIT", 0x00000022#32, 0xFF0000FF#32⟩, by decide, by decide, by decide, rfl⟩

theorem test_witness_StepRunsTheDecodedCommand :
    decode 0x0000B202#32 = .ok (.ckByte 0xB2#8) ∧ small.fault = false ∧
    decode 0x000000FF#32 = .ok .sreset ∧ decodeTableWord 16 0xB202 = some (.ckByte 0xB2#8) := ⟨rfl, rfl, rfl, rfl⟩

theorem test_witness_IllegalWordsRaiseIllegal :
    (∀ r ∈ opcodeMap, r.matchesWord 0x00000007#32 = false) ∧ small.fault = false ∧
    (0x000000FE#32 : Word).toNat % 256 ∉ [0, 1, 2, 3, 4, 5, 6, 0x10, 0x20, 0x21, 0x22, 0x23, 0x24, 0x25, 0x26, 0xFF] ∧
    ((0x00007F23#32 : Word).toNat % 256 = 0x23 ∧ (0x00007F23#32 : Word).toNat / 256 % 4 = 3) ∧
    ((0x00000100#32 : Word).toNat % 256 = 0 ∧ (0x00000100#32 : Word).toNat / 2 ^ 8 ≠ 0) ∧
    ((0x00010002#32 : Word).toNat % 256 = 2 ∧ (0x00010002#32 : Word).toNat / 2 ^ 16 ≠ 0) ∧
    ((0x01000022#32 : Word).toNat % 256 ∈ [1, 0x22] ∧ (0x01000022#32 : Word).toNat / 2 ^ 24 ≠ 0) ∧
    ((0x00008023#32 : Word).toNat % 256 = 0x23 ∧ (0x00008023#32 : Word).toNat / 2 ^ 15 ≠ 0) := by decide

theorem test_witness_FaultedUnitAcceptsOnlySreset :
    { small with fault := true }.fault = true ∧ (0x00000000#32 : Word) ≠ 0x000000FF#32 ∧ small.pend = none ∧
    target small.params 0x10#26 .w32 ≠ some (.reg .status) ∧ target small.params 0x08#26 .w8 ≠ some (.reg .status) := by
  decide

theorem test_witness_ErrorsChangeOnlyErrFaultAndBusy :
    ∃ t, step { small with pend := some 0x00000007#32, events := .engine :: [] } = .next t ∧ t.err ≠ .ok :=
  ⟨_, rfl, by decide⟩

theorem test_witness_FaultStaysZero :
    (∃ t, exec .ckCheck small = .next t) ∧ covered.Sound ∧ ∃ t, step covered = .next t :=
  ⟨⟨_, rfl⟩, ⟨rfl, by decide⟩, ⟨_, rfl⟩⟩

theorem test_witness_StepKeepsTheInvariant :
    covered.Inv ∧ ∃ t, step { covered with events := [.write 0x2000000#26 .w8 7#32] } = .next t ∧
      t.obuf ≠ covered.obuf :=
  ⟨covered_inv, _, rfl, by decide⟩

theorem test_witness_ResetMeetsTheInvariant :
    ({ ibufSize := 1, obufSize := 22, tblCap := 1 } : Params).Legal ∧
    ({ ibufSize := 2 ^ 24, obufSize := 2 ^ 24, tblCap := 65535 } : Params).Legal ∧
    Memory.wf [(0, 0x01#8)] ∧ Memory.within [(0, 0x01#8)] 1 ∧ Memory.wf [(21, 0xFF#8)] ∧
    Memory.within [(21, 0xFF#8)] 22 ∧ [Entry.ofWord 0#32].length ≤ 1 := by decide

theorem test_witness_CommandsKeepCtrlSrcLenDstTidxHdrCfgIbuf :
    (∃ t, exec .tblClear small = .next t) ∧ Instr.tblClear ≠ .sreset ∧ ∃ t, exec .sreset small = .next t :=
  ⟨⟨_, rfl⟩, by decide, ⟨_, rfl⟩⟩

theorem test_witness_ResultsChangeOnlyUnderTheirWriters :
    (∃ t, exec .blkSer small = .next t ∧ t.outLen ≠ small.outLen ∧ t.acc ≠ small.acc ∧ t.suffix ≠ small.suffix ∧
      t.ckok ≠ small.ckok ∧ t.obuf ≠ small.obuf) ∧
    (∃ t, exec .tblAppend (withEntry 0x00015AFF#32) = .next t ∧ t.tcount ≠ (withEntry 0x00015AFF#32).tcount ∧
      t.tbl ≠ (withEntry 0x00015AFF#32).tbl) ∧
    (∃ t, exec .tblSer covered = .next t ∧ t.fixLen ≠ covered.fixLen) ∧
    (∃ t, exec .tblRead covered = .next t ∧ t.entry ≠ covered.entry) ∧
    ∃ t, exec .tblClear covered = .next t ∧ t.covok ≠ covered.covok :=
  ⟨⟨_, rfl, by decide⟩, ⟨_, rfl, by decide⟩, ⟨_, rfl, by decide⟩, ⟨_, rfl, by decide⟩, ⟨_, rfl, by decide⟩⟩

/-- Just past REG, just below IBUF, misaligned, just past IBUF, just past OBUF, past the last window. -/
theorem test_witness_BusErrorsChangeNothing :
    small.params.Legal ∧ ¬ Mapped small.params 0x0000100#26 .w32 ∧ ¬ Mapped small.params 0x0FFFFFF#26 .w8 ∧
    ¬ Mapped small.params 0x0000008#26 .w8 ∧ ¬ Mapped small.params 0x1000001#26 .w16 ∧
    ¬ Mapped small.params 0x1000040#26 .w8 ∧ ¬ Mapped small.params 0x2000040#26 .w32 ∧
    ¬ Mapped small.params 0x3000000#26 .w8 := by
  unfold Mapped
  refine ⟨?_, ?_, ?_, ?_, ?_, ?_, ?_, ?_⟩ <;> decide

theorem test_witness_ReservedOffsetsAreInert :
    (0x68 ≤ (0x68#26 : BusAddr).toNat ∧ (0x68#26 : BusAddr).toNat ≤ 0xFC ∧ (0x68#26 : BusAddr).toNat % 4 = 0) ∧
    (0x68 ≤ (0xFC#26 : BusAddr).toNat ∧ (0xFC#26 : BusAddr).toNat ≤ 0xFC ∧ (0xFC#26 : BusAddr).toNat % 4 = 0) := by decide

/-- The first and the last word of each buffer. -/
theorem test_witness_BufferReadsAreLittleEndian :
    small.params.Legal ∧ (0x1000000#26 : BusAddr).toNat % Width.w32.bytes = 0 ∧
    (0x1000000 ≤ (0x100003C#26 : BusAddr).toNat ∧
      (0x100003C#26 : BusAddr).toNat - 0x1000000 + Width.w32.bytes ≤ small.params.ibufSize) ∧
    (0x2000000#26 : BusAddr).toNat % Width.w8.bytes = 0 ∧
    (0x2000000 ≤ (0x200003F#26 : BusAddr).toNat ∧
      (0x200003F#26 : BusAddr).toNat - 0x2000000 + Width.w8.bytes ≤ small.params.obufSize) := by decide

theorem test_witness_BufferWritesChangeOnlyTheAddressedBytes :
    small.params.Legal ∧ small.pend = none ∧ (0x100003E#26 : BusAddr).toNat % Width.w16.bytes = 0 ∧
    (0x1000000 ≤ (0x100003E#26 : BusAddr).toNat ∧
      (0x100003E#26 : BusAddr).toNat - 0x1000000 + Width.w16.bytes ≤ small.params.ibufSize) ∧
    (0x2000000 ≤ (0x2000000#26 : BusAddr).toNat ∧
      (0x2000000#26 : BusAddr).toNat - 0x2000000 + Width.w32.bytes ≤ small.params.obufSize) := by decide

/-- The last register and the first and last reserved offset; the last byte of IBUF. -/
theorem test_witness_WritesWhileBusyAreDropped :
    busy.params.Legal ∧ busy.pend ≠ none ∧ Mapped busy.params 0x64#26 .w32 ∧ Mapped busy.params 0x100003F#26 .w8 ∧
    Mapped busy.params 0x68#26 .w32 ∧ Mapped busy.params 0xFC#26 .w32 ∧
    ¬ (0x68 ≤ (0x64#26 : BusAddr).toNat ∧ (0x64#26 : BusAddr).toNat < 0x100) ∧
    (0x68 ≤ (0xFC#26 : BusAddr).toNat ∧ (0xFC#26 : BusAddr).toNat < 0x100) := by
  unfold Mapped
  refine ⟨?_, ?_, ?_, ?_, ?_, ?_, ?_, ?_⟩ <;> decide

theorem test_witness_EngineDelayDoesNotMatter :
    ∀ e ∈ [Event.read 0x08#26 .w32, .write 0x10#26 .w32 5#32, .read 0x1000001#26 .w16], e.isAccess = true := by decide

theorem test_witness_HeaderWritesAreRangeChecked :
    small.pend = none ∧ Reg.hdrPilot.header ∧ Reg.hdrPause.header ∧ 2 ^ 16 ≤ (0x00010000#32 : Word).toNat ∧
    (0x0000FFFF#32 : Word).toNat < 2 ^ 16 := by
  unfold Reg.header
  refine ⟨?_, ?_, ?_, ?_, ?_⟩ <;> decide

theorem test_witness_CmdWriteIsAcceptance : small.pend = none ∧ busy.pend ≠ none := by decide

theorem test_witness_StatusWriteClearsOverrunAndWrej : { small with overrun := true, wrej := true }.pend = none := by
  decide

theorem test_witness_RegisterWritesReadBack :
    small.pend = none ∧ writableBits .ctrl = some 3#32 ∧ writableBits .tidx = some 0xFFFF#32 ∧
    Reg.id.readOnly ∧ Reg.capTbl.readOnly := by
  unfold Reg.readOnly
  refine ⟨?_, ?_, ?_, ?_, ?_⟩ <;> decide

theorem test_witness_ConstantRegistersNeverChange : small.params.Legal ∧ ∃ t, step busy = .next t :=
  ⟨by decide, _, rfl⟩

theorem test_witness_SuffixChangesWithEveryBitFlip : 3 < body11.length ∧ 0 < 8 ∧ 7 < 8 := by decide

/-- A range that ends at the last byte of IBUF, one that ends a byte past it, and an empty one at its end. -/
theorem test_witness_CkRunAbsorbsTheInputRange :
    (let s := { withInput body11 with src := 60 }
     ∃ d : List Byte, d.length = s.len.toNat ∧ (∀ (i : Nat) (hi : i < d.length), d[i] = s.ibuf.read (s.src.toNat + i)) ∧
       s.src.toNat + s.len.toNat ≤ s.params.ibufSize) ∧
    (let s := { withInput body11 with src := 61 }
     ∃ d : List Byte, d.length = s.len.toNat ∧ (∀ (i : Nat) (hi : i < d.length), d[i] = s.ibuf.read (s.src.toNat + i)) ∧
       s.params.ibufSize < s.src.toNat + s.len.toNat) ∧
    (let s := { small with src := 64 }
     s.len = 0 ∧ s.src.toNat + s.len.toNat ≤ s.params.ibufSize) :=
  ⟨⟨[0#8, 0#8, 0#8, 0#8], by decide, by decide, by decide⟩, ⟨[0#8, 0#8, 0#8, 0#8], by decide, by decide, by decide⟩,
    by decide⟩

theorem test_witness_CkSolveWritesTheSuffixOfTheInput :
    body11.length = (withInput body11).len.toNat ∧
    (∀ (i : Nat) (hi : i < body11.length),
      body11[i] = (withInput body11).ibuf.read ((withInput body11).src.toNat + i)) ∧
    (withInput body11).src.toNat + (withInput body11).len.toNat ≤ (withInput body11).params.ibufSize ∧
    (withInput body11).sufRule = .contract ∧ { withInput body11 with sufRule := .literal }.sufRule = .literal ∧
    (let s := { withInput body11 with src := 61 }
     s.params.ibufSize < s.src.toNat + s.len.toNat) := by decide

theorem test_witness_CkSolveAccSolvesFromTheAccumulators :
    small.sufRule = .contract ∧ { small with sufRule := .literal }.sufRule = .literal := by decide

/-- No payload at the highest DST, and a payload at the end of IBUF. -/
theorem test_witness_BlkSerLaysOutTheBlock :
    (let s := { small with dst := 42, src := 64 }
     [s.cfgSanity].length = s.len.toNat + 1 ∧ [s.cfgSanity][0]? = some s.cfgSanity ∧
     (∀ i < s.len.toNat, [s.cfgSanity][i + 1]? = some (s.ibuf.read (s.src.toNat + i) ^^^ 0x90#8)) ∧
     s.src.toNat + s.len.toNat ≤ s.params.ibufSize ∧ s.len.toNat + 3 ≤ 0xFFFFFF ∧
     s.dst.toNat + s.len.toNat + 22 ≤ s.params.obufSize) ∧
    (let s := { withInput [0x01#8, 0x02#8, 0x03#8] with dst := 39, sufRule := .literal }
     body11.length = s.len.toNat + 1 ∧ body11[0]? = some s.cfgSanity ∧
     (∀ i < s.len.toNat, body11[i + 1]? = some (s.ibuf.read (s.src.toNat + i) ^^^ 0x90#8)) ∧
     s.src.toNat + s.len.toNat ≤ s.params.ibufSize ∧ s.len.toNat + 3 ≤ 0xFFFFFF ∧
     s.dst.toNat + s.len.toNat + 22 ≤ s.params.obufSize) := by decide

theorem test_witness_ReceiverAcceptsTheBlock :
    (∃ t, exec .blkSer small = .next t ∧ t.err = .ok ∧ small.sufRule = .contract) ∧
    ∃ t, exec .blkSer { small with sufRule := .literal } = .next t ∧ t.err = .ok :=
  ⟨⟨_, rfl, by decide, rfl⟩, ⟨_, rfl, by decide⟩⟩

/-- The LENGTH clause needs an IBUF of 2^24 bytes (95_test_vectors.md 2.6). -/
theorem test_witness_BlkSerErrorsInOrder :
    (let s := { small with src := 64, len := 1 }
     s.params.ibufSize < s.src.toNat + s.len.toNat) ∧
    (let s := { small with params := { ibufSize := 2 ^ 24, obufSize := 64, tblCap := 8 }, len := 0xFFFFFD }
     s.src.toNat + s.len.toNat ≤ s.params.ibufSize ∧ 0xFFFFFF < s.len.toNat + 3) ∧
    (let s := { small with dst := 43 }
     s.src.toNat + s.len.toNat ≤ s.params.ibufSize ∧ s.len.toNat + 3 ≤ 0xFFFFFF ∧
     s.params.obufSize < s.dst.toNat + s.len.toNat + 22) := by decide

theorem test_witness_BlkSerDependsOnItsOperandsOnly :
    ∃ t t', exec .blkSer small = .next t ∧ exec .blkSer (withAcc 0x13#8 0x37#8) = .next t' ∧ t.err = .ok ∧
      small.params = (withAcc 0x13#8 0x37#8).params ∧ small.src = (withAcc 0x13#8 0x37#8).src ∧
      small.len = (withAcc 0x13#8 0x37#8).len ∧ small.dst = (withAcc 0x13#8 0x37#8).dst ∧
      small.hdr = (withAcc 0x13#8 0x37#8).hdr ∧ small.cfgTag = (withAcc 0x13#8 0x37#8).cfgTag ∧
      small.cfgSanity = (withAcc 0x13#8 0x37#8).cfgSanity ∧ small.sufRule = (withAcc 0x13#8 0x37#8).sufRule ∧
      ∀ i < small.len.toNat, small.ibuf.read (small.src.toNat + i) = (withAcc 0x13#8 0x37#8).ibuf.read (small.src.toNat + i) :=
  ⟨_, _, rfl, rfl, by decide⟩

/-- The four entries at the edges of ValidEntry (95_test_vectors.md 2.7), and a full table. -/
theorem test_witness_TblAppendAddsAValidEntry :
    (withEntry 0x00015AFF#32).Inv ∧ full.Inv ∧
    (let ok := fun w : Word => 1 ≤ w.toNat / 65536 % 32768 ∧ w.toNat / 65536 % 32768 ≤ 32767 ∧
       0x4000 ≤ w.toNat % 65536 ∧ w.toNat % 65536 + w.toNat / 65536 % 32768 ≤ 0x5B00
     ok 0x00015AFF#32 ∧ ok 0x9B004000#32 ∧ ¬ ok 0x00025AFF#32 ∧ ¬ ok 0x00013FFF#32 ∧ ¬ ok 0x00004000#32) ∧
    (withEntry 0x00015AFF#32).tcount.toNat ≠ (withEntry 0x00015AFF#32).params.tblCap ∧
    full.tcount.toNat = full.params.tblCap :=
  ⟨withEntry_inv _, full_inv, by decide, by decide, by decide⟩

theorem test_witness_TblSplitReplacesTheEntryInPlace :
    covered.Inv ∧ covered.entries[covered.tidx.toNat]? = some ⟨0x4000#16, 6912#15, false⟩ ∧
    (let s := { covered with tidx := 1 }
     s.tcount.toNat ≤ s.tidx.toNat) ∧
    6912 % 6911 ≠ 0 ∧ 6912 % 864 = 0 ∧ covered.tcount.toNat - 1 + 6912 / 864 ≤ covered.params.tblCap ∧
    6912 % 768 = 0 ∧ covered.params.tblCap < covered.tcount.toNat - 1 + 6912 / 768 := by
  refine ⟨covered_inv, ?_⟩; decide

/-- A table for each strategy; an empty one; one whose bytes just fit, and just do not. -/
theorem test_witness_TblSerWritesTheWireFormat :
    (let s := { withTable thirds with dst := 57 }
     s.tcount.toNat ≤ s.tbl.length ∧ s.noFixLen = false ∧ (∀ e ∈ s.entries, e.cd = false) ∧
     (∀ e ∈ s.entries, ∀ f ∈ s.entries, e.len = f.len) ∧ s.tcount ≠ 0 ∧
     s.dst.toNat + (2 * s.tcount.toNat + 1) ≤ s.params.obufSize) ∧
    (let s := { withTable [⟨0x4000#16, 127#15, true⟩, ⟨0x407F#16, 1#15, false⟩] with dst := 58 }
     s.tcount.toNat ≤ s.tbl.length ∧ ¬ (∀ e ∈ s.entries, e.cd = false) ∧ (∀ e ∈ s.entries, e.len.toNat ≤ 127) ∧
     s.tcount ≠ 0 ∧ s.params.obufSize < s.dst.toNat + (3 * s.tcount.toNat + 1)) ∧
    (let s := { withTable thirds with noFixLen := true }
     s.tcount.toNat ≤ s.tbl.length ∧ ¬ s.noFixLen = false ∧ ¬ (∀ e ∈ s.entries, e.len.toNat ≤ 127) ∧ s.tcount ≠ 0 ∧
     s.dst.toNat + (4 * s.tcount.toNat + 1) ≤ s.params.obufSize) ∧
    small.tcount = 0 := by decide

theorem test_witness_TblCheckDecidesThePartition : covered.Inv ∧ full.Inv := ⟨covered_inv, full_inv⟩

theorem test_witness_TblReadCopiesTheEntry :
    (let s := { withTable thirds with tidx := 2 }
     s.tcount.toNat ≤ s.tbl.length ∧ s.entries[s.tidx.toNat]? = some ⟨0x5000#16, 2048#15, false⟩ ∧
     s.tidx.toNat < s.tcount.toNat) ∧
    (let s := { withTable thirds with tidx := 3 }
     s.tcount.toNat ≤ s.tbl.length ∧ s.tcount.toNat ≤ s.tidx.toNat) := by decide

theorem test_witness_SerializedTableParsesBack : covered.Inv ∧ ∃ t, exec .tblSer covered = .next t ∧ t.err = .ok :=
  ⟨covered_inv, _, rfl, by decide⟩

theorem test_witness_ReaderMeetsTheIntendedDirections :
    ∀ p ∈ [Pass.mk 65535 32767 .bwd, Pass.mk 0 0 .fwd], p.addr < 65536 ∧ p.len < 32768 := by decide

theorem test_witness_ReaderReproducesTheImage : Partitions [⟨0x4D80#16, 3456#15, true⟩, ⟨0x4000#16, 3456#15, false⟩] :=
  (covers_iff_partitions _ (by decide)).1 (by decide)

theorem test_witness_TblGenCombBuildsTheTable :
    48 ≤ { small with params := { small.params with tblCap := 48 } }.params.tblCap ∧
    (0b001#3 : BitVec 3).extractLsb' 1 2 = 0#2 ∧ (0b011#3 : BitVec 3).extractLsb' 1 2 = 1#2 ∧
    (0b101#3 : BitVec 3).extractLsb' 1 2 = 2#2 := by decide

theorem test_witness_TblGenLinearBuildsTheTable :
    1 ≤ small.params.tblCap ∧ 216 ≤ State.reset.params.tblCap ∧ 3 ≤ 3 ∧ 6912 / 2 ^ 3 ≤ State.reset.params.tblCap ∧
    6912 / 2 ^ 0 ≤ State.reset.params.tblCap := by decide

theorem test_witness_TblGenAttrSqBuildsTheTable :
    0 ≤ 3 ∧ 3 + 768 / 2 ^ 0 ≤ State.reset.params.tblCap ∧ 3 + 768 / 2 ^ 3 ≤ State.reset.params.tblCap := by decide

theorem test_witness_ExactlyEighteenGeneratorWordsSucceed :
    small.fault = false ∧ small.params.tblCap < 6912 ∧ State.reset.fault = false ∧ 6912 ≤ State.reset.params.tblCap ∧
    (0x00006223#32 : Word).toNat % 256 = 0x23 ∧ (0x00006223#32 : Word).toNat < 2 ^ 15 ∧
    (0x00006223#32 : Word).toNat / 256 % 4 ≤ 2 ∧
    (0x00007E23#32 : Word).toNat % 256 = 0x23 ∧ (0x00007E23#32 : Word).toNat < 2 ^ 15 ∧
    (0x00007E23#32 : Word).toNat / 256 % 4 ≤ 2 ∧ (0x00007E23#32 : Word).toNat ∉ [0x23, 0x423, 0x823, 0xC23, 0x1023,
      0x1423, 0x123, 0x523, 0x923, 0xD23, 0x1123, 0x3123, 0x5123, 0x7123, 0x223, 0x2223, 0x4223, 0x6223] := by decide

theorem test_witness_GeneratorsKeepTheOldTableOnCapacity :
    (admitComb 1#3 0 = some (.comb true .fwd) ∧ small.params.tblCap < (Gen.comb true .fwd).table.length) ∧
    (admitLinear 2#3 0 = some .conv ∧ small.params.tblCap < Gen.conv.table.length) ∧
    (admitAttrSq 0#3 3 = some (.attrSq 3) ∧ small.params.tblCap < (Gen.attrSq 3).table.length) := by decide +kernel

theorem test_witness_RunExecutesTheCommandOnce :
    small.pend = none ∧ small.fault = false ∧
    ∃ u, exec (AsmCmd.instr .ckCheck)
        { small with pend := some (encode (AsmCmd.instr .ckCheck)), overrunHeld := small.overrun, events := [], resp := none } =
      .next u := ⟨rfl, rfl, _, rfl⟩

end Sys2Proof.Tests
end

section
/-! PROOFS. The closed form of the checksum engine (00_scope.md R10; 40_checksum.md R103). -/

namespace Sys2Proof.Machine

/-- `H = 0` exactly when the seed's H and every intermediate L are 0 (40_checksum.md R103). -/
theorem engine_h_eq_zero (d : List Byte) (p : BytePair) :
    (engine d p).h.toNat = 0 ↔ p.h.toNat = 0 ∧ ∀ k < d.length, (engine (d.take (k + 1)) p).l.toNat = 0 := by
  induction d generalizing p with
  | nil => simp
  | cons b d ih =>
    rw [engine_cons, ih, ckStep_h, ocAdd_eq_zero, List.length_cons, Nat.forall_lt_succ_left]
    simp [and_assoc]

/-- Settles O31: R10 is the sum's three cases; R103 is the engine's closed form, by induction over the data. -/
theorem onesComplementAndClosedForm : Obligations.OnesComplementAndClosedForm := by
  have eq_zero_iff (x : Byte) : x = 0#8 ↔ x.toNat = 0 := BitVec.toNat_inj.symm
  refine ⟨fun a b => ⟨ocAdd_toNat a b, ?_, ocAdd_mod a b⟩,
    fun d p => ⟨engine_l_mod d p, engine_h_mod d p, ?_, ?_⟩⟩
  · simpa only [eq_zero_iff] using ocAdd_eq_zero a b
  · simpa only [eq_zero_iff] using engine_l_eq_zero d p
  · simpa only [eq_zero_iff] using engine_h_eq_zero d p

end Sys2Proof.Machine
end

section
/-! PROOFS. The invariant of Safety.lean along a step: under a reset, under a command, under a host write. -/

namespace Sys2Proof.Machine

/-- A reset meets the invariant whatever fits in the buffers and the table RAM (70_reset_and_hazards.md R270). -/
theorem State.Inv.resetWith {p : Params} {ibuf obuf : Memory} {tbl : List Entry} (hp : p.Legal) (hi : ibuf.wf)
    (hi' : ibuf.within p.ibufSize) (ho : obuf.wf) (ho' : obuf.within p.obufSize) (ht : tbl.length ≤ p.tblCap) :
    (State.resetWith p ibuf obuf tbl).Inv where
  paramsLegal := hp
  ibufWf := hi
  ibufWithin := hi'
  obufWf := ho
  obufWithin := ho'
  tblWithin := ht
  countWithin := Nat.zero_le _
  entriesValid := fun _ he => nomatch he
  covokFresh := fun hc => nomatch hc

section
variable {s : State} (h : s.Inv)
include h

theorem State.Inv.softReset : s.softReset.Inv :=
  (State.Inv.resetWith h.paramsLegal h.ibufWf h.ibufWithin h.obufWf h.obufWithin h.tblWithin).of_same
    rfl rfl rfl rfl rfl rfl

theorem State.Inv.hardReset (ib ob : List Host.Cell) (tb : List Entry) : (s.hardReset ib ob tb).Inv := by
  obtain ⟨hib, hib'⟩ := Memory.ofCells_keeps s.params.ibufSize ib
  obtain ⟨hob, hob'⟩ := Memory.ofCells_keeps s.params.obufSize ob
  exact (State.Inv.resetWith h.paramsLegal hib hib' hob hob' (List.length_take_le _ tb)).of_same
    rfl rfl rfl rfl rfl rfl

/-- A host write of IBUF keeps the invariant. -/
theorem State.Inv.of_ibuf_write (off : Nat) (bs : List Byte) (hl : off + bs.length ≤ s.params.ibufSize) :
    { s with ibuf := s.ibuf.write off bs }.Inv :=
  { h with
    ibufWf := Memory.wf_write _ _ _ h.ibufWf
    ibufWithin := Memory.within_write _ _ _ _ h.ibufWithin hl }

/-- A host write of OBUF keeps the invariant. -/
theorem State.Inv.of_obuf_write (off : Nat) (bs : List Byte) (hl : off + bs.length ≤ s.params.obufSize) :
    { s with obuf := s.obuf.write off bs }.Inv :=
  { h with
    obufWf := Memory.wf_write _ _ _ h.obufWf
    obufWithin := Memory.within_write _ _ _ _ h.obufWithin hl }

/-- COVOK may be set for a table that partitions the region, and cleared for any (42_table.md R175). -/
theorem State.Inv.of_covok (b : Bool) (hb : b = true → Partitions s.entries) : (s.setCovok b).Inv :=
  { h with covokFresh := hb }

theorem State.Inv.of_solved (xy chk : BytePair) : (s.setSolved xy chk).Inv := h.of_same rfl rfl rfl rfl rfl rfl

theorem State.Inv.of_report (st : Strategy) (n : BitVec 16) (short dir : Bool) : (s.setReport st n short dir).Inv :=
  h.of_same rfl rfl rfl rfl rfl rfl

theorem State.Inv.of_commit : s.commit.Inv := h.of_same rfl rfl rfl rfl rfl rfl

theorem State.Inv.of_raise (c : ErrCode) : (s.raise c).Inv := h.of_same rfl rfl rfl rfl rfl rfl

theorem State.Inv.of_events (es : List Event) : { s with events := es }.Inv := h.of_same rfl rfl rfl rfl rfl rfl

theorem State.Inv.of_respond (e : Bool) (d : Word) : (s.respond e d).Inv := h.of_same rfl rfl rfl rfl rfl rfl

theorem State.Inv.of_overrun (b : Bool) : { s with overrun := b }.Inv := h.of_same rfl rfl rfl rfl rfl rfl

theorem State.Inv.length_entries_le : s.entries.length ≤ s.params.tblCap := by
  have hn := h.countWithin
  have ht := h.tblWithin
  rw [length_entries s hn]; omega

/-- The coverage test decides the partition for the table of a TBME, whose entries are valid (42_table.md R175). -/
theorem State.Inv.covers_iff : covers s.entries = true ↔ Partitions s.entries :=
  covers_iff_partitions _ fun e he => ((valid_iff e).1 (h.entriesValid e he)).1

theorem State.Inv.of_append (e : Entry) (he : e.valid = true) (hn : s.tcount.toNat ≠ s.params.tblCap) :
    ((s.setTable (s.entries ++ [e])).setCovok false).Inv := by
  refine h.of_table _ false ?_ ?_ (by simp)
  · have hle := h.length_entries_le
    have hlen := length_entries s h.countWithin
    rw [List.length_append, List.length_singleton]; omega
  · intro f hf
    rcases List.mem_append.1 hf with hf | hf
    · exact h.entriesValid f hf
    · rwa [List.mem_singleton.1 hf]

/-- The split table has one entry less and the sub-entries more, all of them valid (42_table.md R170, R177). -/
theorem State.Inv.of_split {n chunk : Nat} {e : Entry} {subs : List Entry} (he : s.entries[n]? = some e)
    (hs : splitEntry e chunk = some subs) (hl : s.entries.length - 1 + subs.length ≤ s.params.tblCap) :
    ((s.setTable (s.entries.take n ++ subs ++ s.entries.drop (n + 1))).setCovok false).Inv := by
  refine h.of_table _ false ?_ ?_ (by simp)
  · obtain ⟨hn, -⟩ := List.getElem?_eq_some_iff.1 he
    simp only [List.length_append, List.length_take, List.length_drop]; omega
  · have hsubs := valid_splitEntry e chunk subs hs (h.entriesValid e (List.mem_of_getElem? he))
    intro f hf
    rcases List.mem_append.1 hf with hf | hf
    · rcases List.mem_append.1 hf with hf | hf
      · exact h.entriesValid f (List.mem_of_mem_take hf)
      · exact hsubs f hf
    · exact h.entriesValid f (List.mem_of_mem_drop hf)

/-- A generator's table tiles the region, so COVOK may be set with it (43_generators.md R190, R214). -/
theorem State.Inv.of_generated (g : Gen) (hg : g ∈ Gen.admitted) (hl : g.table.length ≤ s.params.tblCap) :
    ((s.setTable g.table).setCovok true).Inv := by
  obtain ⟨hp, hv⟩ := tiles_spec _ (tiles_admitted g hg)
  exact h.of_table _ true hl hv fun _ => hp

/-- What a command stages meets the invariant. -/
theorem State.Inv.staged {i : Instr} {t : State} (hst : Staged s i t) : t.Inv := by
  cases hst with
  | nop => exact h
  | ckSeed | ckByte | ckRun | ckSolve | ckSolveAcc | ckCheck | tblRead =>
    exact h.of_same rfl rfl rfl rfl rfl rfl
  | blkSer _ _ hfit =>
    exact (h.of_emit _ (by rw [length_blockBytes]; omega)).of_solved _ _
  | tblSer e es _ hfit =>
    exact (h.of_emit _ (by rw [length_tableBytes]; exact hfit)).of_report _ _ _ _
  | tblClear =>
    -- setting TCOUNT to 0 is writing the empty table over the array
    exact (h.of_table [] false (Nat.zero_le _) (by simp) (by simp)).of_same rfl rfl rfl rfl rfl rfl
  | tblAppend he hn => exact h.of_append _ he hn
  | tblSplit chunk e subs he hs hl => exact h.of_split he hs hl
  | tblGenComb _ _ g _ hg hl | tblGenLinear _ _ g _ hg hl | tblGenAttrSq _ _ g _ hg hl =>
    exact h.of_generated g hg hl
  | tblCheck => exact h.of_covok _ h.covers_iff.1

/-- Every command keeps the invariant, whether it commits, ends with an error, or resets. -/
theorem State.Inv.exec {i : Instr} {t : State} (ht : exec i s = .next t) : t.Inv := by
  rcases exec_cases i s with ⟨u, hst, hu⟩ | ⟨c, -, -, hc⟩ | ⟨-, hr⟩
  · cases hu.symm.trans ht
    exact (h.staged hst).of_commit
  · cases hc.symm.trans ht
    exact h.of_raise c
  · cases hr.symm.trans ht
    exact h.softReset

theorem State.Inv.hostRead (addr : BusAddr) (w : Width) : (hostRead s addr w).Inv := by
  obtain ⟨r, hr⟩ := hostRead_cases s addr w
  rw [hr]
  exact h.of_same rfl rfl rfl rfl rfl rfl

theorem State.Inv.writeReg (v : Word) (r : Reg) : (writeReg s v r).Inv := by
  obtain ⟨hp, -, -, hi, ho, ht, hn, hc⟩ := writeReg_keeps s v r
  exact h.of_same hp hi ho ht hn hc

/-- A host write keeps the invariant: a buffer write lies inside its buffer, or is a bus error
(20_memory.md R62, R65). -/
theorem State.Inv.hostWrite (addr : BusAddr) (w : Width) (data : Word) : (hostWrite s addr w data).Inv := by
  rcases hostWrite_cases s addr w data with
    ⟨e, hw⟩ | ⟨-, hw⟩ | ⟨r, -, hw⟩ | ⟨off, bs, -, hfit, hw⟩ | ⟨off, bs, -, hfit, hw⟩ <;> rw [hw]
  · exact h.of_respond e _
  · exact (h.of_overrun true).of_respond _ _
  · exact (h.writeReg data r).of_respond _ _
  · exact (h.of_ibuf_write off bs hfit).of_respond _ _
  · exact (h.of_obuf_write off bs hfit).of_respond _ _

end

/-- Settles O11, by the cases of a step: each event keeps the invariant. -/
theorem stepKeepsTheInvariant : Obligations.StepKeepsTheInvariant := by
  intro s t h hstep
  rcases step_cases s t hstep with
    ⟨es, rfl⟩ | ⟨es, w, i, -, -, hexec⟩ | ⟨es, c, -, rfl⟩ | ⟨es, addr, w, rfl⟩ | ⟨es, addr, w, data, rfl⟩ |
      ⟨es, ib, ob, tb, rfl⟩
  · exact h.of_events es
  · exact (h.of_events es).exec hexec
  · exact (h.of_events es).of_raise c
  · exact (h.of_events es).hostRead addr w
  · exact (h.of_events es).hostWrite addr w data
  · exact (h.of_events es).hardReset ib ob tb

end Sys2Proof.Machine
end

section
/-! PROOFS. Host accesses as steps: a read or write event whose target is known (20_memory.md R60 to R66). -/

namespace Sys2Proof.Machine

section
variable {s : State} {addr : BusAddr} {w : Width} {t : Target} (ht : target s.params addr w = some t)
include ht

theorem hostRead_of_target : hostRead s addr w = s.respond false (readTarget s w t) := by
  simp only [hostRead, ht]

theorem hostWrite_of_idle (data : Word) (hp : s.pend = none) :
    hostWrite s addr w data = (writeTarget s w data t).respond false 0#32 := by
  have hb : s.busy = false := by simp [State.busy, hp]
  simp [hostWrite, ht, hb]

theorem hostWrite_of_busy (data : Word) (hp : s.pend ≠ none) :
    hostWrite s addr w data = (dropWrite s t).respond false 0#32 := by
  have hb : s.busy = true := Option.isSome_iff_ne_none.2 hp
  simp [hostWrite, ht, hb]

end

/-- A write at a reserved offset has no effect whether BUSY or not (10_state.md R39; 20_memory.md R66). -/
theorem hostWrite_of_reserved {s : State} {addr : BusAddr} {w : Width} (ht : target s.params addr w = some .reserved)
    (data : Word) : hostWrite s addr w data = s.respond false 0#32 := by
  by_cases hp : s.pend = none
  · exact hostWrite_of_idle ht data hp
  · exact hostWrite_of_busy ht data hp

section
variable (s : State) (es : List Event) (r : Reg) (v : Word)

/-- A 32-bit read at a register's offset answers what the register reads. -/
theorem step_read_reg :
    step { s with events := .read (regAddr r) .w32 :: es } =
      .next (State.respond { s with events := es } false (readReg { s with events := es } r)) :=
  congrArg Host.Outcome.next (hostRead_of_target (s := { s with events := es }) (target_regAddr s.params r))

/-- A 32-bit write at a register's offset while BUSY = 0 is the register write, answered with data 0. -/
theorem step_write_reg_of_idle (hp : s.pend = none) :
    step { s with events := .write (regAddr r) .w32 v :: es } =
      .next ((writeReg { s with events := es } v r).respond false 0#32) :=
  congrArg Host.Outcome.next (hostWrite_of_idle (s := { s with events := es }) (target_regAddr s.params r) v hp)

/-- A 32-bit write at a register's offset while BUSY = 1 sets OVERRUN and is dropped. -/
theorem step_write_reg_of_busy (hp : s.pend ≠ none) :
    step { s with events := .write (regAddr r) .w32 v :: es } =
      .next (State.respond { s with events := es, overrun := true } false 0#32) :=
  congrArg Host.Outcome.next (hostWrite_of_busy (s := { s with events := es }) (target_regAddr s.params r) v hp)

end

/-- Settles O20: both accesses reach the reserved target, which reads 0 and drops writes. -/
theorem reservedOffsetsAreInert : Obligations.ReservedOffsetsAreInert := by
  intro s es addr data hlo hhi hal
  have ht : target { s with events := es }.params addr .w32 = some .reserved :=
    target_reserved s.params addr hlo hhi hal
  exact ⟨congrArg Host.Outcome.next (hostRead_of_target ht),
    congrArg Host.Outcome.next (hostWrite_of_reserved ht data)⟩

end Sys2Proof.Machine
end

section
/-! PROOFS. STATUS and CTRL bit by bit (10_state.md R23, R24): a flag stands at its own bit, STRAT and ERR in their
fields, and no other bit is set. -/

namespace Sys2Proof.Machine

theorem getLsbD_bitAt (b : Bool) {n : Nat} (hn : n < 32) (i : Nat) :
    (bitAt b n).getLsbD i = (b && decide (i = n)) := by
  cases b with
  | false => simp [bitAt]
  | true =>
    rw [Bool.eq_iff_iff]
    simp [bitAt]
    omega

theorem extractLsb'_bitAt_eq_zero (b : Bool) {n lo k : Nat} (hn : n < 32) (h : n < lo ∨ lo + k ≤ n) :
    (bitAt b n).extractLsb' lo k = 0#k := by
  ext i hi
  have hne : lo + i ≠ n := by omega
  simp [getLsbD_bitAt b hn, hne]

/-- A code of fewer than `k` bits placed at bit `lo` shows no bit outside its field. -/
theorem getLsbD_code_eq_false {c lo k i : Nat} (hc : c < 2 ^ k) (hi : i < lo ∨ lo + k ≤ i) :
    (BitVec.ofNat 32 (c * 2 ^ lo)).getLsbD i = false := by
  rw [BitVec.getLsbD_ofNat, Nat.testBit_mul_two_pow]
  rcases hi with hi | hi
  · simp [Nat.not_le.2 hi]
  · have hk : c < 2 ^ (i - lo) := hc.trans_le (Nat.pow_le_pow_right (by decide) (by omega))
    simp [Nat.testBit_lt_two_pow hk]

theorem Strategy.code_lt (st : Strategy) : st.code < 2 ^ 2 := by cases st <;> decide

theorem ErrCode.code_lt (e : ErrCode) : e.code < 2 ^ 4 := by cases e <;> decide

/-- A bit of STATUS outside the fields STRAT and ERR is one of the flags. -/
theorem getLsbD_statusWord (s : State) {i : Nat} (hs : i < 4 ∨ 6 ≤ i) (he : i < 8 ∨ 12 ≤ i) :
    s.statusWord.getLsbD i =
      (s.busy && decide (i = 0) || s.fault && decide (i = 1) || s.ckok && decide (i = 2) || s.covok && decide (i = 3) ||
        s.overrunShown && decide (i = 6) || s.wrej && decide (i = 7) || s.shortLen && decide (i = 12) ||
        s.fixDir && decide (i = 13)) := by
  have hst := getLsbD_code_eq_false s.strat.code_lt (lo := 4) hs
  have her := getLsbD_code_eq_false s.err.code_lt (lo := 8) he
  simp only [State.statusWord, BitVec.getLsbD_or, getLsbD_bitAt, Nat.reduceLT, hst, her, Bool.or_false]

theorem extractLsb'_statusWord_strat (s : State) : s.statusWord.extractLsb' 4 2 = BitVec.ofNat 2 s.strat.code := by
  have hst : (BitVec.ofNat 32 (s.strat.code * 2 ^ 4)).extractLsb' 4 2 = BitVec.ofNat 2 s.strat.code := by
    cases s.strat <;> rfl
  have her : (BitVec.ofNat 32 (s.err.code * 2 ^ 8)).extractLsb' 4 2 = 0#2 := by cases s.err <;> rfl
  simp only [State.statusWord, BitVec.extractLsb'_or, hst, her]
  simp [extractLsb'_bitAt_eq_zero]

theorem extractLsb'_statusWord_err (s : State) : s.statusWord.extractLsb' 8 4 = BitVec.ofNat 4 s.err.code := by
  have hst : (BitVec.ofNat 32 (s.strat.code * 2 ^ 4)).extractLsb' 8 4 = 0#4 := by cases s.strat <;> rfl
  have her : (BitVec.ofNat 32 (s.err.code * 2 ^ 8)).extractLsb' 8 4 = BitVec.ofNat 4 s.err.code := by
    cases s.err <;> rfl
  simp only [State.statusWord, BitVec.extractLsb'_or, hst, her]
  simp [extractLsb'_bitAt_eq_zero]

/-- STATUS has no bit above FIXDIR. -/
theorem statusWord_lt (s : State) : s.statusWord.toNat < 2 ^ 14 := by
  refine Nat.lt_pow_two_of_testBit _ fun i hi => ?_
  have hne {n : Nat} (hn : n < 14) : i ≠ n := by omega
  rw [BitVec.testBit_toNat, getLsbD_statusWord s (by omega) (by omega)]
  simp [hne]

theorem getLsbD_ctrlWord (s : State) (i : Nat) :
    s.ctrlWord.getLsbD i = (s.sufRule == .literal && decide (i = 0) || s.noFixLen && decide (i = 1)) := by
  simp only [State.ctrlWord, BitVec.getLsbD_or, getLsbD_bitAt, Nat.reduceLT]

/-- CTRL has no bit above NOFIXLEN. -/
theorem ctrlWord_lt (s : State) : s.ctrlWord.toNat < 2 ^ 2 := by
  refine Nat.lt_pow_two_of_testBit _ fun i hi => ?_
  have hne {n : Nat} (hn : n < 2) : i ≠ n := by omega
  rw [BitVec.testBit_toNat, getLsbD_ctrlWord]
  simp [hne]

theorem BytePair.toNat_word (p : BytePair) : p.word.toNat = p.l.toNat + 256 * p.h.toNat := by
  rw [BytePair.word, toNat_formatB]; omega

/-- Settles O21: STATUS and CTRL bit by bit, the pairs as bytes, every other register zero-extended. -/
theorem registerLayout : Obligations.RegisterLayout := by
  intro s w
  have hw : w = s.statusWord := rfl
  have zeroExtended {n : Nat} (hn : n ≤ 32) (x : BitVec n) : (x.setWidth 32).toNat = x.toNat :=
    BitVec.toNat_setWidth_of_le hn
  refine ⟨?busy, ?fault, ?ckok, ?covok, ?strat, ?overrun, ?wrej, ?err, ?shortLen, ?fixDir, statusWord_lt s,
    s.acc.toNat_word, s.suffix.toNat_word, ?sufRule, ?noFixLen, ctrlWord_lt s, ?_⟩
  case busy | fault | ckok | covok | wrej | shortLen | fixDir =>
    rw [hw, getLsbD_statusWord s (by decide) (by decide)]
    simp [State.busy]
  case overrun =>
    rw [hw, getLsbD_statusWord s (by decide) (by decide)]
    cases hp : s.pend <;> simp [State.overrunShown, State.busy, hp]
  case strat =>
    rw [hw, extractLsb'_statusWord_strat]
    cases s.strat <;> rfl
  case err =>
    rw [hw, extractLsb'_statusWord_err]
    cases s.err <;> rfl
  case sufRule | noFixLen =>
    rw [readReg, getLsbD_ctrlWord]
    simp
  simp only [readReg, zeroExtended, Nat.reduceLeDiff, and_self]

end Sys2Proof.Machine
end

section
/-! PROOFS. Register writes while BUSY = 0 (10_state.md section 2): what the register written reads afterwards, and
that every other register reads as before. -/

namespace Sys2Proof.Machine

theorem readReg_respond (s : State) (e : Bool) (d : Word) (q : Reg) : readReg (s.respond e d) q = readReg s q := by
  cases q <;> rfl

theorem readReg_events (s : State) (es : List Event) (q : Reg) : readReg { s with events := es } q = readReg s q := by
  cases q <;> rfl

/-- The header with the field of the register `r` replaced; the same header for a register that is none. -/
def Header.put (r : Reg) (h : Header) (x : BitVec 16) : Header :=
  match r with
  | .hdrPilot => { h with pilot := x }
  | .hdrSync0 => { h with sync0 := x }
  | .hdrSync1 => { h with sync1 := x }
  | .hdrZero => { h with zero := x }
  | .hdrOne => { h with one := x }
  | .hdrPcount => { h with pcount := x }
  | .hdrPause => { h with pause := x }
  | _ => h

theorem Reg.header_iff (r : Reg) : r.header ↔ r = .hdrPilot ∨ r = .hdrSync0 ∨ r = .hdrSync1 ∨ r = .hdrZero ∨
    r = .hdrOne ∨ r = .hdrPcount ∨ r = .hdrPause := by
  simp [Reg.header]

theorem writeReg_header {r : Reg} (hr : r.header) (s : State) (v : Word) :
    writeReg s v r = writeHeader s v (Header.put r) := by
  rcases r.header_iff.1 hr with rfl | rfl | rfl | rfl | rfl | rfl | rfl <;> rfl

theorem readReg_put_self {r : Reg} (hr : r.header) (s : State) (x : BitVec 16) :
    readReg { s with hdr := s.hdr.put r x } r = x.setWidth 32 := by
  rcases r.header_iff.1 hr with rfl | rfl | rfl | rfl | rfl | rfl | rfl <;> rfl

theorem readReg_put_of_ne {q r : Reg} (hr : r.header) (h : q ≠ r) (s : State) (x : BitVec 16) :
    readReg { s with hdr := s.hdr.put r x } q = readReg s q := by
  rcases r.header_iff.1 hr with rfl | rfl | rfl | rfl | rfl | rfl | rfl <;>
    cases q <;> first | rfl | exact absurd rfl h

/-- Settles O26, by the two branches of a header write. -/
theorem headerWritesAreRangeChecked : Obligations.HeaderWritesAreRangeChecked := by
  intro s es r v hp hr
  rw [step_write_reg_of_idle s es r v hp, writeReg_header hr, writeHeader]
  constructor
  · intro hv
    rw [if_neg (by omega)]; rfl
  · intro hv
    refine ⟨s.hdr.put r (v.setWidth 16), by rw [if_pos hv]; rfl, ?_, fun q hq => readReg_put_of_ne hr hq s _⟩
    rw [readReg_put_self hr]
    exact BitVec.eq_of_toNat_eq (by simp only [BitVec.toNat_setWidth]; omega)

/-- Keeping the low `k` bits of a word is masking it with `k` ones. -/
theorem setWidth_setWidth_eq_and (v : Word) {k : Nat} (hk : k ≤ 32) :
    (v.setWidth k).setWidth 32 = v &&& BitVec.ofNat 32 (2 ^ k - 1) := by
  have hpow : 2 ^ k ≤ 2 ^ 32 := Nat.pow_le_pow_right (by decide) hk
  have hpos : 0 < 2 ^ k := Nat.two_pow_pos k
  apply BitVec.eq_of_toNat_eq
  rw [BitVec.toNat_setWidth_of_le hk, BitVec.toNat_setWidth, BitVec.toNat_and, BitVec.toNat_ofNat,
    Nat.mod_eq_of_lt (show 2 ^ k - 1 < 2 ^ 32 by omega), Nat.and_two_pow_sub_one_eq_mod]

theorem readReg_writeReg_ctrl (s : State) (v : Word) : readReg (writeReg s v .ctrl) .ctrl = v &&& 0x00000003#32 := by
  refine BitVec.eq_of_getLsbD_eq fun i hi => ?_
  have h3 : (0x00000003#32).getLsbD i = decide (i < 2) := by
    rw [BitVec.getLsbD_ofNat, show 3 = 2 ^ 2 - 1 from rfl, Nat.testBit_two_pow_sub_one]; simp [hi]
  have hsuf : ((writeReg s v .ctrl).sufRule == .literal) = v.getLsbD 0 := by
    simp only [writeReg]
    cases v.getLsbD 0 <;> rfl
  rw [BitVec.getLsbD_and, h3, readReg, getLsbD_ctrlWord, hsuf]
  rcases i with _ | _ | i
  · simp
  · simp [writeReg]
  · simp

/-- A read-write register reads back the data under its writable bits. -/
theorem readReg_writeReg_self {r : Reg} {m : Word} (hm : writableBits r = some m) (s : State) (v : Word) :
    readReg (writeReg s v r) r = v &&& m := by
  cases r with
  | ctrl => cases hm; exact readReg_writeReg_ctrl s v
  | src | len | dst | cfgTag | cfgSanity | tidx => cases hm; exact setWidth_setWidth_eq_and v (by decide)
  | entry => cases hm; exact (BitVec.and_allOnes).symm
  | _ => cases hm

/-- A write to a read-write register changes what no other register reads, STATUS included. -/
theorem readReg_writeReg_of_ne {q r : Reg} {m : Word} (hm : writableBits r = some m) (h : q ≠ r) (s : State)
    (v : Word) : readReg (writeReg s v r) q = readReg s q := by
  cases r with
  | ctrl | src | len | dst | cfgTag | cfgSanity | entry | tidx => cases q <;> first | rfl | exact absurd rfl h
  | _ => cases hm

theorem pend_writeReg {r : Reg} {m : Word} (hm : writableBits r = some m) (s : State) (v : Word) :
    (writeReg s v r).pend = s.pend := by
  cases r with
  | ctrl | src | len | dst | cfgTag | cfgSanity | entry | tidx => rfl
  | _ => cases hm

theorem writeReg_readOnly {r : Reg} (hr : r.readOnly) (s : State) (v : Word) : writeReg s v r = s := by
  cases r with
  | id | outLen | acc | suffix | tcount | fixLen | capIbuf | capObuf | capTbl => rfl
  | _ => simp [Reg.readOnly] at hr

/-- Settles O29: the register write, under the answer and the shorter list of events, which no register reads. -/
theorem registerWritesReadBack : Obligations.RegisterWritesReadBack := by
  intro s es r v hp
  refine ⟨_, step_write_reg_of_idle s es r v hp, fun m hm => ?_, fun hr => by rw [writeReg_readOnly hr]; rfl⟩
  obtain ⟨hparams, -, -, hibuf, hobuf, htbl, -, -⟩ := writeReg_keeps { s with events := es } v r
  refine ⟨?_, fun q hq => ?_, (pend_writeReg hm _ v).trans hp, hibuf, hobuf, htbl, hparams⟩
  · rw [readReg_respond, readReg_writeReg_self hm]
  · rw [readReg_respond, readReg_writeReg_of_ne hm hq, readReg_events]

/-- Settles O28: a flag under a set write-one-to-clear bit is 0, and else kept. -/
theorem statusWriteClearsOverrunAndWrej : Obligations.StatusWriteClearsOverrunAndWrej := by
  intro s es v hp
  have clear (flag bit : Bool) : (flag && !bit) = if bit then false else flag := by cases bit <;> simp
  rw [step_write_reg_of_idle s es .status v hp]
  simp only [writeReg, State.respond, clear]

/-- Acceptance sets BUSY in STATUS, and OVERRUN goes on showing its value of this moment (20_memory.md R67). -/
theorem readReg_accept_status {s : State} (hp : s.pend = none) (v : Word) :
    readReg (s.accept v) .status = readReg s .status ||| 1#32 := by
  have hbusy : s.busy = false := by simp [State.busy, hp]
  have hbusy' : (s.accept v).busy = true := rfl
  have hbit (b : Bool) : bitAt b 0 = if b then 1#32 else 0#32 := by cases b <;> rfl
  simp only [readReg, State.statusWord, State.overrunShown, hbusy, hbusy', hbit, State.accept_fault, State.accept_ckok,
    State.accept_covok, State.accept_strat, State.accept_overrunHeld, State.accept_wrej, State.accept_err,
    State.accept_shortLen, State.accept_fixDir, if_true, Bool.false_eq_true, if_false, BitVec.zero_or]
  ac_rfl

/-- Settles O27: idle, the write is `State.accept`; busy, it is dropped; CMD reads 0. -/
theorem cmdWriteIsAcceptance : Obligations.CmdWriteIsAcceptance := by
  intro s es v
  refine ⟨fun hp => ⟨_, step_write_reg_of_idle s es .cmd v hp, rfl, ?_, fun q hq => ?_⟩,
    fun hp => step_write_reg_of_busy s es .cmd v hp, step_read_reg s es .cmd⟩
  · have haccept := readReg_accept_status (s := { s with events := es }) hp v
    rwa [readReg_events] at haccept
  · exact (readReg_accept { s with events := es } v q hq).trans (readReg_events s es q)

end Sys2Proof.Machine
end

section
/-! PROOFS. What the commands keep and which of them write a result (10_state.md section 2), and the
constants. -/

namespace Sys2Proof.Machine

/-- What only the host and a reset write reads the same: OVERRUN, WREJ, CTRL, the operands of the commands, the header
and the configuration. -/
structure OperandsKept (s t : State) : Prop where
  overrun : t.overrun = s.overrun
  wrej : t.wrej = s.wrej
  sufRule : t.sufRule = s.sufRule
  noFixLen : t.noFixLen = s.noFixLen
  src : t.src = s.src
  len : t.len = s.len
  dst : t.dst = s.dst
  hdr : t.hdr = s.hdr
  cfgTag : t.cfgTag = s.cfgTag
  cfgSanity : t.cfgSanity = s.cfgSanity
  tidx : t.tidx = s.tidx

theorem OperandsKept.readReg_eq {s t : State} (h : OperandsKept s t) :
    ∀ r ∈ [Reg.ctrl, .src, .len, .dst, .hdrPilot, .hdrSync0, .hdrSync1, .hdrZero, .hdrOne, .hdrPcount, .hdrPause,
      .cfgTag, .cfgSanity, .tidx], readReg t r = readReg s r := by
  simp [readReg, State.ctrlWord, h.sufRule, h.noFixLen, h.src, h.len, h.dst, h.hdr, h.cfgTag, h.cfgSanity, h.tidx]

theorem Staged.operandsKept {s t : State} {i : Instr} (h : Staged s i t) : OperandsKept s t.commit := by
  obtain ⟨-, hsuf, hnofix, -, hover, hwrej, hsrc, hlen, hdst, hhdr, htag, hsan, htidx, -, -, -⟩ := h.keeps
  exact ⟨hover, hwrej, hsuf, hnofix, hsrc, hlen, hdst, hhdr, htag, hsan, htidx⟩

theorem operandsKept_raise (s : State) (c : ErrCode) : OperandsKept s (s.raise c) :=
  ⟨rfl, rfl, rfl, rfl, rfl, rfl, rfl, rfl, rfl, rfl, rfl⟩

section
variable {i : Instr} {s t : State} (h : exec i s = .next t)
include h

theorem exec_operandsKept (hi : i ≠ .sreset) : OperandsKept s t := by
  rcases exec_cases i s with ⟨u, hst, hu⟩ | ⟨c, -, -, hc⟩ | ⟨hr, -⟩
  · cases hu.symm.trans h
    exact hst.operandsKept
  · cases hc.symm.trans h
    exact operandsKept_raise s c
  · exact absurd hr hi

theorem exec_ibuf_params : t.ibuf = s.ibuf ∧ t.params = s.params := by
  rcases exec_cases i s with ⟨u, hst, hu⟩ | ⟨c, -, -, hc⟩ | ⟨-, hr⟩
  · cases hu.symm.trans h
    obtain ⟨hparams, -, -, -, -, -, -, -, -, -, -, -, -, hibuf, -, -⟩ := hst.keeps
    exact ⟨hibuf, hparams⟩
  · cases hc.symm.trans h
    exact ⟨rfl, rfl⟩
  · cases hr.symm.trans h
    exact ⟨rfl, rfl⟩

end

/-- Settles O13, from what a command that commits, fails or resets keeps. -/
theorem commandsKeepCtrlSrcLenDstTidxHdrCfgIbuf : Obligations.CommandsKeepCtrlSrcLenDstTidxHdrCfgIbuf := by
  intro i s t h
  obtain ⟨hibuf, hparams⟩ := exec_ibuf_params h
  refine ⟨fun a => by rw [hibuf], hparams, fun hi => ?_⟩
  have hkept := exec_operandsKept h hi
  exact ⟨hkept.overrun, hkept.wrej, hkept.readReg_eq⟩

/-- Settles O14: a commit writes what `Staged.writers` says, an error writes no result, SRESET keeps OBUF and the table
RAM. -/
theorem resultsChangeOnlyUnderTheirWriters : Obligations.ResultsChangeOnlyUnderTheirWriters := by
  intro i s t h
  rcases exec_cases i s with ⟨u, hst, hu⟩ | ⟨c, -, -, hc⟩ | ⟨rfl, hr⟩
  · cases hu.symm.trans h
    obtain ⟨hout, hacc, hsuffix, hentry, hcount, hreport, hckok, hcovok, htbl⟩ := hst.writers
    have orSreset {l : List String} (hl : i.mnemonic ∈ l) : i.mnemonic ∈ l ++ ["SRESET"] := List.mem_append_left _ hl
    exact ⟨fun hn => orSreset (hout (.inl hn)), fun hn => orSreset (hacc hn), fun hn => orSreset (hsuffix hn),
      fun hn => orSreset (hentry hn), fun hn => orSreset (hcount hn), fun hn => orSreset (hreport hn),
      fun hn => orSreset (hckok hn), fun hn => orSreset (hcovok hn), fun hn => hout (.inr hn), htbl⟩
  · cases hc.symm.trans h
    simp
  · cases hr.symm.trans h
    simp [Instr.mnemonic, State.softReset, State.resetWith]

theorem hostWrite_params (s : State) (addr : BusAddr) (w : Width) (data : Word) :
    (hostWrite s addr w data).params = s.params := by
  rcases hostWrite_cases s addr w data with
    ⟨e, hw⟩ | ⟨-, hw⟩ | ⟨r, -, hw⟩ | ⟨off, bs, -, -, hw⟩ | ⟨off, bs, -, -, hw⟩ <;> rw [hw, State.respond_params]
  exact (writeReg_keeps s data r).1

/-- No event changes the parameters (00_scope.md R5). -/
theorem step_params {s t : State} (h : step s = .next t) : t.params = s.params := by
  rcases step_cases s t h with
    ⟨es, rfl⟩ | ⟨es, w, i, -, -, hexec⟩ | ⟨es, c, -, rfl⟩ | ⟨es, addr, w, rfl⟩ | ⟨es, addr, w, data, rfl⟩ |
      ⟨es, ib, ob, tb, rfl⟩
  · rfl
  · exact (exec_ibuf_params hexec).2
  · rfl
  · obtain ⟨r, hr⟩ := hostRead_cases { s with events := es } addr w
    rw [hr]
  · exact hostWrite_params _ addr w data
  · rfl

/-- Settles O30: ID is a constant, a legal parameter fits its register, and `step_params`. -/
theorem constantRegistersNeverChange : Obligations.ConstantRegistersNeverChange := by
  refine ⟨fun _ => rfl, fun s hlegal => ?_, fun _ _ => step_params⟩
  obtain ⟨-, hi, -, ho, -, ht⟩ := hlegal
  refine ⟨Nat.mod_eq_of_lt ?_, Nat.mod_eq_of_lt ?_, Nat.mod_eq_of_lt ?_⟩ <;> omega

end Sys2Proof.Machine
end

section
/-! PROOFS. Host accesses as steps (20_memory.md R60 to R66): which accesses are bus errors, what an access of a buffer
reads and stores, what a write does while BUSY = 1. -/

namespace Sys2Proof.Machine

/-- Settles O19: `step_read_reg`, and the offsets register by register. -/
theorem registerReadsAnswerTheRegister : Obligations.RegisterReadsAnswerTheRegister := by
  intro s es r
  exact ⟨step_read_reg s es r, by cases r <;> rfl⟩

theorem Width.bytes_eq (w : Width) : w.bytes = 1 ∨ w.bytes = 2 ∨ w.bytes = 4 := by cases w <;> decide

theorem bufferAccess_iff {size off : Nat} {w : Width} :
    bufferAccess size off w = true ↔ off % w.bytes = 0 ∧ off + w.bytes ≤ size := by
  simp [bufferAccess]

/-- A buffer access is aligned at its address too, since a window starts at a multiple of every width, and it stays
inside its buffer. -/
theorem aligned_fits_of_bufferAccess {addr base size : Nat} {w : Width} (hlo : ¬ addr < base) (hbase : base % 4 = 0)
    (h : bufferAccess size (addr - base) w = true) :
    base ≤ addr ∧ addr % w.bytes = 0 ∧ addr - base + w.bytes ≤ size := by
  obtain ⟨hal, hfit⟩ := bufferAccess_iff.1 h
  refine ⟨Nat.not_lt.1 hlo, ?_, hfit⟩
  rcases w.bytes_eq with hw | hw | hw <;> rw [hw] at hal ⊢ <;> omega

/-- An access that has a target is mapped: every branch of the host map is a clause of `Mapped`. -/
theorem mapped_of_target {p : Params} {addr : BusAddr} {w : Width} {t : Target} (h : target p addr w = some t) :
    Mapped p addr w := by
  rw [target] at h
  split at h
  next hreg =>
    split at h
    next hacc => exact .inl ⟨hreg, hacc⟩
    next => cases h
  split at h
  next => cases h
  split at h
  next hlo _ =>
    split at h
    next hacc => exact .inr (.inl (aligned_fits_of_bufferAccess hlo (by decide) hacc))
    next => cases h
  split at h
  next hlo _ =>
    split at h
    next hacc => exact .inr (.inr (aligned_fits_of_bufferAccess hlo (by decide) hacc))
    next => cases h
  next => cases h

theorem target_eq_none_of_not_mapped {p : Params} {addr : BusAddr} {w : Width} (h : ¬ Mapped p addr w) :
    target p addr w = none :=
  Option.eq_none_iff_forall_ne_some.2 fun _ ht => h (mapped_of_target ht)

/-- Settles O18: an access that is not mapped has no target, and is answered with an error. -/
theorem busErrorsChangeNothing : Obligations.BusErrorsChangeNothing := by
  intro s es addr w data _ h
  have hnone : target { s with events := es }.params addr w = none := target_eq_none_of_not_mapped h
  constructor
  · exact congrArg Host.Outcome.next (by simp only [hostRead, hnone, State.respond])
  · exact congrArg Host.Outcome.next (by simp only [hostWrite, hnone, State.respond])

section
variable {s : State} {addr : BusAddr} {w : Width} {t : Target} (ht : target s.params addr w = some t)
include ht

theorem step_read_of_target (es : List Event) :
    step { s with events := .read addr w :: es } =
      .next (State.respond { s with events := es } false (readTarget { s with events := es } w t)) :=
  congrArg Host.Outcome.next (hostRead_of_target (s := { s with events := es }) ht)

theorem step_write_of_idle (es : List Event) (data : Word) (hp : s.pend = none) :
    step { s with events := .write addr w data :: es } =
      .next ((writeTarget { s with events := es } w data t).respond false 0#32) :=
  congrArg Host.Outcome.next (hostWrite_of_idle (s := { s with events := es }) ht data hp)

theorem step_write_of_busy (es : List Event) (data : Word) (hp : s.pend ≠ none) :
    step { s with events := .write addr w data :: es } =
      .next ((dropWrite { s with events := es } t).respond false 0#32) :=
  congrArg Host.Outcome.next (hostWrite_of_busy (s := { s with events := es }) ht data hp)

end

theorem loadLE_lt (m : Memory) (a n : Nat) : loadLE m a n < 2 ^ (8 * n) := by
  induction n generalizing a with
  | zero => simp [loadLE]
  | succ n ih =>
    have hbyte := (m.read a).isLt
    have hrest := ih (a + 1)
    rw [loadLE, Nat.mul_succ, Nat.pow_add]
    omega

/-- The word a buffer read answers is the number its bytes spell: an access has at most four. -/
theorem toNat_loadLE_word (m : Memory) (a : Nat) (w : Width) :
    (BitVec.ofNat 32 (loadLE m a w.bytes)).toNat = loadLE m a w.bytes := by
  have hlt := loadLE_lt m a w.bytes
  rw [BitVec.toNat_ofNat, Nat.mod_eq_of_lt]
  rcases w.bytes_eq with hw | hw | hw <;> rw [hw] at hlt ⊢ <;> omega

/-- The byte at bits `8j` up of the word a buffer read answers (20_memory.md R64). -/
theorem extractLsb'_loadLE_word (m : Memory) (a : Nat) (w : Width) {j : Nat} (hj : j < w.bytes) :
    (BitVec.ofNat 32 (loadLE m a w.bytes)).extractLsb' (8 * j) 8 = m.read (a + j) := by
  apply BitVec.eq_of_toNat_eq
  rw [BitVec.extractLsb'_toNat, toNat_loadLE_word, Nat.shiftRight_eq_div_pow]
  exact loadLE_byte m a w.bytes j hj

/-- A buffer's bytes after a host write there: the bytes of the data from its low end (20_memory.md R64), every other
byte as before (R62). -/
theorem read_write_bytesLE (m : Memory) (a n : Nat) (data : Word) :
    (∀ j < n, (m.write a (bytesLE data.toNat n)).read (a + j) = data.extractLsb' (8 * j) 8) ∧
    ∀ x, (x < a ∨ a + n ≤ x) → (m.write a (bytesLE data.toNat n)).read x = m.read x := by
  constructor
  · intro j hj
    have hlen : j < (bytesLE data.toNat n).length := by rwa [length_bytesLE]
    have hbyte := getElem?_bytesLE data.toNat n j hj
    rw [List.getElem?_eq_getElem hlen, Option.some_inj] at hbyte
    rw [Memory.read_write_inside m a _ j hlen, hbyte]
    apply BitVec.eq_of_toNat_eq
    rw [BitVec.extractLsb'_toNat, BitVec.toNat_ofNat, Nat.shiftRight_eq_div_pow]
  · intro x hx
    exact Memory.read_write_outside m a _ x (by rwa [length_bytesLE])

/-- Settles O22: the access reaches the buffer, and the word answered is little-endian. -/
theorem bufferReadsAreLittleEndian : Obligations.BufferReadsAreLittleEndian := by
  intro s es addr w hlegal hal
  constructor
  · intro hlo hfit
    refine ⟨_, step_read_of_target (target_ibuf_of hlegal hal hlo hfit) es,
      fun j hj => extractLsb'_loadLE_word s.ibuf _ w hj, ?_⟩
    exact (toNat_loadLE_word s.ibuf _ w).trans_lt (loadLE_lt s.ibuf _ _)
  · intro hlo hfit
    refine ⟨_, step_read_of_target (target_obuf_of hlegal hal hlo hfit) es,
      fun j hj => extractLsb'_loadLE_word s.obuf _ w hj, ?_⟩
    exact (toNat_loadLE_word s.obuf _ w).trans_lt (loadLE_lt s.obuf _ _)

/-- Settles O23: the access reaches the buffer, and the buffer's new bytes are `read_write_bytesLE`. -/
theorem bufferWritesChangeOnlyTheAddressedBytes : Obligations.BufferWritesChangeOnlyTheAddressedBytes := by
  intro s es addr w data hlegal hp hal
  constructor
  · intro hlo hfit
    exact ⟨_, step_write_of_idle (target_ibuf_of hlegal hal hlo hfit) es data hp,
      read_write_bytesLE s.ibuf _ w.bytes data⟩
  · intro hlo hfit
    exact ⟨_, step_write_of_idle (target_obuf_of hlegal hal hlo hfit) es data hp,
      read_write_bytesLE s.obuf _ w.bytes data⟩

/-- Below 0x68 every multiple of 4 is a register's offset (10_state.md section 2). -/
theorem exists_ofOffset {off : Nat} (hlt : off < 0x68) (hal : off % 4 = 0) : ∃ r, Reg.ofOffset off = some r := by
  have table : ∀ k < 26, (Reg.ofOffset (4 * k)).isSome = true := by decide
  have hk := table (off / 4) (by omega)
  rwa [Nat.mul_div_cancel' (Nat.dvd_of_mod_eq_zero hal), Option.isSome_iff_exists] at hk

/-- A mapped access outside the reserved offsets reaches a register or a buffer. -/
theorem exists_target_of_mapped {p : Params} {addr : BusAddr} {w : Width} (hlegal : p.Legal) (h : Mapped p addr w)
    (hres : ¬ (0x68 ≤ addr.toNat ∧ addr.toNat < 0x100)) : ∃ t, t ≠ .reserved ∧ target p addr w = some t := by
  rcases h with ⟨hreg, rfl, hal⟩ | ⟨hlo, hal, hfit⟩ | ⟨hlo, hal, hfit⟩
  · obtain ⟨r, hr⟩ := exists_ofOffset (by omega) hal
    exact ⟨.reg r, nofun, by rw [target, if_pos hreg, if_pos ⟨rfl, hal⟩, hr]⟩
  · exact ⟨.ibuf _, nofun, target_ibuf_of hlegal hal hlo hfit⟩
  · exact ⟨.obuf _, nofun, target_obuf_of hlegal hal hlo hfit⟩

theorem target_of_mapped_reserved {p : Params} {addr : BusAddr} {w : Width} (h : Mapped p addr w)
    (hres : 0x68 ≤ addr.toNat ∧ addr.toNat < 0x100) : target p addr w = some .reserved := by
  obtain ⟨hlo, hhi⟩ := hres
  rcases h with ⟨-, rfl, hal⟩ | ⟨hwin, -⟩ | ⟨hwin, -⟩
  · exact target_reserved p addr hlo (by omega) hal
  · omega
  · omega

theorem dropWrite_of_ne_reserved (s : State) {t : Target} (ht : t ≠ .reserved) :
    dropWrite s t = { s with overrun := true } := by
  cases t with
  | reserved => exact absurd rfl ht
  | reg | ibuf | obuf => rfl

/-- Settles O24: the write has a target, which drops it, and only the reserved target keeps OVERRUN. -/
theorem writesWhileBusyAreDropped : Obligations.WritesWhileBusyAreDropped := by
  intro s es addr w data hlegal hp hmap
  constructor
  · intro hres
    obtain ⟨t, hne, ht⟩ := exists_target_of_mapped hlegal hmap hres
    rw [step_write_of_busy ht es data hp, dropWrite_of_ne_reserved _ hne]
    rfl
  · intro hres
    exact step_write_of_busy (target_of_mapped_reserved hmap hres) es data hp

end Sys2Proof.Machine
end

section
/-! PROOFS. A pending command under host accesses (20_memory.md R66, R67; 70_reset_and_hazards.md R276, R278): they
change OVERRUN and the bus's last answer, and no command reads either. -/

namespace Sys2Proof.Machine

/-- The state with OVERRUN and the bus's last answer replaced: all that host accesses change while BUSY = 1. -/
def State.withBus (ov : Bool) (rsp : Option Response) (s : State) : State := { s with overrun := ov, resp := rsp }

/-- An outcome with OVERRUN and the bus's last answer replaced in its next state. -/
def Result.withBus (ov : Bool) (rsp : Option Response) : Result → Result
  | .next t => .next (t.withBus ov rsp)
  | .fault f => .fault f
  | .refused r => .refused r

section
variable (ov : Bool) (rsp : Option Response) (s : State)

theorem State.withBus_entries : (s.withBus ov rsp).entries = s.entries := rfl

theorem State.withBus_tidx : (s.withBus ov rsp).tidx = s.tidx := rfl

theorem State.withBus_sufRule : (s.withBus ov rsp).sufRule = s.sufRule := rfl

variable {ov rsp s}

/-- A command that stages the same but for OVERRUN and the answer ends the same but for them. -/
theorem finish_withBus {r r' : Except ErrCode State} (h : r' = r.map (State.withBus ov rsp)) :
    finish (s.withBus ov rsp) r' = Result.withBus ov rsp (finish s r) := by
  subst h
  cases r <;> rfl

theorem generate_withBus (g : Option Gen) : generate (s.withBus ov rsp) g = Result.withBus ov rsp (generate s g) := by
  refine finish_withBus ?_
  cases g with
  | none => rfl
  | some g =>
    simp only [apply_ite (Except.map (State.withBus ov rsp))]
    rfl

/-- No command but SRESET, which resets OVERRUN, reads or writes OVERRUN or the bus's last answer: no condition of a
command names them, and each branch stages the same state but for them. -/
theorem exec_withBus {i : Instr} (hi : i ≠ .sreset) :
    exec i (s.withBus ov rsp) = Result.withBus ov rsp (exec i s) := by
  cases i with
  | nop | ckSeed | ckByte | ckCheck | tblClear | tblCheck => rfl
  | ckRun =>
    simp only [exec, execCkRun_eq, apply_ite (Result.withBus ov rsp)]
    rfl
  | ckSolve =>
    simp only [exec, execCkSolve_eq, apply_ite (Result.withBus ov rsp)]
    rfl
  | ckSolveAcc =>
    simp only [exec, execCkSolveAcc_eq, State.withBus_sufRule]
    cases s.sufRule <;> rfl
  | blkSer =>
    simp only [exec, execBlkSer_eq, apply_ite (Result.withBus ov rsp)]
    rfl
  | tblAppend =>
    refine finish_withBus ?_
    simp only [apply_ite (Except.map (State.withBus ov rsp))]
    rfl
  | tblSplit chunk =>
    refine finish_withBus ?_
    rw [State.withBus_entries, State.withBus_tidx]
    cases s.entries[s.tidx.toNat]? with
    | none => rfl
    | some e =>
      dsimp only
      cases splitEntry e chunk with
      | none => rfl
      | some subs =>
        simp only [apply_ite (Except.map (State.withBus ov rsp))]
        rfl
  | tblGenComb | tblGenLinear | tblGenAttrSq => exact generate_withBus _
  | tblSer =>
    refine finish_withBus ?_
    rw [State.withBus_entries]
    cases s.entries with
    | nil => rfl
    | cons e es =>
      simp only [apply_ite (Except.map (State.withBus ov rsp))]
      rfl
  | tblRead =>
    refine finish_withBus ?_
    rw [State.withBus_entries, State.withBus_tidx]
    cases s.entries[s.tidx.toNat]? <;> rfl
  | sreset => exact absurd rfl hi

end

/-- Every command answers a next state (70_reset_and_hazards.md R279). -/
theorem exists_exec_eq_next (i : Instr) (s : State) : ∃ t, exec i s = .next t := by
  rcases exec_cases i s with ⟨_, -, h⟩ | ⟨_, -, -, h⟩ | ⟨-, h⟩ <;> exact ⟨_, h⟩

/-- The engine step on a state with another OVERRUN and another answer ends the same but for them. -/
theorem engineStep_withBus (w : Word) (s : State) (ov : Bool) (rsp : Option Response) :
    ∃ t ov', engineStep w s = .next t ∧ engineStep w (s.withBus ov rsp) = .next (t.withBus ov' rsp) := by
  have hfault : (s.withBus ov rsp).fault = s.fault := rfl
  simp only [engineStep, hfault]
  split
  · exact ⟨_, ov, rfl, rfl⟩
  cases decode w with
  | error _ => exact ⟨_, ov, rfl, rfl⟩
  | ok i =>
    rcases eq_or_ne i .sreset with rfl | hi
    · exact ⟨_, false, rfl, rfl⟩
    · obtain ⟨t, ht⟩ := exists_exec_eq_next i s
      exact ⟨t, ov, ht, by simp only [exec_withBus hi, ht, Result.withBus]⟩

/-- A host access while a command is pending changes OVERRUN and the bus's last answer only (20_memory.md R66, R69). -/
theorem step_access_of_pend {s : State} (hp : s.pend ≠ none) {e : Event} (he : e.isAccess = true) (es : List Event) :
    ∃ ov rsp, step { s with events := e :: es } = .next (State.withBus ov rsp { s with events := es }) := by
  have hbusy : State.busy { s with events := es } = true := Option.isSome_iff_ne_none.2 hp
  cases e with
  | read addr w =>
    obtain ⟨rsp, hr⟩ := hostRead_cases { s with events := es } addr w
    exact ⟨s.overrun, rsp, congrArg Host.Outcome.next hr⟩
  | write addr w data =>
    rcases hostWrite_cases { s with events := es } addr w data with
      ⟨_, hw⟩ | ⟨-, hw⟩ | ⟨_, hidle, -⟩ | ⟨_, _, hidle, -⟩ | ⟨_, _, hidle, -⟩
    · exact ⟨s.overrun, _, congrArg Host.Outcome.next hw⟩
    · exact ⟨true, _, congrArg Host.Outcome.next hw⟩
    all_goals exact absurd (hidle.symm.trans hbusy) (by decide)
  | engine => cases he
  | hwReset => cases he

theorem runSteps_succ_of_step {s t : State} (h : step s = .next t) (n : Nat) :
    runSteps (n + 1) s = runSteps n t := by
  have hcore : Sys2Proof.core.step s = .next t := h
  simp only [runSteps, Host.Core.run, hcore]
  rfl

/-- Any number of host accesses while a command is pending, by induction over them. -/
theorem runSteps_accesses_of_pend (accesses es : List Event) (hacc : ∀ e ∈ accesses, e.isAccess = true) (s : State)
    (hp : s.pend ≠ none) :
    ∃ ov rsp, runSteps accesses.length { s with events := accesses ++ es } =
      .next (State.withBus ov rsp { s with events := es }) := by
  induction accesses generalizing s with
  | nil => exact ⟨s.overrun, s.resp, rfl⟩
  | cons e rest ih =>
    obtain ⟨he, hrest⟩ := List.forall_mem_cons.1 hacc
    obtain ⟨ov, rsp, hstep⟩ := step_access_of_pend hp he (rest ++ es)
    obtain ⟨ov', rsp', hrun⟩ := ih hrest (s.withBus ov rsp) hp
    exact ⟨ov', rsp', (runSteps_succ_of_step hstep rest.length).trans hrun⟩

/-- Settles O25: the accesses change OVERRUN and the answer, which neither the registers read while BUSY = 1 nor the
engine step depend on. -/
theorem engineDelayDoesNotMatter : Obligations.EngineDelayDoesNotMatter := by
  intro s w accesses es hacc
  obtain ⟨ov, rsp, hrun⟩ := runSteps_accesses_of_pend accesses (.engine :: es) hacc { s with pend := some w } nofun
  obtain ⟨t, ov', ht, ht'⟩ := engineStep_withBus w { s with pend := some w, events := es } ov rsp
  exact ⟨ov, rsp, hrun, readReg_busy s w ov rsp _, t.withBus ov' rsp, t, ht', ht, rfl⟩

end Sys2Proof.Machine
end

section
/-! PROOFS. Words and the fields the decoder reads (30_encoding.md R81 to R86): a word whose fixed bits are zero is put
together again from its fields, so decoding and encoding are inverse to each other. -/

namespace Sys2Proof

theorem zeroFrom_iff (w : Word) (lo : Nat) : zeroFrom w lo = true ↔ w.toNat < 2 ^ lo := decide_eq_true_iff

theorem field_eq_iff (w : Word) (lo n : Nat) (v : BitVec n) : field w lo n = v ↔ w.toNat / 2 ^ lo % 2 ^ n = v.toNat := by
  rw [← BitVec.toNat_inj, field_toNat]

section
variable {w : Word} {opc : Byte} (ho : field w 0 8 = opc)
include ho

theorem wordN_of_field (hz : zeroFrom w 8 = true) : wordN opc = w := by
  rw [field_eq_iff] at ho
  rw [zeroFrom_iff] at hz
  apply BitVec.eq_of_toNat_eq
  simp only [wordN, toNat_cat2, BitVec.toNat_ofNat]
  omega

theorem formatB_of_fields (hz : zeroFrom w 16 = true) : 0#16 ++ field w 8 8 ++ opc = w := by
  rw [field_eq_iff] at ho
  rw [zeroFrom_iff] at hz
  apply BitVec.eq_of_toNat_eq
  rw [toNat_formatB, field_toNat]
  omega

theorem formatS_of_fields (hz : zeroFrom w 24 = true) : 0#8 ++ field w 16 8 ++ field w 8 8 ++ opc = w := by
  rw [field_eq_iff] at ho
  rw [zeroFrom_iff] at hz
  apply BitVec.eq_of_toNat_eq
  rw [toNat_formatS, field_toNat, field_toNat]
  omega

theorem formatK_of_fields (hz : zeroFrom w 24 = true) : 0#8 ++ BitVec.ofNat 16 (field w 8 16).toNat ++ opc = w := by
  rw [field_eq_iff] at ho
  rw [zeroFrom_iff] at hz
  apply BitVec.eq_of_toNat_eq
  rw [toNat_formatK, field_toNat]
  omega

end

theorem wordG_of_fields {w : Word} {fam : BitVec 2} (ho : field w 0 8 = 0x23#8) (hf : field w 8 2 = fam)
    (hz : zeroFrom w 15 = true) : wordG fam (field w 10 3) (field w 13 2).toNat = w := by
  rw [field_eq_iff] at ho hf
  rw [zeroFrom_iff] at hz
  rw [BitVec.toNat_ofNat] at ho
  apply BitVec.eq_of_toNat_eq
  rw [toNat_wordG, field_toNat, field_toNat]
  omega

/-- A format N, B, S or K (the `if` they all are) that decodes has its fixed bits zero and gives its command. -/
theorem of_format_eq_ok {z : Bool} {e : Reject} {i j : Instr} (h : (if z then .ok i else .error e) = Except.ok j) :
    z = true ∧ i = j := by
  cases z
  · cases h
  · cases h; exact ⟨rfl, rfl⟩

theorem encode_of_formatN {w : Word} {opc : Byte} {i j : Instr} (ho : field w 0 8 = opc) (hi : i.wellFormed = true)
    (he : encode i = wordN opc) (h : formatN w i = .ok j) : j.wellFormed = true ∧ encode j = w := by
  obtain ⟨hz, rfl⟩ := of_format_eq_ok h
  exact ⟨hi, he.trans (wordN_of_field ho hz)⟩

theorem encode_of_formatG {w : Word} {j : Instr} (ho : field w 0 8 = 0x23#8) (h : formatG w = .ok j) :
    j.wellFormed = true ∧ encode j = w := by
  have hsz : decide ((field w 13 2).toNat < 4) = true := decide_eq_true (field w 13 2).isLt
  unfold formatG at h
  split at h
  case isFalse => cases h
  case isTrue hz =>
    (repeat' split at h) <;> cases h
    all_goals exact ⟨hsz, wordG_of_fields ho ‹_› hz⟩

/-- Settles O2, by the decoder's arms: in each the opcode, the operand fields and the zero bits are the whole word. -/
theorem encodeOfDecode : Obligations.EncodeOfDecode := by
  intro w i h
  unfold decode at h
  split at h
  case h_2 ho =>
    obtain ⟨hz, rfl⟩ := of_format_eq_ok h
    exact ⟨rfl, formatS_of_fields ho hz⟩
  case h_3 ho =>
    obtain ⟨hz, rfl⟩ := of_format_eq_ok h
    exact ⟨rfl, formatB_of_fields ho hz⟩
  case h_11 ho =>
    obtain ⟨hz, rfl⟩ := of_format_eq_ok h
    exact ⟨decide_eq_true (field w 8 16).isLt, formatK_of_fields ho hz⟩
  case h_12 ho => exact encode_of_formatG ho h
  case h_17 => cases h
  all_goals exact encode_of_formatN ‹_› rfl rfl h

/-- Settles O1, by the commands' own round trips. -/
theorem decodeOfEncode : Obligations.DecodeOfEncode := by
  intro i
  cases i with
  | nop => exact Laws.RoundTrip.nop
  | ckSeed seedL seedH => exact Laws.RoundTrip.ckSeed seedL seedH
  | ckByte imm8 => exact Laws.RoundTrip.ckByte imm8
  | ckRun => exact Laws.RoundTrip.ckRun
  | ckSolve => exact Laws.RoundTrip.ckSolve
  | ckSolveAcc => exact Laws.RoundTrip.ckSolveAcc
  | ckCheck => exact Laws.RoundTrip.ckCheck
  | blkSer => exact Laws.RoundTrip.blkSer
  | tblClear => exact Laws.RoundTrip.tblClear
  | tblAppend => exact Laws.RoundTrip.tblAppend
  | tblSplit chunk => exact Laws.RoundTrip.tblSplit chunk
  | tblGenComb var sz => exact Laws.RoundTrip.tblGenComb var sz
  | tblGenLinear var sz => exact Laws.RoundTrip.tblGenLinear var sz
  | tblGenAttrSq var sz => exact Laws.RoundTrip.tblGenAttrSq var sz
  | tblSer => exact Laws.RoundTrip.tblSer
  | tblCheck => exact Laws.RoundTrip.tblCheck
  | tblRead => exact Laws.RoundTrip.tblRead
  | sreset => exact Laws.RoundTrip.sreset

theorem encode_inj {i j : Instr} (hi : i.wellFormed = true) (hj : j.wellFormed = true) (h : encode i = encode j) :
    i = j :=
  Except.ok.inj ((decodeOfEncode i hi).symm.trans (h ▸ decodeOfEncode j hj))

/-- Settles O4: each word is a literal, and the decoder is evaluated on it. -/
theorem sampleWordsDecode : Obligations.SampleWordsDecode :=
  ⟨rfl, rfl, rfl, rfl, rfl, rfl, rfl, rfl, rfl, rfl⟩

end Sys2Proof
end

section
/-! PROOFS. The opcode map of 30_encoding.md R86: the words a row matches are the words of its commands. -/

namespace Sys2Proof

/-- The bits below `k` and those from `hi` up: the form every mask of the opcode map has. -/
def edgeMask (k hi : Nat) : Word := BitVec.allOnes 32 <<< hi ||| BitVec.ofNat 32 (2 ^ k - 1)

theorem testBit_edgeMask (k hi : Nat) {i : Nat} (h : i < 32) :
    (edgeMask k hi).toNat.testBit i = (decide (hi ≤ i) || decide (i < k)) := by
  rw [BitVec.testBit_toNat, edgeMask, BitVec.getLsbD_or, BitVec.getLsbD_shiftLeft, BitVec.getLsbD_allOnes,
    BitVec.getLsbD_ofNat, Nat.testBit_two_pow_sub_one]
  by_cases hhi : hi ≤ i <;> simp [h, hhi, Nat.lt_of_le_of_lt (Nat.sub_le i hi) h]

theorem toNat_and_edgeMask (w : Word) {k hi : Nat} (hk : k ≤ hi) :
    (w &&& edgeMask k hi).toNat = w.toNat / 2 ^ hi * 2 ^ hi + w.toNat % 2 ^ k := by
  have hlt : w.toNat % 2 ^ k < 2 ^ hi :=
    (Nat.mod_lt _ (Nat.two_pow_pos k)).trans_le (Nat.pow_le_pow_right Nat.two_pos hk)
  rw [Nat.mul_comm, Nat.two_pow_add_eq_or_of_lt hlt, BitVec.toNat_and]
  refine Nat.eq_of_testBit_eq fun i => ?_
  rw [Nat.testBit_and, Nat.testBit_or, Nat.testBit_two_pow_mul, Nat.testBit_mod_two_pow, Nat.testBit_div_two_pow]
  by_cases h : i < 32
  · rw [testBit_edgeMask k hi h]
    by_cases hhi : hi ≤ i
    · simp [hhi, Nat.sub_add_cancel hhi, Nat.not_lt.2 (hk.trans hhi)]
    · simp [hhi, Bool.and_comm]
  · have hw : w.toNat.testBit i = false := BitVec.testBit_toNat w ▸ BitVec.getLsbD_of_ge w i (Nat.not_lt.1 h)
    by_cases hhi : hi ≤ i <;> simp [hw, hhi, Nat.sub_add_cancel]

theorem matchesWord_iff (w b : Word) (name : String) {k hi : Nat} (hk : k ≤ hi) :
    (⟨name, b, edgeMask k hi⟩ : OpcodeRow).matchesWord w = true ↔
      w.toNat / 2 ^ hi * 2 ^ hi + w.toNat % 2 ^ k = b.toNat := by
  rw [OpcodeRow.matchesWord, beq_iff_eq, ← BitVec.toNat_inj, toNat_and_edgeMask w hk]

/-- A row without operands matches its own word alone. -/
theorem eq_of_matchesWord {w b : Word} {name : String}
    (h : (⟨name, b, BitVec.allOnes 32⟩ : OpcodeRow).matchesWord w = true) : b = w := by
  rw [OpcodeRow.matchesWord, beq_iff_eq, BitVec.and_allOnes] at h
  exact h.symm

/-- What a row with operands in bits 8 up to `hi` fixes, in the fields the decoder reads (30_encoding.md R82 to R84). -/
theorem fields_of_matchesWord {w : Word} {opc : Byte} {name : String} {hi : Nat} (hhi : 8 ≤ hi)
    (h : (⟨name, opc.setWidth 32, edgeMask 8 hi⟩ : OpcodeRow).matchesWord w = true) :
    field w 0 8 = opc ∧ zeroFrom w hi = true := by
  have hn := (matchesWord_iff w _ name hhi).1 h
  rw [BitVec.toNat_setWidth_of_le (by decide)] at hn
  have hlt : opc.toNat < 2 ^ hi := opc.isLt.trans_le (Nat.pow_le_pow_right Nat.two_pos hhi)
  have hz : w.toNat < 2 ^ hi := by
    rw [← Nat.div_eq_zero_iff_lt (Nat.two_pow_pos hi), ← Nat.lt_one_iff]
    refine Nat.lt_of_mul_lt_mul_right (a := 2 ^ hi) ?_
    omega
  rw [Nat.div_eq_of_lt hz] at hn
  exact ⟨(field_eq_iff _ _ _ _).2 (by omega), (zeroFrom_iff _ _).2 hz⟩

/-- What a row of TBL_GEN fixes, in the fields the decoder reads (30_encoding.md R85). -/
theorem fields_of_matchesWord_tblGen {w : Word} {fam : BitVec 2} {name : String}
    (h : (⟨name, wordG fam 0#3 0, edgeMask 10 15⟩ : OpcodeRow).matchesWord w = true) :
    field w 0 8 = 0x23#8 ∧ field w 8 2 = fam ∧ zeroFrom w 15 = true := by
  have hn := (matchesWord_iff w _ name (by decide)).1 h
  have hfam := fam.isLt
  rw [toNat_wordG, BitVec.toNat_ofNat] at hn
  rw [field_eq_iff, field_eq_iff, zeroFrom_iff, BitVec.toNat_ofNat]
  omega

/-- Every word of a row is the word of a command of that row, row by row. -/
theorem exists_encode_of_matchesWord {w : Word} {r : OpcodeRow} (hr : r ∈ opcodeMap) (h : r.matchesWord w = true) :
    ∃ i : Instr, i.wellFormed = true ∧ encode i = w ∧ i.mnemonic = r.mnemonic := by
  have hsz : decide ((field w 13 2).toNat < 4) = true := decide_eq_true (field w 13 2).isLt
  simp only [opcodeMap, List.mem_cons, List.not_mem_nil, or_false] at hr
  obtain rfl | rfl | rfl | rfl | rfl | rfl | rfl | rfl | rfl | rfl | rfl | rfl | rfl | rfl | rfl | rfl | rfl | rfl := hr
  · exact ⟨.nop, rfl, eq_of_matchesWord h, rfl⟩
  · obtain ⟨ho, hz⟩ := fields_of_matchesWord (opc := 0x01#8) (hi := 24) (by decide) h
    exact ⟨.ckSeed _ _, rfl, formatS_of_fields ho hz, rfl⟩
  · obtain ⟨ho, hz⟩ := fields_of_matchesWord (opc := 0x02#8) (hi := 16) (by decide) h
    exact ⟨.ckByte _, rfl, formatB_of_fields ho hz, rfl⟩
  · exact ⟨.ckRun, rfl, eq_of_matchesWord h, rfl⟩
  · exact ⟨.ckSolve, rfl, eq_of_matchesWord h, rfl⟩
  · exact ⟨.ckSolveAcc, rfl, eq_of_matchesWord h, rfl⟩
  · exact ⟨.ckCheck, rfl, eq_of_matchesWord h, rfl⟩
  · exact ⟨.blkSer, rfl, eq_of_matchesWord h, rfl⟩
  · exact ⟨.tblClear, rfl, eq_of_matchesWord h, rfl⟩
  · exact ⟨.tblAppend, rfl, eq_of_matchesWord h, rfl⟩
  · obtain ⟨ho, hz⟩ := fields_of_matchesWord (opc := 0x22#8) (hi := 24) (by decide) h
    exact ⟨.tblSplit _, decide_eq_true (field w 8 16).isLt, formatK_of_fields ho hz, rfl⟩
  · obtain ⟨ho, hf, hz⟩ := fields_of_matchesWord_tblGen (fam := 0#2) h
    exact ⟨.tblGenComb _ _, hsz, wordG_of_fields ho hf hz, rfl⟩
  · obtain ⟨ho, hf, hz⟩ := fields_of_matchesWord_tblGen (fam := 1#2) h
    exact ⟨.tblGenLinear _ _, hsz, wordG_of_fields ho hf hz, rfl⟩
  · obtain ⟨ho, hf, hz⟩ := fields_of_matchesWord_tblGen (fam := 2#2) h
    exact ⟨.tblGenAttrSq _ _, hsz, wordG_of_fields ho hf hz, rfl⟩
  · exact ⟨.tblSer, rfl, eq_of_matchesWord h, rfl⟩
  · exact ⟨.tblCheck, rfl, eq_of_matchesWord h, rfl⟩
  · exact ⟨.tblRead, rfl, eq_of_matchesWord h, rfl⟩
  · exact ⟨.sreset, rfl, eq_of_matchesWord h, rfl⟩

theorem matchesWord_wordG (name : String) (fam : BitVec 2) (var : BitVec 3) (sz : Nat) :
    (⟨name, wordG fam 0#3 0, edgeMask 10 15⟩ : OpcodeRow).matchesWord (wordG fam var sz) = true := by
  have hfam := fam.isLt
  have hvar := var.isLt
  rw [matchesWord_iff _ _ _ (by decide), toNat_wordG, toNat_wordG, BitVec.toNat_ofNat]
  omega

/-- The word of a command matches the command's row, whatever its operands. -/
theorem exists_row_of_encode (i : Instr) :
    ∃ r ∈ opcodeMap, r.matchesWord (encode i) = true ∧ r.mnemonic = i.mnemonic := by
  cases i with
  | ckSeed seedL seedH =>
    refine ⟨⟨"CK_SEED", 0x00000001#32, edgeMask 8 24⟩, by decide, ?_, rfl⟩
    rw [matchesWord_iff _ _ _ (by decide), encode, toNat_formatS]
    simp only [BitVec.toNat_ofNat]; omega
  | ckByte imm8 =>
    refine ⟨⟨"CK_BYTE", 0x00000002#32, edgeMask 8 16⟩, by decide, ?_, rfl⟩
    rw [matchesWord_iff _ _ _ (by decide), encode, toNat_formatB]
    simp only [BitVec.toNat_ofNat]; omega
  | tblSplit chunk =>
    refine ⟨⟨"TBL_SPLIT", 0x00000022#32, edgeMask 8 24⟩, by decide, ?_, rfl⟩
    rw [matchesWord_iff _ _ _ (by decide), encode, toNat_formatK]
    simp only [BitVec.toNat_ofNat]; omega
  | tblGenComb var sz => exact ⟨⟨"TBL_GEN.COMB", _, _⟩, by decide, matchesWord_wordG _ 0#2 var sz, rfl⟩
  | tblGenLinear var sz => exact ⟨⟨"TBL_GEN.LINEAR", _, _⟩, by decide, matchesWord_wordG _ 1#2 var sz, rfl⟩
  | tblGenAttrSq var sz => exact ⟨⟨"TBL_GEN.ATTRSQ", _, _⟩, by decide, matchesWord_wordG _ 2#2 var sz, rfl⟩
  | nop | ckRun | ckSolve | ckSolveAcc | ckCheck | blkSer | tblClear | tblAppend | tblSer | tblCheck | tblRead
  | sreset => decide

theorem nodup_mnemonics : (opcodeMap.map OpcodeRow.mnemonic).Nodup := by decide

/-- Settles O3: a row's words are the words of its commands, and a word is the word of one command only. -/
theorem decoderFollowsTheOpcodeMap : Obligations.DecoderFollowsTheOpcodeMap := by
  refine ⟨fun w r r' hr hr' h h' => ?_, fun w r hr h => ?_, fun w i h => ?_⟩
  · obtain ⟨i, hi, rfl, hname⟩ := exists_encode_of_matchesWord hr h
    obtain ⟨i', hi', hw, hname'⟩ := exists_encode_of_matchesWord hr' h'
    cases encode_inj hi' hi hw
    exact List.inj_on_of_nodup_map nodup_mnemonics hr hr' (hname.symm.trans hname')
  · obtain ⟨i, hi, rfl, hname⟩ := exists_encode_of_matchesWord hr h
    exact ⟨i, decodeOfEncode i hi, hname⟩
  · obtain ⟨-, rfl⟩ := encodeOfDecode w i h
    exact exists_row_of_encode i

end Sys2Proof
end

section
/-! PROOFS. The engine step on a legal and on an illegal word (30_encoding.md R87, R90). -/

namespace Sys2Proof

/-- What the number of a legal word satisfies: by opcode, the fixed bits that are zero and the families of TBL_GEN
(30_encoding.md R87). -/
def LegalShape (n : Nat) : Prop :=
  n % 256 ∈ [0, 3, 4, 5, 6, 0x10, 0x20, 0x21, 0x24, 0x25, 0x26, 0xFF] ∧ n / 2 ^ 8 = 0 ∨
  n % 256 = 2 ∧ n / 2 ^ 16 = 0 ∨
  n % 256 ∈ [1, 0x22] ∧ n / 2 ^ 24 = 0 ∨
  n % 256 = 0x23 ∧ n / 256 % 4 ≠ 3 ∧ n / 2 ^ 15 = 0

theorem legalShape_wordG {fam : BitVec 2} (hfam : fam.toNat ≠ 3) (var : BitVec 3) (sz : Nat) :
    LegalShape (wordG fam var sz).toNat := by
  have hlt := fam.isLt
  have hvar := var.isLt
  refine .inr (.inr (.inr ?_))
  rw [toNat_wordG]
  omega

theorem legalShape_encode (i : Instr) : LegalShape (encode i).toNat := by
  cases i with
  | ckSeed seedL seedH =>
    refine .inr (.inr (.inl ⟨List.mem_cons.2 (.inl ?_), ?_⟩)) <;>
      rw [encode, toNat_formatS, BitVec.toNat_ofNat] <;> omega
  | ckByte imm8 =>
    refine .inr (.inl ?_)
    rw [encode, toNat_formatB, BitVec.toNat_ofNat]; omega
  | tblSplit chunk =>
    refine .inr (.inr (.inl ⟨List.mem_cons.2 (.inr (List.mem_singleton.2 ?_)), ?_⟩)) <;>
      rw [encode, toNat_formatK, BitVec.toNat_ofNat] <;> omega
  | tblGenComb var sz => exact legalShape_wordG (by decide) var sz
  | tblGenLinear var sz => exact legalShape_wordG (by decide) var sz
  | tblGenAttrSq var sz => exact legalShape_wordG (by decide) var sz
  | nop | ckRun | ckSolve | ckSolveAcc | ckCheck | blkSer | tblClear | tblAppend | tblSer | tblCheck | tblRead
  | sreset => exact .inl (by decide)

theorem matchesWord_eq_false {w : Word} (h : ¬ LegalShape w.toNat) : ∀ r ∈ opcodeMap, r.matchesWord w = false := by
  intro r hr
  by_contra hm
  obtain ⟨i, -, rfl, -⟩ := exists_encode_of_matchesWord hr (Bool.eq_true_of_not_eq_false hm)
  exact h (legalShape_encode i)

theorem exists_decode_eq_error {w : Word} (h : ∀ r ∈ opcodeMap, r.matchesWord w = false) :
    ∃ e, decode w = .error e := by
  cases hd : decode w with
  | error e => exact ⟨e, rfl⟩
  | ok i =>
    obtain ⟨-, rfl⟩ := encodeOfDecode w i hd
    obtain ⟨r, hr, hm, -⟩ := exists_row_of_encode i
    exact absurd (hm.symm.trans (h r hr)) (by decide)

theorem decode_of_decodeTableWord {nbits w : Nat} {i : Instr} (h : decodeTableWord nbits w = some i) :
    decode (BitVec.ofNat 32 w) = .ok i := by
  unfold decodeTableWord at h
  split at h
  · split at h
    · cases h; assumption
    · cases h
  · cases h

namespace Machine

theorem engineStep_of_decode_error {s : State} {w : Word} {e : Reject} (hd : decode w = .error e)
    (hf : s.fault = false) : engineStep w s = .next { s with err := .illegal, pend := none } := by
  rw [← raise_eq s .illegal (by decide)]
  simp [engineStep, hf, hd]

/-- While FAULT = 1 only SRESET's word runs, and that is the one word that decodes to SRESET (60_exceptions.md R245). -/
theorem engineStep_of_decode {s : State} {w : Word} {i : Instr} (hd : decode w = .ok i)
    (hf : s.fault = false ∨ i = .sreset) : engineStep w s = exec i s := by
  obtain ⟨-, hw⟩ := encodeOfDecode w i hd
  have hrun : ¬ (s.fault = true ∧ w ≠ 0x000000FF#32) := by
    rintro ⟨hfault, hne⟩
    obtain hf | rfl := hf
    · exact absurd (hf.symm.trans hfault) (by decide)
    · exact hne hw.symm
  simp [engineStep, hrun, hd]

/-- Settles O6: a word of no row does not decode, and the words R87 lists have not the shape of a legal word. -/
theorem illegalWordsRaiseIllegal : Obligations.IllegalWordsRaiseIllegal := by
  refine ⟨fun s es w h hf => ?_, fun w ho => ?_, fun w ho hfam => ?_, fun w ho hfix => ?_, fun w ho hfix => ?_,
    fun w ho hfix => ?_, fun w ho hfix => ?_⟩
  · obtain ⟨e, hd⟩ := exists_decode_eq_error h
    exact engineStep_of_decode_error (s := { s with pend := some w, events := es }) hd hf
  all_goals
    apply matchesWord_eq_false
    simp only [LegalShape, List.mem_cons, List.not_mem_nil, or_false] at *
    omega

/-- Settles O5: the three steps are engine steps on the pending word. -/
theorem stepRunsTheDecodedCommand : Obligations.StepRunsTheDecodedCommand := by
  refine ⟨fun s es w i hd hf => ⟨?_, ?_⟩, fun s nbits w i hd hf => ?_⟩
  · exact engineStep_of_decode (s := { s with pend := some w, events := es }) hd hf
  · exact engineStep_of_decode (s := { s with pend := some w, events := [] }) hd hf
  · exact engineStep_of_decode (s := s.accept (BitVec.ofNat 32 w)) (decode_of_decodeTableWord hd) (.inl hf)

end Machine
end Sys2Proof
end

section
/-! PROOFS. `RUN` as a run of the machine (30_encoding.md R92; 70_reset_and_hazards.md R273, R274): acceptance, polls,
the engine step, the last poll. No command reads the events to come or the bus's last answer. -/

namespace Sys2Proof.Machine

/-- The state with the events to come and the bus's last answer replaced: all that a poll changes. -/
def State.withHost (es : List Event) (rsp : Option Response) (s : State) : State := { s with events := es, resp := rsp }

/-- An outcome with the events to come and the bus's last answer replaced in its next state. -/
def Result.withHost (es : List Event) (rsp : Option Response) : Result → Result
  | .next t => .next (t.withHost es rsp)
  | .fault f => .fault f
  | .refused r => .refused r

section
variable {es : List Event} {rsp : Option Response} {s : State}

theorem State.withHost_entries : (s.withHost es rsp).entries = s.entries := rfl

theorem State.withHost_tidx : (s.withHost es rsp).tidx = s.tidx := rfl

theorem State.withHost_sufRule : (s.withHost es rsp).sufRule = s.sufRule := rfl

theorem readReg_withHost (r : Reg) : readReg (s.withHost es rsp) r = readReg s r := by cases r <;> rfl

/-- A command that stages the same but for the events and the answer ends the same but for them. -/
theorem finish_withHost {r r' : Except ErrCode State} (h : r' = r.map (State.withHost es rsp)) :
    finish (s.withHost es rsp) r' = Result.withHost es rsp (finish s r) := by
  subst h
  cases r <;> rfl

theorem generate_withHost (g : Option Gen) :
    generate (s.withHost es rsp) g = Result.withHost es rsp (generate s g) := by
  refine finish_withHost ?_
  cases g with
  | none => rfl
  | some g =>
    simp only [apply_ite (Except.map (State.withHost es rsp))]
    rfl

/-- Beside `exec_withBus`: no command, SRESET included, reads or writes the events to come or the bus's last answer. -/
theorem exec_withHost (i : Instr) : exec i (s.withHost es rsp) = Result.withHost es rsp (exec i s) := by
  cases i with
  | nop | ckSeed | ckByte | ckCheck | tblClear | tblCheck | sreset => rfl
  | ckRun | ckSolve | blkSer =>
    simp only [exec, execCkRun_eq, execCkSolve_eq, execBlkSer_eq, apply_ite (Result.withHost es rsp)]
    rfl
  | ckSolveAcc =>
    simp only [exec, execCkSolveAcc_eq, State.withHost_sufRule]
    cases s.sufRule <;> rfl
  | tblGenComb | tblGenLinear | tblGenAttrSq => exact generate_withHost _
  | tblAppend =>
    refine finish_withHost ?_
    simp only [apply_ite (Except.map (State.withHost es rsp))]
    rfl
  | tblSplit chunk =>
    refine finish_withHost ?_
    rw [State.withHost_entries, State.withHost_tidx]
    cases s.entries[s.tidx.toNat]? with
    | none => rfl
    | some e =>
      dsimp only
      cases splitEntry e chunk with
      | none => rfl
      | some subs =>
        simp only [apply_ite (Except.map (State.withHost es rsp))]
        rfl
  | tblSer =>
    refine finish_withHost ?_
    rw [State.withHost_entries]
    cases s.entries with
    | nil => rfl
    | cons e rest =>
      simp only [apply_ite (Except.map (State.withHost es rsp))]
      rfl
  | tblRead =>
    refine finish_withHost ?_
    rw [State.withHost_entries, State.withHost_tidx]
    cases s.entries[s.tidx.toNat]? <;> rfl

end

section
variable {i : Instr} {s t : State} (h : exec i s = .next t)
include h

theorem exec_withHost_of_next (es : List Event) (rsp : Option Response) :
    exec i (s.withHost es rsp) = .next (t.withHost es rsp) := by
  rw [exec_withHost, h, Result.withHost]

/-- A command leaves the events to come as they are: replacing them by themselves changes nothing. -/
theorem exec_events : t.events = s.events := by
  have hself : exec i s = .next (t.withHost s.events s.resp) := exec_withHost_of_next h s.events s.resp
  rw [Host.Outcome.next.inj (h.symm.trans hself)]
  rfl

theorem exec_pend : t.pend = none := by
  rcases exec_cases i s with ⟨u, -, hu⟩ | ⟨c, -, -, hc⟩ | ⟨-, hr⟩
  · cases hu.symm.trans h
    rfl
  · cases hc.symm.trans h
    rfl
  · cases hr.symm.trans h
    rfl

end

theorem getLsbD_zero_status {s : State} (hp : s.pend = none) : (readReg s .status).getLsbD 0 = false := by
  rw [readReg, getLsbD_statusWord s (by decide) (by decide)]
  simp [State.busy, hp]

/-- Every command the assembler writes is well formed, so its word decodes to it. -/
theorem AsmCmd.wellFormed_instr (c : AsmCmd) : c.instr.wellFormed = true := by
  cases c with
  | tblSplit chunk => exact decide_eq_true chunk.isLt
  | genSquare n | genAttrSq n => cases n <;> rfl
  | _ => rfl

theorem program_run (c : AsmCmd) (polls : Nat) :
    program [.run c polls] =
      wrEvent .cmd (encode c.instr) :: (List.replicate polls (rdEvent .status) ++ [.engine, rdEvent .status]) :=
  List.append_nil _

section
variable (s : State) (es : List Event) (rsp : Option Response) (r : Reg)

theorem step_poll :
    step (s.withHost (rdEvent r :: es) rsp) = .next (s.withHost es (some ⟨false, readReg s r⟩)) := by
  rw [← readReg_withHost (es := es) (rsp := rsp)]
  exact step_read_reg (s.withHost es rsp) es r

/-- Any number of polls changes the bus's last answer only, by induction over them. -/
theorem runSteps_polls (polls n : Nat) :
    ∃ rsp', runSteps (n + polls) (s.withHost (List.replicate polls (rdEvent r) ++ es) rsp) =
      runSteps n (s.withHost es rsp') := by
  induction polls generalizing rsp with
  | zero => exact ⟨rsp, rfl⟩
  | succ polls ih =>
    obtain ⟨rsp', hrun⟩ := ih (some ⟨false, readReg s r⟩)
    exact ⟨rsp', (runSteps_succ_of_step (step_poll s _ rsp r) (n + polls)).trans hrun⟩

end

/-- Settles O60: the write is the acceptance, the polls change the answer only, the engine step is the command on the
operands held, and the last poll reads BUSY = 0. -/
theorem runExecutesTheCommandOnce : Obligations.RunExecutesTheCommandOnce := by
  intro s u c polls hp hf hexec
  refine ⟨readReg u .status, ?_, getLsbD_zero_status (exec_pend hexec), exec_pend hexec⟩
  have haccept : step (s.withProgram [.run c polls]) = .next ((s.accept (encode c.instr)).withHost
      (List.replicate polls (rdEvent .status) ++ [.engine, rdEvent .status]) (some ⟨false, 0#32⟩)) := by
    rw [State.withProgram, program_run]
    exact step_write_reg_of_idle s _ .cmd _ hp
  obtain ⟨rsp, hpolls⟩ := runSteps_polls (s.accept (encode c.instr)) [.engine, rdEvent .status] (some ⟨false, 0#32⟩)
    .status polls 2
  have hengine : step ((s.accept (encode c.instr)).withHost [.engine, rdEvent .status] rsp) =
      .next (u.withHost [rdEvent .status] rsp) :=
    (engineStep_of_decode (s := (s.accept (encode c.instr)).withHost [rdEvent .status] rsp)
      (decodeOfEncode _ c.wellFormed_instr) (.inl hf)).trans (exec_withHost_of_next hexec [rdEvent .status] rsp)
  have hend : u.withHost [] (some ⟨false, readReg u .status⟩) = { u with resp := some ⟨false, readReg u .status⟩ } := by
    rw [← show u.events = [] from exec_events hexec]
    rfl
  calc runSteps (polls + 3) (s.withProgram [.run c polls])
    _ = runSteps (polls + 2) ((s.accept (encode c.instr)).withHost
          (List.replicate polls (rdEvent .status) ++ [.engine, rdEvent .status]) (some ⟨false, 0#32⟩)) :=
      runSteps_succ_of_step haccept (polls + 2)
    _ = runSteps 2 ((s.accept (encode c.instr)).withHost [.engine, rdEvent .status] rsp) := by
      rw [Nat.add_comm, hpolls]
    _ = runSteps 1 (u.withHost [rdEvent .status] rsp) := runSteps_succ_of_step hengine 1
    _ = .next (u.withHost [] (some ⟨false, readReg u .status⟩)) :=
      runSteps_succ_of_step (step_poll u [] rsp .status) 0
    _ = .next { u with resp := some ⟨false, readReg u .status⟩ } := congrArg _ hend

end Sys2Proof.Machine
end

section
/-! PROOFS. The suffix rules (40_checksum.md R104 to R109): both suffixes by their formulas, the terminal value they
force, and that a flipped bit changes them, since the low accumulator modulo 255 can be read off either. -/

namespace Sys2Proof.Machine

/-- `startL` of R106 as a number. -/
theorem literalSuffix_l (d : List Byte) : (literalSuffix d).l.toNat = 255 - (engine d zeroPair).l.toNat := by
  simp only [literalSuffix, BitVec.toNat_ofNat]; omega

/-- `startH` of R106 as a number, from the second run. -/
theorem literalSuffix_h (d : List Byte) :
    (literalSuffix d).h.toNat = 255 - (engine d ⟨(literalSuffix d).l, 0x00#8⟩).h.toNat := by
  simp only [literalSuffix, BitVec.toNat_ofNat]; omega

/-- Settles O32: the formulas as numbers, and a suffix appended to the data is the engine run on from their state. -/
theorem contractSuffixForcesTheTerminalValue : Obligations.ContractSuffixForcesTheTerminalValue := by
  refine ⟨fun p => ⟨contractSuffix_l p, ?_, engine_contractSuffix p⟩, fun d => ?_⟩
  · rw [contractSuffix_h, contractSuffix_l]
  · rw [engine_append]
    exact engine_contractSuffix _

/-- Settles O33: the two runs as numbers, and the LITERAL suffix as a seed. -/
theorem literalSuffixSeedsTheTerminalValue : Obligations.LiteralSuffixSeedsTheTerminalValue :=
  fun d => ⟨literalSuffix_l d, literalSuffix_h d, engine_literalSuffix d⟩

/-- Two bytes are equal modulo 255 only if they are equal or are 0 and 0xFF, so a flip of some bits but not of all
eight changes a byte modulo 255. -/
theorem toNat_xor_mod_ne {b c : Byte} (h0 : c ≠ 0x00#8) (hff : c ≠ 0xFF#8) :
    (b ^^^ c).toNat % 255 ≠ b.toNat % 255 := by
  intro h
  have hc : b ^^^ (b ^^^ c) = c := by rw [← BitVec.xor_assoc, BitVec.xor_self, BitVec.zero_xor]
  generalize b ^^^ c = b' at h hc
  have hb := b.isLt
  have hb' := b'.isLt
  have hcases : b.toNat = b'.toNat ∨ b.toNat = 0 ∧ b'.toNat = 255 ∨ b.toNat = 255 ∧ b'.toNat = 0 := by omega
  obtain heq | ⟨hz, hf⟩ | ⟨hf, hz⟩ := hcases
  · exact h0 (by rw [← hc, BitVec.eq_of_toNat_eq heq, BitVec.xor_self])
  all_goals
    refine hff ?_
    rw [← hc, BitVec.eq_of_toNat_eq (y := 0x00#8) hz, BitVec.eq_of_toNat_eq (y := 0xFF#8) hf]
    rfl

theorem byteSum_set (d : List Byte) (i : Nat) (hi : i < d.length) (b : Byte) :
    byteSum (d.set i b) + d[i].toNat = byteSum d + b.toNat := by
  induction d generalizing i with
  | nil => exact absurd hi (Nat.not_lt_zero i)
  | cons x d ih =>
    cases i with
    | zero => simp only [List.set_cons_zero, List.getElem_cons_zero, byteSum_cons]; omega
    | succ i =>
      have hset := ih i (Nat.lt_of_succ_lt_succ hi)
      simp only [List.set_cons_succ, List.getElem_cons_succ, byteSum_cons]; omega

/-- Data with the same suffix have the same sum modulo 255: the suffix, under either rule, tells the low accumulator
modulo 255. -/
theorem byteSum_mod_of_suffixOf_eq {d e : List Byte} {r : SufRule} (h : suffixOf d r = suffixOf e r) :
    byteSum d % 255 = byteSum e % 255 := by
  have hd : (engine d zeroPair).l.toNat % 255 = (0 + byteSum d) % 255 := engine_l_mod d zeroPair
  have he : (engine e zeroPair).l.toNat % 255 = (0 + byteSum e) % 255 := engine_l_mod e zeroPair
  have hl := congrArg (·.l.toNat) h
  have hh := congrArg (·.h.toNat) h
  cases r with
  | contract =>
    simp only [suffixOf, contractSuffix_h] at hl hh
    omega
  | literal =>
    have hd' := (engine d zeroPair).l.isLt
    have he' := (engine e zeroPair).l.isLt
    simp only [suffixOf, literalSuffix_l] at hl
    omega

/-- Settles O34: the flip changes the sum of the bytes modulo 255. -/
theorem suffixChangesWithEveryBitFlip : Obligations.SuffixChangesWithEveryBitFlip := by
  intro d i hi k r hk
  refine ⟨_, _, _, _, solve_eq d r, solve_eq _ r, fun h => ?_⟩
  have hbit : ∀ k < 8, (1#8 <<< k : Byte) ≠ 0x00#8 ∧ (1#8 <<< k : Byte) ≠ 0xFF#8 := by decide
  obtain ⟨h0, hff⟩ := hbit k hk
  have hflip := toNat_xor_mod_ne (b := d[i]) h0 hff
  have hset := byteSum_set d i hi (d[i] ^^^ 1#8 <<< k)
  have hsum := byteSum_mod_of_suffixOf_eq h
  omega

end Sys2Proof.Machine
end

section
/-! PROOFS. The CK commands (40_checksum.md R110 to R115). Each commits one of three updates, of ACC, of CKOK, or of
SUFFIX, ACC and CKOK, and the frame of each update is proved once. -/

namespace Sys2Proof.Machine

/-- A commit changes what STATUS reads and no other register. -/
theorem readReg_commit (s : State) {r : Reg} (h : r ≠ .status) : readReg s.commit r = readReg s r := by
  cases r with
  | status => exact absurd rfl h
  | _ => rfl

section
variable {s t : State} {i : Instr} {changed : List Reg} {mask : Word}

/-- A command that stages neither OBUF nor the table leaves everything but the registers and STATUS bits it names. -/
theorem Staged.frame_commit (h : Staged s i t)
    (hregs : ∀ r : Reg, r ≠ .status → r ∉ changed → readReg t r = readReg s r)
    (hstatus : StatusKept mask s t.commit) (hobuf : t.obuf = s.obuf) (htable : TableKept s t) :
    CommandFrame changed mask s t.commit ∧ ObufKept s t.commit ∧ TableKept s t.commit := by
  obtain ⟨hparams, -, -, -, hoverrun, -, -, -, -, -, -, -, -, hibuf, hevents, hresp⟩ := h.keeps
  have hdone : Completed s t.commit := completed_commit ⟨hoverrun, hibuf, hparams, hevents, hresp⟩
  refine ⟨⟨hdone, fun r hr hc => ?_, hstatus⟩, fun a => ?_, htable⟩
  · rw [readReg_commit t hr, hregs r hr hc]
  · rw [State.commit_obuf, hobuf]

theorem Staged.frame_setAcc {p : BytePair} (h : Staged s i (s.setAcc p)) :
    CommandFrame [.acc] maskDone s (s.setAcc p).commit ∧ ObufKept s (s.setAcc p).commit ∧
    TableKept s (s.setAcc p).commit := by
  refine h.frame_commit (fun r _ hr => ?_) (statusKept_done ⟨rfl, rfl, rfl, rfl, rfl, rfl, rfl⟩) rfl ⟨rfl, rfl⟩
  cases r with
  | acc => exact absurd (.head _) hr
  | _ => rfl

theorem Staged.frame_setCkok {b : Bool} (h : Staged s i (s.setCkok b)) :
    CommandFrame [] maskCkok s (s.setCkok b).commit ∧ ObufKept s (s.setCkok b).commit ∧
    TableKept s (s.setCkok b).commit := by
  refine h.frame_commit (fun r hr _ => ?_) (statusKept_ckok ⟨rfl, rfl, rfl, rfl, rfl, rfl⟩) rfl ⟨rfl, rfl⟩
  cases r with
  | status => exact absurd rfl hr
  | _ => rfl

theorem Staged.frame_setSolved {xy chk : BytePair} (h : Staged s i (s.setSolved xy chk)) :
    CommandFrame [.acc, .suffix] maskCkok s (s.setSolved xy chk).commit ∧ ObufKept s (s.setSolved xy chk).commit ∧
    TableKept s (s.setSolved xy chk).commit := by
  refine h.frame_commit (fun r hs hr => ?_) (statusKept_ckok ⟨rfl, rfl, rfl, rfl, rfl, rfl⟩) rfl ⟨rfl, rfl⟩
  cases r with
  | status => exact absurd rfl hs
  | acc => exact absurd (.head _) hr
  | suffix => exact absurd (.tail _ (.head _)) hr
  | _ => rfl

end

/-- The bytes of the input range, by their offsets in IBUF (40_checksum.md R112). -/
theorem input_eq {s : State} {d : List Byte} (hlen : d.length = s.len.toNat)
    (hd : ∀ (i : Nat) (hi : i < d.length), d[i] = s.ibuf.read (s.src.toNat + i)) : s.input = d := by
  refine List.ext_getElem (by rw [length_input, hlen]) fun i _ hi => ?_
  rw [hd i hi]
  exact Memory.getElem_readRange ..

/-- Settles O35: the word round-trips, and the staged update of ACC is the seed. -/
theorem ckSeedLoadsTheAccumulators : Obligations.CkSeedLoadsTheAccumulators :=
  ⟨fun l h => decodeOfEncode (.ckSeed l h) rfl, fun _ l h => ⟨_, rfl, rfl, (Staged.ckSeed l h).frame_setAcc⟩⟩

/-- Settles O36: both accumulators are one's-complement sums. -/
theorem ckByteAbsorbsOneByte : Obligations.CkByteAbsorbsOneByte :=
  ⟨fun b => decodeOfEncode (.ckByte b) rfl,
    fun _ b => ⟨_, rfl, ocAdd_toNat _ _, ocAdd_toNat _ _, (Staged.ckByte b).frame_setAcc⟩⟩

/-- Settles O37, by the two cases of the range check. -/
theorem ckRunAbsorbsTheInputRange : Obligations.CkRunAbsorbsTheInputRange := by
  refine ⟨decodeOfEncode .ckRun rfl, fun s d hlen hd => ⟨fun hfits => ?_, fun hover => ?_⟩⟩
  · have hacc : (s.setAcc (engine s.input s.acc)).commit.acc = engine d s.acc := by
      rw [← input_eq hlen hd]; rfl
    refine ⟨_, (execCkRun_eq s).trans (if_pos hfits), hacc, fun h0 => ?_, (Staged.ckRun hfits).frame_setAcc⟩
    have hnil : d = [] := List.eq_nil_of_length_eq_zero (hlen.trans (congrArg BitVec.toNat h0))
    rw [hacc, hnil, engine_nil]
  · rw [← raise_eq s .range (by decide)]
    exact (execCkRun_eq s).trans (if_neg (Nat.not_le.2 hover))

/-- Settles O38, by the two cases of the range check. -/
theorem ckSolveWritesTheSuffixOfTheInput : Obligations.CkSolveWritesTheSuffixOfTheInput := by
  refine ⟨decodeOfEncode .ckSolve rfl, fun s d hlen hd => ⟨fun hfits => ?_, fun hover => ?_⟩⟩
  · have hsuffix : (s.setSolved (suffixOf s.input s.sufRule) terminal).commit.suffix = suffixOf d s.sufRule := by
      rw [← input_eq hlen hd]; rfl
    refine ⟨_, (execCkSolve_eq s).trans (if_pos hfits), fun hr => ?_, fun hr => ?_, rfl, rfl,
      (Staged.ckSolve hfits).frame_setSolved⟩
    · rw [hsuffix, hr]; rfl
    · rw [hsuffix, hr]; rfl
  · rw [← raise_eq s .range (by decide)]
    exact (execCkSolve_eq s).trans (if_neg (Nat.not_le.2 hover))

/-- Settles O39, by the two suffix rules. -/
theorem ckSolveAccSolvesFromTheAccumulators : Obligations.CkSolveAccSolvesFromTheAccumulators := by
  refine ⟨decodeOfEncode .ckSolveAcc rfl, fun s => ⟨fun hr => ?_, fun hr => ?_⟩⟩
  · have hexec : exec .ckSolveAcc s = .next (s.setSolved (contractSuffix s.acc) terminal).commit := by
      rw [exec, execCkSolveAcc_eq, hr]
    exact ⟨_, hexec, contractSuffix_l s.acc, contractSuffix_h s.acc, rfl, rfl,
      (Staged.ckSolveAcc hr).frame_setSolved⟩
  · rw [← raise_eq s .mode (by decide), exec, execCkSolveAcc_eq, hr]

/-- Settles O40: CKOK is the comparison with the all-ones pair. -/
theorem ckCheckComparesWithAllOnes : Obligations.CkCheckComparesWithAllOnes := by
  refine ⟨decodeOfEncode .ckCheck rfl, fun s => ⟨_, rfl, ?_, Staged.ckCheck.frame_setCkok⟩⟩
  show ckokOf s.acc = true ↔ _
  rw [ckokOf, Bool.and_eq_true, beq_iff_eq, beq_iff_eq]

end Sys2Proof.Machine
end

section
/-! PROOFS. BLK_SER (41_block.md R131 to R139): its checks, the block as one list of bytes, where the block's parts
stand in OBUF, and that checks and block depend on the operands only. -/

namespace Sys2Proof.Machine

/-- The error BLK_SER raises, the first of its checks that fails (41_block.md R137; 60_exceptions.md R242). -/
def State.blockError (s : State) : Option ErrCode :=
  if s.params.ibufSize < s.src.toNat + s.len.toNat then some .range
  else if 0xFFFFFF < s.len.toNat + 3 then some .length
  else if s.params.obufSize < s.dst.toNat + s.len.toNat + 22 then some .range
  else none

/-- The suffix BLK_SER solves, over the sanity marker and the transformed payload (41_block.md R133). -/
def State.blockSuffix (s : State) : BytePair := suffixOf (blockBody0 s) s.sufRule

/-- The complete output of BLK_SER (41_block.md R136). -/
def State.block (s : State) : List Byte := blockBytes s s.blockSuffix

/-- What BLK_SER stages on success (41_block.md R137). -/
def State.stageBlock (s : State) : State := (s.emit s.block).setSolved s.blockSuffix terminal

section
variable {s t : State}

theorem exec_blkSer_of_error {c : ErrCode} (h : s.blockError = some c) : exec .blkSer s = .next (s.raise c) := by
  rw [exec, execBlkSer_eq]
  simp only [State.blockError] at h
  split_ifs at h ⊢ <;> cases h <;> rfl

theorem exec_blkSer_of_no_error (h : s.blockError = none) : exec .blkSer s = .next s.stageBlock.commit := by
  rw [exec, execBlkSer_eq]
  simp only [State.blockError] at h
  split_ifs at h ⊢
  rfl

theorem blockError_ne_ok : s.blockError ≠ some .ok := by
  unfold State.blockError
  split_ifs <;> decide

/-- BLK_SER ends with ERR = 0 only by committing the block. -/
theorem eq_commit_of_exec_blkSer (h : exec .blkSer s = .next t) (hok : t.err = .ok) : t = s.stageBlock.commit := by
  cases herr : s.blockError with
  | none => exact Host.Outcome.next.inj (h.symm.trans (exec_blkSer_of_no_error herr))
  | some c =>
    cases h.symm.trans (exec_blkSer_of_error herr)
    exact absurd (herr.trans (congrArg some hok)) blockError_ne_ok

section
variable (hin : s.src.toNat + s.len.toNat ≤ s.params.ibufSize)
include hin

theorem blockError_of_length_over (h : 0xFFFFFF < s.len.toNat + 3) : s.blockError = some .length := by
  rw [State.blockError, if_neg (Nat.not_lt.2 hin), if_pos h]

variable (hlen : s.len.toNat + 3 ≤ 0xFFFFFF)
include hlen

theorem blockError_of_output_over (h : s.params.obufSize < s.dst.toNat + s.len.toNat + 22) :
    s.blockError = some .range := by
  rw [State.blockError, if_neg (Nat.not_lt.2 hin), if_neg (Nat.not_lt.2 hlen), if_pos h]

theorem blockError_of_fits (h : s.dst.toNat + s.len.toNat + 22 ≤ s.params.obufSize) : s.blockError = none := by
  rw [State.blockError, if_neg (Nat.not_lt.2 hin), if_neg (Nat.not_lt.2 hlen), if_neg (Nat.not_lt.2 h)]

end
end

/-- Settles O43: each clause is one check's failure after the checks before it. -/
theorem blkSerErrorsInOrder : Obligations.BlkSerErrorsInOrder := by
  intro s
  rw [← raise_eq s .range (by decide), ← raise_eq s .length (by decide)]
  exact ⟨fun hin => exec_blkSer_of_error (if_pos hin),
    fun hin hlen => exec_blkSer_of_error (blockError_of_length_over hin hlen),
    fun hin hlen hout => exec_blkSer_of_error (blockError_of_output_over hin hlen hout)⟩

theorem length_block (s : State) : s.block.length = s.len.toNat + 22 := length_blockBytes s s.blockSuffix

/-- The sanity marker and the transformed payload follow the 19 bytes of header and length (41_block.md R136). -/
theorem drop_block (s : State) : s.block.drop 19 = blockBody0 s ++ [s.blockSuffix.l, s.blockSuffix.h] := by
  rw [State.block, blockBytes, List.append_assoc]
  exact List.drop_left' (by rw [List.length_append, length_header16]; rfl)

/-- A byte of the transformed payload (41_block.md R131). -/
theorem getElem?_blockBody0_succ (s : State) {i : Nat} (h : i < s.len.toNat) :
    (blockBody0 s)[i + 1]? = some (s.ibuf.read (s.src.toNat + i) ^^^ 0x90#8) := by
  rw [blockBody0, List.getElem?_cons_succ, transform, List.getElem?_map,
    List.getElem?_eq_getElem ((length_input s).symm ▸ h)]
  exact congrArg (fun b => some (b ^^^ 0x90#8)) (Memory.getElem_readRange ..)

/-- `B0` is the list of the marker and the input bytes XOR 0x90 (41_block.md R132). -/
theorem blockBody0_eq {s : State} {body : List Byte} (hlen : body.length = s.len.toNat + 1)
    (hmarker : body[0]? = some s.cfgSanity)
    (hpayload : ∀ i < s.len.toNat, body[i + 1]? = some (s.ibuf.read (s.src.toNat + i) ^^^ 0x90#8)) :
    blockBody0 s = body := by
  refine List.ext_getElem? fun i => ?_
  rcases Nat.lt_or_ge i (s.len.toNat + 1) with hi | hi
  · cases i with
    | zero => exact hmarker.symm
    | succ i =>
      have hi' := Nat.lt_of_succ_lt_succ hi
      rw [getElem?_blockBody0_succ s hi', hpayload i hi']
  · rw [List.getElem?_eq_none (by rwa [length_blockBody0]), List.getElem?_eq_none (by rwa [hlen])]

theorem lo8_toNat (n : Nat) : (lo8 n).toNat = n % 256 := BitVec.toNat_ofNat n 8

theorem hi8_toNat (n : Nat) : (hi8 n).toNat = n / 256 % 256 := BitVec.toNat_ofNat (n / 2 ^ 8) 8

theorem b2_toNat (n : Nat) : (b2 n).toNat = n / 65536 % 256 := BitVec.toNat_ofNat (n / 2 ^ 16) 8

/-- The two bytes of a 16-bit value, put together again (00_scope.md R7). -/
theorem hi8_append_lo8 (v : BitVec 16) : hi8 v.toNat ++ lo8 v.toNat = v := by
  have hv := v.isLt
  have hlt := (lo8 v.toNat).isLt
  refine BitVec.eq_of_toNat_eq ?_
  rw [BitVec.toNat_append, ← Nat.shiftLeft_add_eq_or_of_lt hlt, Nat.shiftLeft_eq, lo8_toNat, hi8_toNat]
  omega

/-- A part of what was written reads back. -/
theorem Memory.readRange_write_part (m : Memory) (a : Nat) (bs : List Byte) {k n : Nat} (h : k + n ≤ bs.length) :
    (m.write a bs).readRange (a + k) n = (bs.drop k).take n := by
  refine List.ext_getElem (by rw [length_readRange, List.length_take, List.length_drop]; omega) fun i hi _ => ?_
  rw [length_readRange] at hi
  rw [getElem_readRange, Nat.add_assoc, read_write_inside m a bs (k + i) (by omega), List.getElem_take,
    List.getElem_drop]

section
variable (s : State)

/-- A byte of the block stands in OBUF at its index from DST (41_block.md R136). -/
theorem read_stageBlock {k : Nat} {b : Byte} (h : s.block[k]? = some b) :
    s.stageBlock.commit.obuf.read (s.dst.toNat + k) = b := by
  obtain ⟨hk, rfl⟩ := List.getElem?_eq_some_iff.1 h
  exact Memory.read_write_inside s.obuf s.dst.toNat s.block k hk

/-- The header and the length field come first (41_block.md R136). -/
theorem read_stageBlock_head {k : Nat} {b : Byte} (h : (header16 s ++ le24 (s.len.toNat + 3))[k]? = some b) :
    s.stageBlock.commit.obuf.read (s.dst.toNat + k) = b := by
  obtain ⟨hk, -⟩ := List.getElem?_eq_some_iff.1 h
  refine read_stageBlock s ?_
  rw [State.block, blockBytes, List.append_assoc, List.getElem?_append_left hk, h]

/-- A 16-bit field of the header reads little-endian (41_block.md R134). -/
theorem read_stageBlock_le16 {k : Nat} {v : BitVec 16} (hlo : (header16 s)[k]? = some (lo8 v.toNat))
    (hhi : (header16 s)[k + 1]? = some (hi8 v.toNat)) :
    s.stageBlock.commit.obuf.read (s.dst.toNat + (k + 1)) ++ s.stageBlock.commit.obuf.read (s.dst.toNat + k) = v := by
  obtain ⟨hk, -⟩ := List.getElem?_eq_some_iff.1 hhi
  rw [read_stageBlock_head s ((List.getElem?_append_left (Nat.lt_of_succ_lt hk)).trans hlo),
    read_stageBlock_head s ((List.getElem?_append_left hk).trans hhi), hi8_append_lo8]

/-- The three bytes of the length field are LEN + 3, which fits them (41_block.md R135). -/
theorem read_stageBlock_length (h : s.len.toNat + 3 ≤ 0xFFFFFF) :
    (s.stageBlock.commit.obuf.read (s.dst.toNat + 16)).toNat +
      256 * (s.stageBlock.commit.obuf.read (s.dst.toNat + 17)).toNat +
      65536 * (s.stageBlock.commit.obuf.read (s.dst.toNat + 18)).toNat = s.len.toNat + 3 := by
  rw [read_stageBlock_head s (k := 16) rfl, read_stageBlock_head s (k := 17) rfl, read_stageBlock_head s (k := 18) rfl,
    lo8_toNat, hi8_toNat, b2_toNat]
  omega

theorem getElem?_block_body0 {i : Nat} (h : i < s.len.toNat + 1) : s.block[19 + i]? = (blockBody0 s)[i]? := by
  rw [← List.getElem?_drop, drop_block, List.getElem?_append_left (by rwa [length_blockBody0])]

theorem getElem?_block_marker : s.block[19]? = some s.cfgSanity :=
  getElem?_block_body0 s (i := 0) (Nat.succ_pos _)

theorem getElem?_block_payload {i : Nat} (h : i < s.len.toNat) :
    s.block[20 + i]? = some (s.ibuf.read (s.src.toNat + i) ^^^ 0x90#8) := by
  rw [show 20 + i = 19 + (i + 1) by omega, getElem?_block_body0 s (by omega), getElem?_blockBody0_succ s h]

theorem getElem?_block_suffix (j : Nat) :
    s.block[20 + j + s.len.toNat]? = [s.blockSuffix.l, s.blockSuffix.h][j]? := by
  rw [show 20 + j + s.len.toNat = 19 + (s.len.toNat + 1 + j) by omega, ← List.getElem?_drop, drop_block,
    List.getElem?_append_right (by rw [length_blockBody0]; omega), length_blockBody0, Nat.add_sub_cancel_left]

/-- The body in OBUF, with the suffix: the NB bytes after the length field. -/
theorem readRange_stageBlock_body :
    s.stageBlock.commit.obuf.readRange (s.dst.toNat + 19) (s.len.toNat + 3) =
      blockBody0 s ++ [s.blockSuffix.l, s.blockSuffix.h] := by
  rw [← drop_block]
  refine (Memory.readRange_write_part s.obuf s.dst.toNat s.block (by rw [length_block]; omega)).trans ?_
  exact List.take_of_length_le (by rw [List.length_drop, length_block]; omega)

/-- The body in OBUF without the suffix. -/
theorem readRange_stageBlock_body0 :
    s.stageBlock.commit.obuf.readRange (s.dst.toNat + 19) (s.len.toNat + 1) = blockBody0 s := by
  refine (Memory.readRange_write_part s.obuf s.dst.toNat s.block (by rw [length_block]; omega)).trans ?_
  rw [drop_block]
  exact List.take_left' (length_blockBody0 s)

end

/-- Settles O42: CONTRACT's suffix ends the engine's run over the body, LITERAL's seeds it. -/
theorem receiverAcceptsTheBlock : Obligations.ReceiverAcceptsTheBlock := by
  intro s t hexec hok
  rw [eq_commit_of_exec_blkSer hexec hok]
  refine ⟨fun hrule => ?_, fun hrule => ?_⟩
  · have hsuffix : s.blockSuffix = contractSuffix (engine (blockBody0 s) zeroPair) := by
      rw [State.blockSuffix, hrule, suffixOf]
    rw [readRange_stageBlock_body, engine_append, hsuffix]
    exact engine_contractSuffix _
  · have hsuffix : s.blockSuffix = literalSuffix (blockBody0 s) := by
      rw [State.blockSuffix, hrule, suffixOf]
    rw [readRange_stageBlock_body0, Nat.add_assoc, Nat.add_assoc, read_stageBlock s (getElem?_block_suffix s 0),
      read_stageBlock s (getElem?_block_suffix s 1), hsuffix]
    exact engine_literalSuffix _

/-- A commit that changes no register and no STATUS bit but those named has the command's frame. -/
theorem Staged.commandFrame_commit {s t : State} {i : Instr} {changed : List Reg} {mask : Word} (h : Staged s i t)
    (hregs : ∀ r : Reg, r ≠ .status → r ∉ changed → readReg t r = readReg s r)
    (hstatus : StatusKept mask s t.commit) : CommandFrame changed mask s t.commit := by
  obtain ⟨hparams, -, -, -, hoverrun, -, -, -, -, -, -, -, -, hibuf, hevents, hresp⟩ := h.keeps
  refine ⟨completed_commit ⟨hoverrun, hibuf, hparams, hevents, hresp⟩, fun r hr hc => ?_, hstatus⟩
  rw [readReg_commit t hr, hregs r hr hc]

theorem readReg_emit (s : State) (out : List Byte) {r : Reg} (h : r ≠ .outLen) :
    readReg (s.emit out) r = readReg s r := by
  cases r with
  | outLen => exact absurd rfl h
  | _ => rfl

theorem readReg_setSolved (s : State) (xy chk : BytePair) {r : Reg} (hs : r ≠ .status) (h : r ∉ [.acc, .suffix]) :
    readReg (s.setSolved xy chk) r = readReg s r := by
  cases r with
  | status => exact absurd rfl hs
  | acc => exact absurd (.head _) h
  | suffix => exact absurd (.tail _ (.head _)) h
  | _ => rfl

theorem Staged.commandFrame_stageBlock {s : State} (h : Staged s .blkSer s.stageBlock) :
    CommandFrame [.acc, .suffix, .outLen] maskCkok s s.stageBlock.commit := by
  refine h.commandFrame_commit (fun r hs hr => ?_) (statusKept_ckok (by simp [State.stageBlock]))
  have hout : r ≠ .outLen := fun he => hr (by simp [he])
  have hsolved : r ∉ [.acc, .suffix] := fun he => hr (List.mem_append_left [Reg.outLen] he)
  rw [State.stageBlock, readReg_setSolved _ _ _ hs hsolved, readReg_emit _ _ hout]

theorem obufKeptOutside_stageBlock (s : State) : ObufKeptOutside (s.len.toNat + 22) s s.stageBlock.commit := by
  intro a ha
  exact Memory.read_write_outside s.obuf s.dst.toNat s.block a (by rwa [length_block])

theorem tableKept_stageBlock (s : State) : TableKept s s.stageBlock.commit := by simp [TableKept, State.stageBlock]

theorem outLen_stageBlock (s : State) : s.stageBlock.commit.outLen = BitVec.ofNat 32 (s.len.toNat + 22) :=
  congrArg (BitVec.ofNat 32) (length_block s)

theorem toNat_outLen_stageBlock (s : State) : s.stageBlock.commit.outLen.toNat = s.len.toNat + 22 := by
  have hlen := s.len.isLt
  rw [outLen_stageBlock, BitVec.toNat_ofNat]
  omega

/-- Settles O41: the block's bytes stand in OBUF from DST, and what is staged changes no more than the solver's results,
OUTLEN and those bytes. -/
theorem blkSerLaysOutTheBlock : Obligations.BlkSerLaysOutTheBlock := by
  intro s body hbody hmarker hpayload hin hlen hout
  have hsuffix : s.stageBlock.commit.suffix = suffixOf body s.sufRule := by
    rw [← blockBody0_eq hbody hmarker hpayload]
    rfl
  have hframe := (Staged.blkSer hin hlen hout).commandFrame_stageBlock
  refine ⟨_, exec_blkSer_of_no_error (blockError_of_fits hin hlen hout), ?_, fun hrule => ?_, fun hrule => ?_,
    toNat_outLen_stageBlock s, rfl, rfl, hframe, obufKeptOutside_stageBlock s, tableKept_stageBlock s⟩
  · exact ⟨read_stageBlock_head s (k := 0) rfl, read_stageBlock_le16 s (k := 1) rfl rfl,
      read_stageBlock_le16 s (k := 3) rfl rfl, read_stageBlock_le16 s (k := 5) rfl rfl,
      read_stageBlock_le16 s (k := 7) rfl rfl, read_stageBlock_le16 s (k := 9) rfl rfl,
      read_stageBlock_le16 s (k := 11) rfl rfl, read_stageBlock_head s (k := 13) rfl,
      read_stageBlock_le16 s (k := 14) rfl rfl, read_stageBlock_length s hlen,
      read_stageBlock s (getElem?_block_marker s),
      fun i hi => read_stageBlock s (getElem?_block_payload s hi),
      read_stageBlock s (getElem?_block_suffix s 0), read_stageBlock s (getElem?_block_suffix s 1)⟩
  · rw [hsuffix, hrule]; rfl
  · rw [hsuffix, hrule]; rfl

/-- What BLK_SER reads is the same: the parameters, the registers 41_block.md R137 names and the input bytes. -/
structure SameBlockOperands (s s' : State) : Prop where
  params : s.params = s'.params
  src : s.src = s'.src
  len : s.len = s'.len
  dst : s.dst = s'.dst
  hdr : s.hdr = s'.hdr
  cfgTag : s.cfgTag = s'.cfgTag
  cfgSanity : s.cfgSanity = s'.cfgSanity
  sufRule : s.sufRule = s'.sufRule
  input : ∀ i < s.len.toNat, s.ibuf.read (s.src.toNat + i) = s'.ibuf.read (s.src.toNat + i)

section
variable {s s' : State} (h : SameBlockOperands s s')
include h

theorem SameBlockOperands.blockError_eq : s.blockError = s'.blockError := by
  simp only [State.blockError, h.params, h.src, h.len, h.dst]

theorem SameBlockOperands.blockBody0_eq : blockBody0 s = blockBody0 s' := by
  have hinput : s.input = s'.input := by
    rw [State.input, State.input, ← h.src, ← h.len]
    exact Memory.readRange_congr _ _ _ _ h.input
  rw [blockBody0, blockBody0, h.cfgSanity, hinput]

theorem SameBlockOperands.blockSuffix_eq : s.blockSuffix = s'.blockSuffix := by
  rw [State.blockSuffix, State.blockSuffix, h.blockBody0_eq, h.sufRule]

theorem SameBlockOperands.block_eq : s.block = s'.block := by
  simp only [State.block, blockBytes, header16, h.blockBody0_eq, h.blockSuffix_eq, h.cfgTag, h.hdr, h.len]

end

/-- Settles O44: the units raise the same error or commit the same block. -/
theorem blkSerDependsOnItsOperandsOnly : Obligations.BlkSerDependsOnItsOperandsOnly := by
  intro s s' t t' hparams hsrc hlen hdst hhdr htag hsan hrule hinput hexec hexec'
  have hsame : SameBlockOperands s s' := ⟨hparams, hsrc, hlen, hdst, hhdr, htag, hsan, hrule, hinput⟩
  cases herr : s.blockError with
  | some c =>
    cases hexec.symm.trans (exec_blkSer_of_error herr)
    cases hexec'.symm.trans (exec_blkSer_of_error (hsame.blockError_eq.symm.trans herr))
    exact ⟨rfl, fun hok => absurd (herr.trans (congrArg some hok)) blockError_ne_ok⟩
  | none =>
    cases hexec.symm.trans (exec_blkSer_of_no_error herr)
    cases hexec'.symm.trans (exec_blkSer_of_no_error (hsame.blockError_eq.symm.trans herr))
    refine ⟨rfl, fun _ => ⟨fun k hk => ?_, hsame.blockSuffix_eq, ?_⟩⟩
    · have hbyte : s.block[k]? = some _ := List.getElem?_eq_getElem (by rwa [length_block])
      rw [read_stageBlock s hbyte, hdst, read_stageBlock s' (by rw [← hsame.block_eq, hbyte])]
    · rw [outLen_stageBlock, outLen_stageBlock, hlen]

end Sys2Proof.Machine
end

section
/-! PROOFS. The TBL commands that write no bytes (42_table.md R170 to R173, R176, R177): each commits an update of the
table, of COVOK or of ENTRY, whose frame is proved once, or raises the first of its checks that fails. -/

namespace Sys2Proof.Machine

theorem readReg_setCovok (s : State) (b : Bool) {r : Reg} (h : r ≠ .status) :
    readReg (s.setCovok b) r = readReg s r := by
  cases r with
  | status => exact absurd rfl h
  | _ => rfl

theorem readReg_setCount (s : State) (n : Nat) {r : Reg} (h : r ≠ .tcount) :
    readReg (s.setCount n) r = readReg s r := by
  cases r with
  | tcount => exact absurd rfl h
  | _ => rfl

theorem readReg_setTable (s : State) (es : List Entry) {r : Reg} (h : r ≠ .tcount) :
    readReg (s.setTable es) r = readReg s r := by
  cases r with
  | tcount => exact absurd rfl h
  | _ => rfl

theorem readReg_setEntry (s : State) (w : Word) {r : Reg} (h : r ≠ .entry) :
    readReg (s.setEntry w) r = readReg s r := by
  cases r with
  | entry => exact absurd rfl h
  | _ => rfl

section
variable {s : State} {i : Instr} {b : Bool}

theorem Staged.frame_setCovok (h : Staged s i (s.setCovok b)) :
    CommandFrame [] maskCovok s (s.setCovok b).commit ∧ ObufKept s (s.setCovok b).commit ∧
    TableKept s (s.setCovok b).commit :=
  h.frame_commit (fun _ hr _ => readReg_setCovok s b hr) (statusKept_covok ⟨rfl, rfl, rfl, rfl, rfl, rfl⟩) rfl ⟨rfl, rfl⟩

theorem Staged.frame_setEntry {w : Word} (h : Staged s i (s.setEntry w)) :
    CommandFrame [.entry] maskDone s (s.setEntry w).commit ∧ ObufKept s (s.setEntry w).commit ∧
    TableKept s (s.setEntry w).commit :=
  h.frame_commit (fun _ _ hr => readReg_setEntry s w (List.ne_of_not_mem_cons hr))
    (statusKept_done ⟨rfl, rfl, rfl, rfl, rfl, rfl, rfl⟩) rfl ⟨rfl, rfl⟩

theorem Staged.commandFrame_setCount {n : Nat} (h : Staged s i ((s.setCount n).setCovok b)) :
    CommandFrame [.tcount] maskCovok s ((s.setCount n).setCovok b).commit :=
  h.commandFrame_commit
    (fun _ hs hr => (readReg_setCovok _ b hs).trans (readReg_setCount s n (List.ne_of_not_mem_cons hr)))
    (statusKept_covok ⟨rfl, rfl, rfl, rfl, rfl, rfl⟩)

theorem Staged.commandFrame_setTable {es : List Entry} (h : Staged s i ((s.setTable es).setCovok b)) :
    CommandFrame [.tcount] maskCovok s ((s.setTable es).setCovok b).commit :=
  h.commandFrame_commit
    (fun _ hs hr => (readReg_setCovok _ b hs).trans (readReg_setTable s es (List.ne_of_not_mem_cons hr)))
    (statusKept_covok ⟨rfl, rfl, rfl, rfl, rfl, rfl⟩)

end

/-- Settles O45: TCOUNT and COVOK are the only fields staged. -/
theorem tblClearEmptiesTheTable : Obligations.TblClearEmptiesTheTable :=
  ⟨decodeOfEncode .tblClear rfl, fun s => ⟨_, rfl, rfl, entries_setCount_zero s, rfl,
    Staged.tblClear.commandFrame_setCount, fun _ => rfl, rfl⟩⟩

/-- Settles O49: the sort-and-chain test decides the partition for the valid entries of a TBME. -/
theorem tblCheckDecidesThePartition : Obligations.TblCheckDecidesThePartition :=
  ⟨decodeOfEncode .tblCheck rfl, fun _ hinv => ⟨_, rfl, hinv.covers_iff, Staged.tblCheck.frame_setCovok⟩⟩

/-- The table ends before index TCOUNT (42_table.md R151). -/
theorem getElem?_entries_eq_none {s : State} {n : Nat} (h : s.tcount.toNat ≤ n) : s.entries[n]? = none :=
  List.getElem?_eq_none ((List.length_take_le _ _).trans h)

section
variable {s : State}

theorem exec_tblRead_of_none (h : s.entries[s.tidx.toNat]? = none) : exec .tblRead s = .next (s.raise .shape) := by
  rw [exec, execTblRead, h, finish_error]

theorem exec_tblRead_of_some {e : Entry} (h : s.entries[s.tidx.toNat]? = some e) :
    exec .tblRead s = .next (s.setEntry e.toWord).commit := by
  rw [exec, execTblRead, h, finish_ok]

end

/-- ENTRY's value in numbers (10_state.md R34). -/
theorem Entry.toNat_toWord (e : Entry) :
    e.toWord.toNat = (if e.cd then 2 ^ 31 else 0) + e.len.toNat * 2 ^ 16 + e.addr.toNat := by
  simp only [Entry.toWord, toNat_cat2, BitVec.toNat_ofBool]
  cases e.cd with
  | false => simp
  | true => simp; omega

/-- Settles O50, by whether TIDX is in the table. -/
theorem tblReadCopiesTheEntry : Obligations.TblReadCopiesTheEntry := by
  refine ⟨decodeOfEncode .tblRead rfl, fun s hcount => ⟨fun e he => ?_, fun hlt => ?_, fun hle => ?_⟩⟩
  · exact ⟨_, exec_tblRead_of_some he, e.toNat_toWord, (Staged.tblRead e he).frame_setEntry⟩
  · exact ⟨_, List.getElem?_eq_getElem (by rwa [length_entries s hcount])⟩
  · rw [exec_tblRead_of_none (getElem?_entries_eq_none hle), raise_eq s .shape (by decide)]

/-- `ValidEntry` in the fields of the word (42_table.md R150; 10_state.md R34). -/
theorem valid_ofWord_iff (w : Word) :
    (Entry.ofWord w).valid = true ↔
      1 ≤ w.toNat / 65536 % 32768 ∧ w.toNat / 65536 % 32768 ≤ 32767 ∧ 0x4000 ≤ w.toNat % 65536 ∧
      w.toNat % 65536 + w.toNat / 65536 % 32768 ≤ 0x5B00 := by
  rw [valid_iff]
  simp [Entry.ofWord, Entry.stop, BitVec.extractLsb'_toNat, Nat.shiftRight_eq_div_pow]

/-- TBL_APPEND, by cases of its checks (42_table.md R173). -/
theorem exec_tblAppend_eq (s : State) :
    exec .tblAppend s =
      if (Entry.ofWord s.entry).valid = true then
        if s.tcount.toNat = s.params.tblCap then .next (s.raise .capacity)
        else .next ((s.setTable (s.entries ++ [Entry.ofWord s.entry])).setCovok false).commit
      else .next (s.raise .shape) := by
  rw [exec, execTblAppend]
  cases (Entry.ofWord s.entry).valid with
  | false => rfl
  | true => simp only [Bool.not_true, Bool.false_eq_true, if_false, if_true]; split <;> rfl

/-- TCOUNT after a table that fits the array is written. -/
theorem toNat_tcount_setTable (s : State) (es : List Entry) (h : es.length < 65536) :
    (s.setTable es).tcount.toNat = es.length := Nat.mod_eq_of_lt h

/-- Settles O46, by the cases of the two checks. -/
theorem tblAppendAddsAValidEntry : Obligations.TblAppendAddsAValidEntry := by
  refine ⟨decodeOfEncode .tblAppend rfl, fun s hinv => ?_⟩
  intro a n ok
  have hvalid : (Entry.ofWord s.entry).valid = true ↔ ok := valid_ofWord_iff s.entry
  rw [exec_tblAppend_eq, ← raise_eq s .shape (by decide), ← raise_eq s .capacity (by decide)]
  refine ⟨fun hok hroom => ?_, fun hbad => if_neg (hvalid.not.2 hbad), fun hok hfull => ?_⟩
  · rw [if_pos (hvalid.2 hok), if_neg hroom]
    have hlen := length_entries s hinv.countWithin
    have hle := hinv.length_entries_le
    obtain ⟨-, -, -, -, -, hcap⟩ := hinv.paramsLegal
    have hnew : (s.entries ++ [Entry.ofWord s.entry]).length = s.tcount.toNat + 1 := by
      rw [List.length_append, hlen, List.length_singleton]
    refine ⟨_, Entry.ofWord s.entry, rfl, ?_, ?_, rfl, entries_setTable s _ (by omega), ?_, rfl,
      (Staged.tblAppend (hvalid.2 hok) hroom).commandFrame_setTable, fun _ => rfl⟩
    · simp [Entry.ofWord, a]
    · simp [Entry.ofWord, n, Nat.shiftRight_eq_div_pow]
    · exact (toNat_tcount_setTable s _ (by omega)).trans hnew
  · rw [if_pos (hvalid.2 hok), if_pos hfull]

/-- The sub-entries of a split that raises nothing (42_table.md R170). -/
def subEntries (e : Entry) (c : Nat) : List Entry :=
  (List.range (e.len.toNat / c)).map fun k =>
    { addr := BitVec.ofNat 16 (e.addr.toNat + k * c), len := BitVec.ofNat 15 c, cd := false }

/-- SHAPE for an entry with `cd`, chunk 0, or a chunk that does not divide the length (42_table.md R170). -/
theorem splitEntry_eq_none {e : Entry} {c : Nat} (h : e.cd = true ∨ c = 0 ∨ e.len.toNat % c ≠ 0) :
    splitEntry e c = none := by
  rw [splitEntry]
  split_ifs with hcd hc hmod
  · rfl
  · rfl
  · rfl
  · exact absurd h (by simp [hcd, hc, hmod])

theorem splitEntry_eq_some {e : Entry} {c : Nat} (hcd : e.cd = false) (hc : c ≠ 0) (hmod : e.len.toNat % c = 0) :
    splitEntry e c = some (subEntries e c) := by
  rw [splitEntry, hcd, if_neg Bool.false_ne_true, if_neg hc, if_neg (not_not.2 hmod), subEntries]

@[simp] theorem length_subEntries (e : Entry) (c : Nat) : (subEntries e c).length = e.len.toNat / c := by
  simp [subEntries]

/-- The sub-entries of a valid entry are consecutive chunks, none of whose fields wraps (42_table.md R170). -/
theorem getElem_subEntries {e : Entry} {c : Nat} (hv : e.valid = true) {k : Nat}
    (hk : k < (subEntries e c).length) :
    (subEntries e c)[k].addr.toNat = e.addr.toNat + k * c ∧ (subEntries e c)[k].len.toNat = c ∧
    (subEntries e c)[k].cd = false := by
  obtain ⟨-, hlen, -, hstop⟩ := (valid_iff e).1 hv
  have hfit : (k + 1) * c ≤ e.len.toNat := by
    rw [length_subEntries] at hk
    exact (Nat.mul_le_mul_right c hk).trans (Nat.div_mul_le_self _ _)
  rw [Nat.succ_mul] at hfit
  rw [Entry.stop, dispEnd] at hstop
  simp only [subEntries, List.getElem_map, List.getElem_range, BitVec.toNat_ofNat, and_true]
  omega

section
variable {s : State} {chunk : Nat}

theorem exec_tblSplit_of_none (h : s.entries[s.tidx.toNat]? = none) :
    exec (.tblSplit chunk) s = .next (s.raise .shape) := by
  rw [exec, execTblSplit, h, finish_error]

variable {e : Entry} (he : s.entries[s.tidx.toNat]? = some e)
include he

theorem exec_tblSplit_of_splitEntry_none (h : splitEntry e chunk = none) :
    exec (.tblSplit chunk) s = .next (s.raise .shape) := by
  simp only [exec, execTblSplit, he, h, finish_error]

/-- TBL_SPLIT of an entry that splits, by its capacity check (42_table.md R177). -/
theorem exec_tblSplit_of_splitEntry_some {subs : List Entry} (h : splitEntry e chunk = some subs) :
    exec (.tblSplit chunk) s =
      if s.params.tblCap < s.entries.length - 1 + subs.length then .next (s.raise .capacity)
      else .next ((s.setTable
        (s.entries.take s.tidx.toNat ++ subs ++ s.entries.drop (s.tidx.toNat + 1))).setCovok false).commit := by
  simp only [exec, execTblSplit, he, h]
  split <;> rfl

end

/-- Replacing one element by a list takes one away and adds the list's (42_table.md R177). -/
theorem length_replace {α : Type} {l m : List α} {n : Nat} (h : n < l.length) :
    (l.take n ++ m ++ l.drop (n + 1)).length = l.length - 1 + m.length := by
  simp only [List.length_append, List.length_take, List.length_drop]
  omega

/-- Settles O47, by the checks in order: TIDX, the split, the capacity. -/
theorem tblSplitReplacesTheEntryInPlace : Obligations.TblSplitReplacesTheEntryInPlace := by
  refine ⟨fun c => ?_, fun s chunk hinv => ?_⟩
  · rw [← decodeOfEncode (.tblSplit c.toNat) (by simpa [Instr.wellFormed] using c.isLt), encode, BitVec.ofNat_toNat,
      BitVec.setWidth_eq]
  have hcount := length_entries s hinv.countWithin
  rw [← raise_eq s .shape (by decide), ← raise_eq s .capacity (by decide)]
  refine ⟨fun hle => exec_tblSplit_of_none (getElem?_entries_eq_none hle),
    fun e he => ⟨fun hbad => exec_tblSplit_of_splitEntry_none he (splitEntry_eq_none hbad), fun hcd hc hmod => ?_⟩⟩
  have hsubs := splitEntry_eq_some hcd hc hmod
  rw [exec_tblSplit_of_splitEntry_some he hsubs, hcount, length_subEntries]
  refine ⟨fun hover => if_pos hover, fun hfit => ?_⟩
  rw [if_neg (Nat.not_lt.2 hfit)]
  obtain ⟨hidx, -⟩ := List.getElem?_eq_some_iff.1 he
  obtain ⟨-, -, -, -, -, hcap⟩ := hinv.paramsLegal
  have hlen := length_replace (m := subEntries e chunk) hidx
  rw [hcount, length_subEntries] at hlen
  refine ⟨_, subEntries e chunk, rfl, length_subEntries e chunk,
    fun k hk => getElem_subEntries (hinv.entriesValid e (List.mem_of_getElem? he)) hk,
    entries_setTable s _ (by omega), (toNat_tcount_setTable s _ (by omega)).trans hlen, rfl,
    (Staged.tblSplit chunk e _ he hsubs ?_).commandFrame_setTable, fun _ => rfl⟩
  rwa [hcount, length_subEntries]

end Sys2Proof.Machine
end

section
/-! PROOFS. TBL_SER (42_table.md R155 to R165, R174): the strategy by what it asks of the entries, the serialized table
entry by entry, where its bytes stand in OBUF, and that the decoder reads the entries back. -/

namespace Sys2Proof.Machine

section
variable {es : List Entry}

theorem shortLenOf_iff : shortLenOf es = true ↔ ∀ e ∈ es, e.len.toNat ≤ 127 := by simp [shortLenOf]

theorem fixDirOf_iff : fixDirOf es = true ↔ ∀ e ∈ es, e.cd = false := by simp [fixDirOf]

/-- `IsFixedLength` compares every length with the first one (42_table.md R155). -/
theorem isFixedLength_cons_iff {e : Entry} :
    isFixedLength (e :: es) = true ↔ ∀ f ∈ e :: es, f.cd = false ∧ f.len = e.len := by simp [isFixedLength]

/-- What `IsFixedLength` says of a table that is not empty (42_table.md R155). -/
theorem isFixedLength_iff (hne : es ≠ []) :
    isFixedLength es = true ↔ (∀ e ∈ es, e.cd = false) ∧ ∀ e ∈ es, ∀ f ∈ es, e.len = f.len := by
  obtain ⟨e, es, rfl⟩ := List.exists_cons_of_ne_nil hne
  rw [isFixedLength_cons_iff]
  constructor
  · intro h
    exact ⟨fun f hf => (h f hf).1, fun f hf g hg => (h f hf).2.trans (h g hg).2.symm⟩
  · rintro ⟨hcd, hlen⟩ f hf
    exact ⟨hcd f hf, hlen f hf e (.head _)⟩

theorem strategyOf_eq_fixed_iff {b : Bool} : strategyOf es b = .fixed ↔ b = false ∧ isFixedLength es = true := by
  rw [strategyOf]
  split_ifs with hfixed hshort <;> simpa using hfixed

theorem shortLenOf_of_strategyOf_compact {b : Bool} (h : strategyOf es b = .compact) : shortLenOf es = true := by
  rw [strategyOf] at h
  split_ifs at h with _ hshort
  exact hshort

/-- The first line that applies is the strategy: FIXED, else COMPACT, else FULL (42_table.md R160). -/
theorem eq_strategyOf {b : Bool} {st : Strategy} {fixed : Prop} (hiff : fixed ↔ b = false ∧ isFixedLength es = true)
    (hfixed : fixed → st = .fixed) (hcompact : ¬ fixed → (∀ e ∈ es, e.len.toNat ≤ 127) → st = .compact)
    (hfull : ¬ fixed → ¬ (∀ e ∈ es, e.len.toNat ≤ 127) → st = .full) : st = strategyOf es b := by
  rw [← shortLenOf_iff] at hcompact hfull
  have hcond : (!b && isFixedLength es) = true ↔ fixed := by simp [hiff]
  rw [strategyOf]
  split_ifs with hf hs
  · exact hfixed (hcond.1 hf)
  · exact hcompact (mt hcond.2 hf) hs
  · exact hfull (mt hcond.2 hf) hs

end

/-! The serialized table, entry by entry. -/

theorem tableBytes_cons (st : Strategy) (e : Entry) (es : List Entry) :
    tableBytes st (e :: es) = entryBytes st e ++ tableBytes st es := by simp [tableBytes]

/-- The bytes from the `j`-th entry's place on are the rest of the table, serialized (42_table.md R164). -/
theorem drop_tableBytes (st : Strategy) (es : List Entry) (j : Nat) (h : j ≤ es.length) :
    (tableBytes st es).drop (st.entrySize * j) = tableBytes st (es.drop j) := by
  induction j generalizing es with
  | zero => rfl
  | succ j ih =>
    cases es with
    | nil => exact absurd h (Nat.not_succ_le_zero j)
    | cons e es =>
      rw [tableBytes_cons, Nat.mul_succ, Nat.add_comm, ← List.drop_drop, List.drop_left' (length_entryBytes st e),
        ih es (Nat.le_of_succ_le_succ h), List.drop_succ_cons]

/-- A byte of an entry stands at its index from the entry's place. -/
theorem getElem?_tableBytes {st : Strategy} {es : List Entry} {j i : Nat} {e : Entry} (he : es[j]? = some e)
    (hi : i < st.entrySize) : (tableBytes st es)[st.entrySize * j + i]? = (entryBytes st e)[i]? := by
  obtain ⟨hj, rfl⟩ := List.getElem?_eq_some_iff.1 he
  rw [← List.getElem?_drop, drop_tableBytes st es j hj.le, List.drop_eq_getElem_cons hj, tableBytes_cons,
    List.getElem?_append_left (by rwa [length_entryBytes])]

/-- One zero byte ends the table (42_table.md R159). -/
theorem getElem?_tableBytes_end (st : Strategy) (es : List Entry) :
    (tableBytes st es)[st.entrySize * es.length]? = some 0x00#8 := by
  rw [← Nat.add_zero (st.entrySize * es.length), ← List.getElem?_drop, drop_tableBytes st es _ le_rfl, List.drop_length]
  rfl

/-- A direction bit above seven bits (42_table.md R162, R163). -/
theorem toNat_lo8_cdBit_or (c : Bool) {n : Nat} (h : n ≤ 127) :
    (lo8 (cdBit c ||| n)).toNat = (if c then 128 else 0) + n := by
  rw [lo8_toNat]
  cases c with
  | false => simp [cdBit]; omega
  | true =>
    have hor : 2 ^ 7 + n = 2 ^ 7 ||| n := by
      simpa using Nat.two_pow_add_eq_or_of_lt (i := 7) (b := n) (by omega) 1
    show (2 ^ 7 ||| n) % 256 = 128 + n
    rw [← hor]; omega

/-! What TBL_SER stages. -/

/-- The strategy TBL_SER takes (42_table.md R158, R160). -/
def State.strategy (s : State) : Strategy := strategyOf s.entries s.noFixLen

/-- The bytes TBL_SER writes (42_table.md R159). -/
def State.wire (s : State) : List Byte := tableBytes s.strategy s.entries

/-- What TBL_SER stages on success, for a table whose first entry is `e` (42_table.md R174). -/
def State.stageWire (s : State) (e : Entry) : State :=
  (s.emit s.wire).setReport s.strategy (if s.strategy = .fixed then e.len.setWidth 16 else 0) (shortLenOf s.entries)
    (fixDirOf s.entries)

section
variable {s : State}

theorem exec_tblSer_of_nil (h : s.entries = []) : exec .tblSer s = .next (s.raise .shape) := by
  rw [exec, execTblSer, h, finish_error]

/-- TBL_SER of a table that is not empty, by its range check. -/
theorem exec_tblSer_of_cons {e : Entry} {es : List Entry} (h : s.entries = e :: es) :
    exec .tblSer s =
      if s.params.obufSize < s.dst.toNat + (s.strategy.entrySize * s.entries.length + 1) then .next (s.raise .range)
      else .next (s.stageWire e).commit := by
  simp only [exec, execTblSer, State.stageWire, State.wire, State.strategy, h, State.outputFits, Bool.not_eq_true',
    decide_eq_false_iff_not, Nat.not_le]
  split <;> rfl

theorem staged_stageWire {e : Entry} {es : List Entry} (h : s.entries = e :: es)
    (hfit : s.dst.toNat + (s.strategy.entrySize * s.entries.length + 1) ≤ s.params.obufSize) :
    Staged s .tblSer (s.stageWire e) := by
  rw [State.strategy, h] at hfit
  rw [State.stageWire, State.wire, State.strategy, h]
  exact .tblSer e es h hfit

/-- TBL_SER ends with ERR = 0 only by committing the serialized table. -/
theorem exists_eq_commit_of_exec_tblSer {t : State} (h : exec .tblSer s = .next t) (hok : t.err = .ok) :
    ∃ e es, s.entries = e :: es ∧ t = (s.stageWire e).commit := by
  cases hes : s.entries with
  | nil =>
    cases h.symm.trans (exec_tblSer_of_nil hes)
    cases hok
  | cons e es =>
    refine ⟨e, es, rfl, ?_⟩
    rw [exec_tblSer_of_cons hes] at h
    split_ifs at h
    · cases h
      cases hok
    · cases h
      rfl

end

theorem length_wire (s : State) : s.wire.length = s.strategy.entrySize * s.entries.length + 1 :=
  length_tableBytes s.strategy s.entries

section
variable (s : State) (e : Entry)

/-- A byte of the serialized table stands in OBUF at its index from DST (42_table.md R174). -/
theorem read_stageWire {k : Nat} {b : Byte} (h : s.wire[k]? = some b) :
    (s.stageWire e).commit.obuf.read (s.dst.toNat + k) = b := by
  obtain ⟨hk, rfl⟩ := List.getElem?_eq_some_iff.1 h
  exact Memory.read_write_inside s.obuf s.dst.toNat s.wire k hk

/-- A byte of an entry stands in OBUF at its index from the entry's place. -/
theorem read_stageWire_entry {j i : Nat} {f : Entry} {b : Byte} (hf : s.entries[j]? = some f)
    (hb : (entryBytes s.strategy f)[i]? = some b) :
    (s.stageWire e).commit.obuf.read (s.dst.toNat + (s.strategy.entrySize * j + i)) = b := by
  obtain ⟨hi, -⟩ := List.getElem?_eq_some_iff.1 hb
  rw [length_entryBytes] at hi
  exact read_stageWire s e ((getElem?_tableBytes hf hi).trans hb)

section
variable {j : Nat} {f : Entry} (hf : s.entries[j]? = some f)
include hf

/-- The address comes first, high byte first (42_table.md R157). -/
theorem read_stageWire_addr :
    (s.stageWire e).commit.obuf.read (s.dst.toNat + s.strategy.entrySize * j) ++
      (s.stageWire e).commit.obuf.read (s.dst.toNat + (s.strategy.entrySize * j + 1)) = f.addr := by
  rw [read_stageWire_entry s e (i := 1) hf rfl]
  exact (congrArg (· ++ lo8 f.addr.toNat) (read_stageWire_entry s e (i := 0) hf rfl)).trans (hi8_append_lo8 f.addr)

/-- COMPACT's third byte, where the length fits it (42_table.md R162). -/
theorem read_stageWire_compact (hst : s.strategy = .compact) :
    ((s.stageWire e).commit.obuf.read (s.dst.toNat + (s.strategy.entrySize * j + 2))).toNat =
      (if f.cd then 128 else 0) + f.len.toNat := by
  have hshort := shortLenOf_iff.1 (shortLenOf_of_strategyOf_compact hst) f (List.mem_of_getElem? hf)
  have hbyte : (entryBytes s.strategy f)[2]? = some (lo8 (cdBit f.cd ||| f.len.toNat)) := by rw [hst]; rfl
  rw [read_stageWire_entry s e hf hbyte, toNat_lo8_cdBit_or f.cd hshort]

/-- FULL's third and fourth byte are one number, high byte first (42_table.md R163). -/
theorem read_stageWire_full (hst : s.strategy = .full) :
    ((s.stageWire e).commit.obuf.read (s.dst.toNat + (s.strategy.entrySize * j + 2))).toNat * 256 +
      ((s.stageWire e).commit.obuf.read (s.dst.toNat + (s.strategy.entrySize * j + 3))).toNat =
      (if f.cd then 32768 else 0) + f.len.toNat := by
  have hhi : (entryBytes s.strategy f)[2]? = some (lo8 (cdBit f.cd ||| f.len.toNat / 2 ^ 8)) := by rw [hst]; rfl
  have hlo : (entryBytes s.strategy f)[3]? = some (lo8 f.len.toNat) := by rw [hst]; rfl
  have hlen := f.len.isLt
  rw [read_stageWire_entry s e hf hhi, read_stageWire_entry s e hf hlo, toNat_lo8_cdBit_or f.cd (by omega), lo8_toNat]
  split <;> omega

end

/-- OUTLEN holds the length of the serialized table: TCOUNT has 16 bits (42_table.md R164). -/
theorem toNat_outLen_stageWire :
    (s.stageWire e).commit.outLen.toNat = s.strategy.entrySize * s.entries.length + 1 := by
  have hlen : s.entries.length < 65536 := (List.length_take_le _ _).trans_lt s.tcount.isLt
  have hsize : s.strategy.entrySize ≤ 4 := by cases s.strategy <;> decide
  have hmul := Nat.mul_le_mul_right s.entries.length hsize
  show (BitVec.ofNat 32 s.wire.length).toNat = _
  rw [length_wire, BitVec.toNat_ofNat, Nat.mod_eq_of_lt (by omega)]

theorem obufKeptOutside_stageWire :
    ObufKeptOutside (s.strategy.entrySize * s.entries.length + 1) s (s.stageWire e).commit := by
  intro a ha
  exact Memory.read_write_outside s.obuf s.dst.toNat s.wire a (by rwa [length_wire])

theorem tableKept_stageWire : TableKept s (s.stageWire e).commit := ⟨rfl, rfl⟩

/-- FIXLEN holds the length out of band under FIXED (42_table.md R161, R174). -/
theorem fixLen_stageWire_of_fixed (hst : s.strategy = .fixed) : (s.stageWire e).commit.fixLen = e.len.setWidth 16 :=
  if_pos hst

end

theorem readReg_setReport (s : State) (st : Strategy) (n : BitVec 16) (short fixDir : Bool) {r : Reg}
    (hs : r ≠ .status) (h : r ≠ .fixLen) : readReg (s.setReport st n short fixDir) r = readReg s r := by
  cases r with
  | status => exact absurd rfl hs
  | fixLen => exact absurd rfl h
  | _ => rfl

theorem Staged.commandFrame_stageWire {s : State} {e : Entry} (h : Staged s .tblSer (s.stageWire e)) :
    CommandFrame [.outLen, .fixLen] maskReport s (s.stageWire e).commit := by
  refine h.commandFrame_commit (fun r hs hr => ?_) (statusKept_report ⟨rfl, rfl, rfl, rfl⟩)
  have hout : r ≠ .outLen := List.ne_of_not_mem_cons hr
  have hfix : r ≠ .fixLen := fun he => hr (by simp [he])
  rw [State.stageWire, readReg_setReport _ _ _ _ _ hs hfix, readReg_emit _ _ hout]

/-- Settles O48: the strategy and its entry size are the ones the entries select, and the bytes staged are the
serialized table, read entry by entry. -/
theorem tblSerWritesTheWireFormat : Obligations.TblSerWritesTheWireFormat := by
  refine ⟨decodeOfEncode .tblSer rfl, fun s st k hcount hsize hchoice => ?_⟩
  obtain ⟨hfixed, hcompact, hfull⟩ := hchoice
  have hlen := length_entries s hcount
  rw [← raise_eq s .shape (by decide), ← raise_eq s .range (by decide)]
  have hk : k = st.entrySize := by
    rcases hsize with ⟨rfl, rfl⟩ | ⟨rfl, rfl⟩ | ⟨rfl, rfl⟩ <;> rfl
  by_cases h0 : s.tcount = 0
  · have hnil : s.entries = [] := List.eq_nil_of_length_eq_zero (hlen.trans (congrArg BitVec.toNat h0))
    exact ⟨fun _ => exec_tblSer_of_nil hnil, fun hne => absurd h0 hne, fun hne => absurd h0 hne⟩
  have hne : s.entries ≠ [] := fun hnil => h0 (BitVec.eq_of_toNat_eq (by rw [← hlen, hnil]; rfl))
  obtain ⟨e, es, hes⟩ := List.exists_cons_of_ne_nil hne
  obtain rfl : st = s.strategy :=
    eq_strategyOf (and_congr_right' (isFixedLength_iff hne)).symm hfixed hcompact hfull
  rw [exec_tblSer_of_cons hes, hk, ← hlen]
  refine ⟨fun h => absurd h h0, fun _ hover => if_pos hover, fun _ hfit => ?_⟩
  rw [if_neg (Nat.not_lt.2 hfit)]
  refine ⟨_, rfl, ⟨fun j f hf => ⟨read_stageWire_addr s e hf, read_stageWire_compact s e hf, read_stageWire_full s e hf⟩,
      read_stageWire s e (getElem?_tableBytes_end s.strategy s.entries)⟩,
    toNat_outLen_stageWire s e, rfl, fun hst f hf => ?_, fun hst => if_neg hst, shortLenOf_iff, fixDirOf_iff,
    (staged_stageWire hes hfit).commandFrame_stageWire, obufKeptOutside_stageWire s e, tableKept_stageWire s e⟩
  obtain rfl : e = f := by simpa [hes] using hf
  rw [fixLen_stageWire_of_fixed s e hst, BitVec.toNat_setWidth_of_le (by decide)]

/-! The decoder of R165 on a serialized table. -/

/-- The first byte of a valid entry is not the zero that ends a table (42_table.md R150, R159). -/
theorem hi8_addr_ne_zero {e : Entry} (h : e.valid = true) : hi8 e.addr.toNat ≠ 0x00#8 := by
  obtain ⟨-, -, haddr, -⟩ := (valid_iff e).1 h
  have hlt := e.addr.isLt
  intro h0
  have hval := congrArg BitVec.toNat h0
  rw [hi8_toNat] at hval
  simp only [dispBase, BitVec.toNat_ofNat] at haddr hval
  omega

theorem wireAddr_bytes (a : BitVec 16) : wireAddr (hi8 a.toNat) (lo8 a.toNat) = a := hi8_append_lo8 a

/-- The direction bit of a length byte reads back (42_table.md R162, R163). -/
theorem getLsbD_lo8_cdBit_or (c : Bool) {n : Nat} (h : n ≤ 127) : (lo8 (cdBit c ||| n)).getLsbD 7 = c := by
  rw [← BitVec.testBit_toNat, toNat_lo8_cdBit_or c h, Nat.testBit_eq_decide_div_mod_eq]
  cases c <;> simp <;> omega

/-- The length bits of a length byte read back (42_table.md R162, R163). -/
theorem toNat_lo8_cdBit_or_mod (c : Bool) {n : Nat} (h : n ≤ 127) : (lo8 (cdBit c ||| n)).toNat % 128 = n := by
  rw [toNat_lo8_cdBit_or c h]
  split <;> omega

/-- The entry is one that a strategy's bytes, with FIXLEN, can stand for (42_table.md R161 to R163). -/
def Entry.FitsWire (fixLen : BitVec 16) (e : Entry) : Strategy → Prop
  | .fixed => e.cd = false ∧ e.len = fixLen.setWidth 15
  | .compact => e.len.toNat ≤ 127
  | .full => True

/-- The decoder reads an entry's bytes back as the entry and goes on behind them (42_table.md R165). -/
theorem parseTable_entryBytes_append {st : Strategy} {fixLen : BitVec 16} {e : Entry} (hv : e.valid = true)
    (hfit : e.FitsWire fixLen st) (rest : List Byte) :
    parseTable st fixLen (entryBytes st e ++ rest) = (parseTable st fixLen rest).map (e :: ·) := by
  have hne := hi8_addr_ne_zero hv
  cases st with
  | fixed =>
    obtain ⟨hcd, hlen⟩ := hfit
    refine (if_neg hne).trans ?_
    rw [wireAddr_bytes, parseTable, ← hcd, ← hlen]
    rfl
  | compact =>
    have hlen : e.len.toNat ≤ 127 := hfit
    refine (if_neg hne).trans ?_
    rw [wireAddr_bytes, toNat_lo8_cdBit_or_mod e.cd hlen, getLsbD_lo8_cdBit_or e.cd hlen, BitVec.ofNat_toNat,
      BitVec.setWidth_eq]
    rfl
  | full =>
    have hlt := e.len.isLt
    have hhi : e.len.toNat / 2 ^ 8 ≤ 127 := by omega
    have hlen : e.len.toNat / 2 ^ 8 * 256 + e.len.toNat % 256 = e.len.toNat := Nat.div_add_mod' _ _
    refine (if_neg hne).trans ?_
    rw [wireAddr_bytes, toNat_lo8_cdBit_or_mod e.cd hhi, getLsbD_lo8_cdBit_or e.cd hhi, lo8_toNat, hlen,
      BitVec.ofNat_toNat, BitVec.setWidth_eq]
    rfl

/-- A serialized table of valid entries parses back (42_table.md R165). -/
theorem parseTable_tableBytes {st : Strategy} {fixLen : BitVec 16} {es : List Entry}
    (hv : ∀ e ∈ es, e.valid = true) (hfit : ∀ e ∈ es, e.FitsWire fixLen st) :
    parseTable st fixLen (tableBytes st es) = some es := by
  induction es with
  | nil => cases st <;> rfl
  | cons e es ih =>
    obtain ⟨he, hes⟩ := List.forall_mem_cons.1 hv
    obtain ⟨hfe, hfes⟩ := List.forall_mem_cons.1 hfit
    rw [tableBytes_cons, parseTable_entryBytes_append he hfe, ih hes hfes, Option.map_some]

/-- The strategy TBL_SER takes can stand for every entry of the table (42_table.md R160, R174). -/
theorem fitsWire_stageWire {s : State} {e : Entry} {es : List Entry} (h : s.entries = e :: es) :
    ∀ f ∈ s.entries, f.FitsWire (s.stageWire e).commit.fixLen s.strategy := by
  intro f hf
  cases hst : s.strategy with
  | fixed =>
    obtain ⟨-, hfixed⟩ := strategyOf_eq_fixed_iff.1 hst
    rw [h] at hfixed hf
    obtain ⟨hcd, hlen⟩ := isFixedLength_cons_iff.1 hfixed f hf
    rw [fixLen_stageWire_of_fixed s e hst]
    exact ⟨hcd, by rw [hlen, BitVec.setWidth_setWidth_of_le _ (by decide), BitVec.setWidth_eq]⟩
  | compact => exact shortLenOf_iff.1 (shortLenOf_of_strategyOf_compact hst) f hf
  | full => trivial

/-- The OUTLEN bytes from DST are the serialized table. -/
theorem readRange_stageWire (s : State) (e : Entry) :
    (s.stageWire e).commit.obuf.readRange s.dst.toNat (s.stageWire e).commit.outLen.toNat = s.wire := by
  rw [toNat_outLen_stageWire, ← length_wire]
  exact Memory.readRange_write s.obuf s.dst.toNat s.wire

/-- Settles O51: what a success wrote is the serialized table, whose entries all fit the strategy. -/
theorem serializedTableParsesBack : Obligations.SerializedTableParsesBack := by
  intro s t hinv hexec hok
  obtain ⟨e, es, hes, rfl⟩ := exists_eq_commit_of_exec_tblSer hexec hok
  rw [readRange_stageWire]
  exact parseTable_tableBytes hinv.entriesValid (fitsWire_stageWire hes)

end Sys2Proof.Machine
end

section
/-! PROOFS. The reader of a table (42_table.md R152 to R154): the directions it meets, the addresses it carries, counted
by the spans that hold them, and what it stores. -/

namespace Sys2Proof.Machine

/-- The reader's direction at an entry whose `cd` says whether the direction changes (42_table.md R152, R153). -/
theorem dir_of_bne (cur d : Dir) : (if d != cur then cur.flip else cur) = d := by
  cases cur <;> cases d <;> rfl

theorem readerDirs_dirFlagsFrom (cur : Dir) (ps : List Pass) :
    readerDirs cur (dirFlagsFrom cur ps) = ps.map Pass.dir := by
  induction ps generalizing cur with
  | nil => rfl
  | cons p ps ih => simp only [dirFlagsFrom, readerDirs, dir_of_bne, ih, List.map_cons]

theorem map_addr_len_dirFlagsFrom (cur : Dir) {ps : List Pass} (h : ∀ p ∈ ps, p.addr < 65536 ∧ p.len < 32768) :
    (dirFlagsFrom cur ps).map (fun e => (e.addr.toNat, e.len.toNat)) = ps.map (fun p => (p.addr, p.len)) := by
  induction ps generalizing cur with
  | nil => rfl
  | cons p ps ih =>
    obtain ⟨⟨ha, hl⟩, hps⟩ := List.forall_mem_cons.1 h
    simp [dirFlagsFrom, ih p.dir hps, Nat.mod_eq_of_lt ha, Nat.mod_eq_of_lt hl]

/-- Settles O52, by induction over the passes, from any current direction. -/
theorem readerMeetsTheIntendedDirections : Obligations.ReaderMeetsTheIntendedDirections :=
  fun ps => ⟨readerDirs_dirFlagsFrom .fwd ps, map_addr_len_dirFlagsFrom .fwd⟩

theorem count_range' (lo n a : Nat) :
    (List.range' lo n).count a = if lo ≤ a ∧ a < lo + n then 1 else 0 := by
  simp only [(List.nodup_range' (s := lo) (n := n) 1).count, List.mem_range'_1]

/-- A span carries each of its addresses once, in either direction (42_table.md R154). -/
theorem count_spanAddrs (e : Entry) (d : Dir) (a : Nat) :
    (spanAddrs e d).count a = if e.holds a = true then 1 else 0 := by
  have hperm : (spanAddrs e d).Perm (List.range' e.addr.toNat e.len.toNat) := by
    cases d with
    | fwd => exact .refl _
    | bwd => exact List.reverse_perm _
  simp only [hperm.count_eq, count_range', holds_iff, Entry.stop]

/-- A table carries an address once for every span that holds it. -/
theorem count_carriedAddrs (cur : Dir) (es : List Entry) (a : Nat) :
    (carriedAddrs cur es).count a = es.countP (fun e => e.holds a) := by
  induction es generalizing cur with
  | nil => rfl
  | cons e es ih =>
    have hcons : carriedAddrs cur (e :: es) =
        spanAddrs e (if e.cd then cur.flip else cur) ++ carriedAddrs (if e.cd then cur.flip else cur) es := rfl
    rw [hcons, List.count_append, count_spanAddrs, ih, List.countP_cons, Nat.add_comm]

/-- Outside the region no span of a partition holds an address (42_table.md R175). -/
theorem Partitions.countP_outside {es : List Entry} (h : Partitions es) {a : Nat} (ha : a < dispBase ∨ dispEnd ≤ a) :
    es.countP (fun e => e.holds a) = 0 := by
  refine List.countP_eq_zero.2 fun e he => ?_
  obtain ⟨-, hin⟩ := h
  have := hin e he
  rw [holds_iff]
  omega

theorem Partitions.perm_carriedAddrs {es : List Entry} (h : Partitions es) (cur : Dir) :
    (carriedAddrs cur es).Perm (List.range' dispBase dispSize) := by
  refine List.perm_iff_count.2 fun a => ?_
  rw [count_carriedAddrs, count_range']
  by_cases ha : dispBase ≤ a ∧ a < dispEnd
  · obtain ⟨honce, -⟩ := h
    exact (honce a ha.1 ha.2).trans (if_pos ha).symm
  · exact (h.countP_outside (by omega)).trans (if_neg ha).symm

/-- Storing an image's bytes at their own addresses, in any order and any number of times. -/
theorem storeAt_zip_map (mem image : Nat → Byte) (as : List Nat) (a : Nat) :
    storeAt mem (as.zip (as.map image)) a = if a ∈ as then image a else mem a := by
  induction as generalizing mem with
  | nil => rfl
  | cons b as ih =>
    rw [List.map_cons, List.zip_cons_cons, storeAt, ih]
    by_cases hmem : a ∈ as
    · rw [if_pos hmem, if_pos (List.mem_cons_of_mem b hmem)]
    · by_cases hab : a = b
      · simp [hab]
      · simp [hmem, hab]

/-- Settles O53: the addresses carried are the region's, counted by the spans, and each byte goes to its own address. -/
theorem readerReproducesTheImage : Obligations.ReaderReproducesTheImage := by
  intro image mem es hpart
  have hperm := hpart.perm_carriedAddrs .fwd
  have hmem (a : Nat) : a ∈ carriedAddrs .fwd es ↔ dispBase ≤ a ∧ a < dispEnd :=
    hperm.mem_iff.trans List.mem_range'_1
  have hreload (a : Nat) : reload mem es (carriedBytes image .fwd es) a =
      if a ∈ carriedAddrs .fwd es then image a else mem a := storeAt_zip_map mem image _ a
  refine ⟨hperm, fun a hlo hhi => ?_, fun a hout => ?_⟩
  · rw [hreload, if_pos ((hmem a).2 ⟨hlo, hhi⟩)]
  · rw [hreload, if_neg (mt (hmem a).1 (by omega))]

end Sys2Proof.Machine
end

section
/-! PROOFS. The generators' sequences (43_generators.md R195 to R212): how many entries each has, their lengths and
directions. -/

namespace Sys2Proof.Machine

/-- Two streams alternate without loss: the interleaved entries are those of both (43_generators.md R205). -/
theorem interleave_perm (xs ys : List Pass) : (interleave xs ys).Perm (xs ++ ys) := by
  induction xs, ys using interleave.induct with
  | case1 ys => exact .refl _
  | case2 x xs => simp [interleave]
  | case3 x xs y ys ih => exact ((ih.cons y).trans List.perm_middle.symm).cons x

/-- Of two neighbouring columns one is black and one is white. -/
theorem length_filter_parity (r m : Nat) {parity : Nat} (hp : parity < 2) :
    ((List.range (2 * m)).filter fun j => (r + j) % 2 == parity).length = m := by
  induction m with
  | zero => rfl
  | succ m ih =>
    have hone : ([2 * m, 2 * m + 1].filter fun j => (r + j) % 2 == parity).length = 1 := by
      simp only [List.filter_cons, List.filter_nil, beq_iff_eq]
      split_ifs
      · omega
      · rfl
      · rfl
      · omega
    have hsplit : List.range (2 * (m + 1)) = List.range (2 * m) ++ [2 * m, 2 * m + 1] := by
      simp [Nat.mul_succ, List.range_succ]
    rw [hsplit, List.filter_append, List.length_append, ih, hone]

/-- Half of a grid with an even number of columns has either colour. -/
theorem length_checker (rows m : Nat) {parity : Nat} (hp : parity < 2) :
    (checker rows (2 * m) parity).length = rows * m := by
  simp [checker, List.length_flatMap, length_filter_parity _ m hp]

theorem mem_checker {rows cols parity r j : Nat} :
    (r, j) ∈ checker rows cols parity ↔ r < rows ∧ j < cols ∧ (r + j) % 2 = parity := by
  simp [checker]

theorem length_squarePasses (n r j : Nat) (d : Dir) : (squarePasses n r j d).length = 9 * n := by
  simp [squarePasses, List.length_flatMap, Nat.mul_comm]

theorem len_dir_of_mem_squarePasses {n r j : Nat} {d : Dir} {p : Pass} (h : p ∈ squarePasses n r j d) :
    p.len = n ∧ p.dir = d := by
  simp only [squarePasses, List.mem_flatMap, List.mem_append, List.mem_map, List.mem_singleton] at h
  obtain ⟨i, -, ⟨k, -, rfl⟩ | rfl⟩ := h <;> exact ⟨rfl, rfl⟩

/-- A square entry is an entry of a black square, forward, or of a white one, backward (43_generators.md R205). -/
theorem mem_squareTiling {n : Nat} {p : Pass} :
    p ∈ squareTiling n ↔ (∃ c ∈ checker (24 / n) (32 / n) 0, p ∈ squarePasses n c.1 c.2 .fwd) ∨
      ∃ c ∈ checker (24 / n) (32 / n) 1, p ∈ squarePasses n c.1 c.2 .bwd := by
  rw [squareTiling, (interleave_perm _ _).mem_iff, List.mem_append, List.mem_reverse, List.mem_flatMap, List.mem_flatMap]

theorem len_of_mem_squareTiling {n : Nat} {p : Pass} (h : p ∈ squareTiling n) : p.len = n := by
  obtain ⟨c, -, hp⟩ | ⟨c, -, hp⟩ := mem_squareTiling.1 h <;> exact (len_dir_of_mem_squarePasses hp).1

theorem length_squareTiling (n : Nat) {m : Nat} (hm : 32 / n = 2 * m) :
    (squareTiling n).length = 24 / n * m * (9 * n) * 2 := by
  rw [squareTiling, (interleave_perm _ _).length_eq, hm]
  simp [List.length_flatMap, length_squarePasses, length_checker, Nat.mul_two]

theorem exists_bwd_mem_squareTiling {sz : Nat} (h : sz ≤ 3) : ∃ p ∈ squareTiling (2 ^ sz), p.dir = .bwd := by
  have hcell : (0, 1) ∈ checker (24 / 2 ^ sz) (32 / 2 ^ sz) 1 := by
    rw [mem_checker]
    interval_cases sz <;> decide
  have hpos : 0 < (squarePasses (2 ^ sz) 0 1 .bwd).length := by
    rw [length_squarePasses]
    have := Nat.two_pow_pos sz
    omega
  obtain ⟨p, hp⟩ := List.exists_mem_of_length_pos hpos
  exact ⟨p, mem_squareTiling.2 (.inr ⟨_, hcell, hp⟩), (len_dir_of_mem_squarePasses hp).2⟩

theorem length_attrSqPasses (k : Nat) {m : Nat} (hm : 32 / k = 2 * m) :
    (attrSqPasses k).length = 3 + 24 * m * 2 := by
  simp [attrSqPasses, hm, length_checker]
  omega

/-- Every entry of ATTRSQ is forward (43_generators.md R210). -/
theorem dir_of_mem_attrSqPasses {k : Nat} {p : Pass} (h : p ∈ attrSqPasses k) : p.dir = .fwd := by
  simp only [attrSqPasses, List.mem_append, List.mem_reverse, List.mem_map] at h
  obtain (h | ⟨c, -, rfl⟩) | ⟨c, -, rfl⟩ := h
  · revert p; decide
  · rfl
  · rfl

theorem bwd_mem_passes_comb (b : Bool) (o : AttOrder) : ⟨0x4700, 256, .bwd⟩ ∈ (Gen.comb b o).passes := by
  have hpix : ⟨0x4700, 256, .bwd⟩ ∈ pixPasses := by decide
  cases b with
  | false => exact List.mem_append_left _ hpix
  | true => exact List.mem_append_right _ hpix

/-! Entry counts (43_generators.md R213). -/

/-- The number of entries of a generator's table, by the formulae of 43_generators.md R195 to R213. -/
def Gen.count : Gen → Nat
  | .comb _ _ => 48
  | .td | .bu => 1
  | .conv | .div => 216
  | .square sz => 6912 / 2 ^ sz
  | .attrSq sz => 3 + 768 / 2 ^ sz

theorem length_attRows (o : AttOrder) : (attRows o).length = 24 := by cases o <;> rfl

theorem square_mem_admitted {sz : Nat} : Gen.square sz ∈ Gen.admitted ↔ sz ≤ 3 := by
  simp [Gen.admitted]
  omega

theorem attrSq_mem_admitted {sz : Nat} : Gen.attrSq sz ∈ Gen.admitted ↔ sz ≤ 3 := by
  simp [Gen.admitted]
  omega

theorem length_passes {g : Gen} (hg : g ∈ Gen.admitted) : g.passes.length = g.count := by
  have heven {sz : Nat} (h : sz ≤ 3) : 32 / 2 ^ sz = 2 * (16 / 2 ^ sz) := by interval_cases sz <;> rfl
  cases g with
  | comb b o =>
    have hpix : pixPasses.length = 24 := rfl
    cases b <;> simp [Gen.passes, Gen.count, attPasses, hpix, length_attRows]
  | td | bu => rfl
  | conv | div => simp [Gen.passes, Gen.count, List.length_flatMap]
  | square sz =>
    have hsz := square_mem_admitted.1 hg
    rw [Gen.passes, length_squareTiling _ (heven hsz), Gen.count]
    interval_cases sz <;> rfl
  | attrSq sz =>
    have hsz := attrSq_mem_admitted.1 hg
    rw [Gen.passes, length_attrSqPasses _ (heven hsz), Gen.count]
    interval_cases sz <;> rfl

theorem length_dirFlagsFrom (cur : Dir) (ps : List Pass) : (dirFlagsFrom cur ps).length = ps.length := by
  induction ps generalizing cur with
  | nil => rfl
  | cons p ps ih => simp [dirFlagsFrom, ih]

theorem length_table {g : Gen} (hg : g ∈ Gen.admitted) : g.table.length = g.count :=
  (length_dirFlagsFrom .fwd g.passes).trans (length_passes hg)

/-- No generator needs more entries than the region has bytes. -/
theorem count_le {g : Gen} (hg : g ∈ Gen.admitted) : g.count ≤ 6912 := by
  revert g; decide

/-! The flags and lengths of a table that `DirFlags` gives (42_table.md R153). -/

/-- No `cd` is set exactly when every entry has the direction the reader starts with. -/
theorem forall_cd_dirFlagsFrom (cur : Dir) (ps : List Pass) :
    (∀ e ∈ dirFlagsFrom cur ps, e.cd = false) ↔ ∀ p ∈ ps, p.dir = cur := by
  induction ps generalizing cur with
  | nil => simp [dirFlagsFrom]
  | cons p ps ih =>
    simp only [dirFlagsFrom, List.forall_mem_cons, ih, bne_eq_false_iff_eq]
    constructor
    · rintro ⟨rfl, h⟩; exact ⟨rfl, h⟩
    · rintro ⟨rfl, h⟩; exact ⟨rfl, h⟩

theorem map_len_dirFlagsFrom (cur : Dir) (ps : List Pass) :
    (dirFlagsFrom cur ps).map Entry.len = ps.map fun p => BitVec.ofNat 15 p.len := by
  induction ps generalizing cur with
  | nil => rfl
  | cons p ps ih => simp [dirFlagsFrom, ih]

theorem exists_mem_dirFlags_len {ps : List Pass} {p : Pass} (hp : p ∈ ps) :
    ∃ e ∈ dirFlags ps, e.len = BitVec.ofNat 15 p.len := by
  have h := List.mem_map_of_mem (f := fun q : Pass => BitVec.ofNat 15 q.len) hp
  rwa [← map_len_dirFlagsFrom .fwd, List.mem_map] at h

theorem exists_pass_of_mem_dirFlags {ps : List Pass} {e : Entry} (he : e ∈ dirFlags ps) :
    ∃ p ∈ ps, e.len = BitVec.ofNat 15 p.len := by
  have h := List.mem_map_of_mem (f := Entry.len) he
  rw [dirFlags, map_len_dirFlagsFrom, List.mem_map] at h
  obtain ⟨p, hp, heq⟩ := h
  exact ⟨p, hp, heq.symm⟩

section
variable {ps : List Pass} {p q : Pass} (hp : p ∈ ps)
include hp

theorem not_isFixedLength_of_bwd (hd : p.dir = .bwd) : ¬ isFixedLength (dirFlags ps) = true := by
  obtain ⟨e, he, -⟩ := exists_mem_dirFlags_len hp
  rw [isFixedLength_iff (List.ne_nil_of_mem he)]
  rintro ⟨hcd, -⟩
  exact absurd (hd.symm.trans ((forall_cd_dirFlagsFrom .fwd ps).1 hcd p hp)) (by decide)

theorem not_isFixedLength_of_len_ne (hq : q ∈ ps) (hne : BitVec.ofNat 15 p.len ≠ BitVec.ofNat 15 q.len) :
    ¬ isFixedLength (dirFlags ps) = true := by
  obtain ⟨e, he, hel⟩ := exists_mem_dirFlags_len hp
  obtain ⟨f, hf, hfl⟩ := exists_mem_dirFlags_len hq
  rw [isFixedLength_iff (List.ne_nil_of_mem he)]
  rintro ⟨-, hlen⟩
  exact hne (hel.symm.trans ((hlen e he f hf).trans hfl))

/-- FULL: not of one length and direction, and a length above 127 (42_table.md R160). -/
theorem strategyOf_dirFlags_full (hfix : ¬ isFixedLength (dirFlags ps) = true) (hlt : 127 < p.len)
    (hle : p.len < 32768) : strategyOf (dirFlags ps) false = .full := by
  obtain ⟨e, he, hel⟩ := exists_mem_dirFlags_len hp
  have hlong : ¬ shortLenOf (dirFlags ps) = true := by
    rw [shortLenOf_iff]
    intro h
    have := h e he
    rw [hel, BitVec.toNat_ofNat] at this
    omega
  simp [strategyOf, hfix, hlong]

/-- COMPACT: a change of direction, and no length above 127 (42_table.md R160). -/
theorem strategyOf_dirFlags_compact (hd : p.dir = .bwd) (hshort : ∀ r ∈ ps, r.len ≤ 127) :
    strategyOf (dirFlags ps) false = .compact := by
  have hs : shortLenOf (dirFlags ps) = true := by
    rw [shortLenOf_iff]
    intro e he
    obtain ⟨r, hr, hel⟩ := exists_pass_of_mem_dirFlags he
    have := hshort r hr
    rw [hel, BitVec.toNat_ofNat]
    omega
  simp [strategyOf, not_isFixedLength_of_bwd hp hd, hs]

end

theorem strategyOf_comb (b : Bool) (o : AttOrder) : strategyOf (Gen.comb b o).table false = .full :=
  have hp := bwd_mem_passes_comb b o
  strategyOf_dirFlags_full hp (not_isFixedLength_of_bwd hp rfl) (by decide) (by decide)

theorem strategyOf_conv : strategyOf Gen.conv.table false = .compact := by
  refine strategyOf_dirFlags_compact (p := unitPass 215 .bwd) (List.mem_flatMap.2 ⟨0, by simp, by simp⟩) rfl ?_
  simp only [Gen.passes, List.forall_mem_flatMap, List.forall_mem_cons]
  simp [unitPass]

theorem strategyOf_div : strategyOf Gen.div.table false = .compact := by
  refine strategyOf_dirFlags_compact (p := unitPass 107 .bwd) (List.mem_flatMap.2 ⟨0, by simp, by simp⟩) rfl ?_
  simp only [Gen.passes, List.forall_mem_flatMap, List.forall_mem_cons]
  simp [unitPass]

theorem strategyOf_square {sz : Nat} (h : sz ≤ 3) : strategyOf (Gen.square sz).table false = .compact := by
  obtain ⟨p, hp, hd⟩ := exists_bwd_mem_squareTiling h
  refine strategyOf_dirFlags_compact hp hd fun r hr => ?_
  rw [len_of_mem_squareTiling hr]
  interval_cases sz <;> decide

theorem strategyOf_attrSq {sz : Nat} (h : sz ≤ 3) : strategyOf (Gen.attrSq sz).table false = .full := by
  have hthird : ⟨0x4000, 2048, .fwd⟩ ∈ attrSqPasses (2 ^ sz) := by simp [attrSqPasses]
  have hchunk : chunkPass (2 ^ sz) (0, 0) ∈ attrSqPasses (2 ^ sz) := by
    refine List.mem_append_left _ (List.mem_append_right _ (List.mem_map_of_mem (mem_checker.2 ?_)))
    interval_cases sz <;> decide
  refine strategyOf_dirFlags_full hthird (not_isFixedLength_of_len_ne hthird hchunk ?_) (by decide) (by decide)
  interval_cases sz <;> decide

/-- Settles O59: the counts are the generators' own; a strategy is read off one or two entries of the sequence, and the
serialized length is `k·m + 1` (42_table.md R164). -/
theorem generatorSizes : Obligations.GeneratorSizes := by
  unfold Obligations.GeneratorSizes
  simp only [length_tableBytes]
  refine ⟨fun b o => ?_, ⟨by decide, rfl, rfl⟩, ⟨rfl, by decide, rfl⟩, fun g hg => ?_, fun x hx => ?_, fun x hx => ?_⟩
  · have hlen : (Gen.comb b o).table.length = 48 := length_table (by cases b <;> cases o <;> decide)
    exact ⟨hlen, strategyOf_comb b o, by rw [hlen]; rfl⟩
  · obtain ⟨hlen, hstrat⟩ : g.table.length = 216 ∧ strategyOf g.table false = .compact := by
      simp only [List.mem_cons, List.not_mem_nil, or_false] at hg
      obtain rfl | rfl := hg
      · exact ⟨length_table (by decide), strategyOf_conv⟩
      · exact ⟨length_table (by decide), strategyOf_div⟩
    exact ⟨hlen, hstrat, by rw [hlen]; rfl⟩
  · obtain ⟨hsz, hcount, hsize⟩ : x.1 ≤ 3 ∧ 6912 / 2 ^ x.1 = x.2.1 ∧ 3 * x.2.1 + 1 = x.2.2 := by revert x; decide
    have hlen := (length_table (square_mem_admitted.2 hsz)).trans hcount
    exact ⟨hlen, strategyOf_square hsz, by rw [hlen]; exact hsize⟩
  · obtain ⟨hsz, hcount, hsize⟩ : x.1 ≤ 3 ∧ 3 + 768 / 2 ^ x.1 = x.2.1 ∧ 4 * x.2.1 + 1 = x.2.2 := by revert x; decide
    have hlen := (length_table (attrSq_mem_admitted.2 hsz)).trans hcount
    exact ⟨hlen, strategyOf_attrSq hsz, by rw [hlen]; exact hsize⟩

end Sys2Proof.Machine
end

section
/-! PROOFS. TBL_GEN (43_generators.md R190 to R213): the three families run one generator, its errors and what it leaves
behind are proved once. -/

namespace Sys2Proof.Machine

/-- The TBL_GEN commands, each with the generator its VAR and SZ name, if admissible (43_generators.md R193). -/
inductive TblGen : Instr → Option Gen → Prop where
  | comb (var : BitVec 3) (sz : Nat) : TblGen (.tblGenComb var sz) (admitComb var sz)
  | linear (var : BitVec 3) (sz : Nat) : TblGen (.tblGenLinear var sz) (admitLinear var sz)
  | attrSq (var : BitVec 3) (sz : Nat) : TblGen (.tblGenAttrSq var sz) (admitAttrSq var sz)

theorem TblGen.exec_eq {i : Instr} {o : Option Gen} (h : TblGen i o) (s : State) : exec i s = generate s o := by
  cases h <;> rfl

theorem TblGen.exec_of_none {i : Instr} {o : Option Gen} (h : TblGen i o) (ho : o = none) (s : State) :
    exec i s = .next { s with err := .config, pend := none } := by
  rw [h.exec_eq, ho, generate_none, raise_eq s .config (by decide)]

section
variable {s : State} {i : Instr} {o : Option Gen} {g : Gen} (h : TblGen i o) (ho : o = some g)
include h ho

theorem TblGen.mem_admitted : g ∈ Gen.admitted := by
  cases h with
  | comb var sz => exact admitComb_mem var sz g ho
  | linear var sz => exact admitLinear_mem var sz g ho
  | attrSq var sz => exact admitAttrSq_mem var sz g ho

theorem TblGen.exec_of_over (hover : s.params.tblCap < g.table.length) :
    exec i s = .next { s with err := .capacity, pend := none } := by
  rw [h.exec_eq, ho, generate_some s g (h.mem_admitted ho), if_pos hover, raise_eq s .capacity (by decide)]

theorem TblGen.exec_of_fits (hfit : g.table.length ≤ s.params.tblCap) :
    exec i s = .next ((s.setTable g.table).setCovok true).commit := by
  rw [h.exec_eq, ho, generate_some s g (h.mem_admitted ho), if_neg (Nat.not_lt.2 hfit)]

theorem TblGen.staged (hfit : g.table.length ≤ s.params.tblCap) :
    Staged s i ((s.setTable g.table).setCovok true) := by
  have hg := h.mem_admitted ho
  cases h with
  | comb var sz => exact .tblGenComb var sz g ho hg hfit
  | linear var sz => exact .tblGenLinear var sz g ho hg hfit
  | attrSq var sz => exact .tblGenAttrSq var sz g ho hg hfit

end

/-- What a TBL_GEN that completes leaves behind: the generator's table, which partitions the region, and everything else
as it was (43_generators.md R190, R214). -/
structure Generated (g : Gen) (s t : State) : Prop where
  entries : t.entries = g.table
  tcount : t.tcount.toNat = g.count
  covok : t.covok = true
  partitions : Partitions t.entries
  valid : ∀ e ∈ t.entries, e.valid = true
  frame : CommandFrame [.tcount] maskCovok s t
  obufKept : ObufKept s t

theorem TblGen.exists_generated {s : State} {i : Instr} {o : Option Gen} {g : Gen} (h : TblGen i o) (ho : o = some g)
    (hfit : g.count ≤ s.params.tblCap) : ∃ t, exec i s = .next t ∧ Generated g s t := by
  have hg := h.mem_admitted ho
  have hlen := length_table hg
  have hlt : g.table.length < 65536 := by have := count_le hg; omega
  have hentries : ((s.setTable g.table).setCovok true).commit.entries = g.table := entries_setTable s g.table hlt
  obtain ⟨hpart, hvalid⟩ := tiles_spec _ (tiles_admitted g hg)
  rw [← hlen] at hfit
  exact ⟨_, h.exec_of_fits ho hfit,
    { entries := hentries
      tcount := (toNat_tcount_setTable s g.table hlt).trans hlen
      covok := rfl
      partitions := by rw [hentries]; exact hpart
      valid := by rw [hentries]; exact hvalid
      frame := (h.staged ho hfit).commandFrame_setTable
      obufKept := fun _ => rfl }⟩

/-- Settles O58: the check of the capacity comes before the table is written, for all three families alike. -/
theorem generatorsKeepTheOldTableOnCapacity : Obligations.GeneratorsKeepTheOldTableOnCapacity :=
  fun _ var sz _ => ⟨(TblGen.comb var sz).exec_of_over, (TblGen.linear var sz).exec_of_over,
    (TblGen.attrSq var sz).exec_of_over⟩

theorem passes_comb (b : Bool) (o : AttOrder) :
    (Gen.comb b o).passes = if b then attPasses o ++ pixPasses else pixPasses ++ attPasses o := by
  cases b <;> rfl

/-- Settles O54: VAR names the order of the two phases and the order of the rows in the second (R197). -/
theorem tblGenCombBuildsTheTable : Obligations.TblGenCombBuildsTheTable := by
  intro s var rows hfit hrows pix att
  obtain ⟨o, hadmit, rfl⟩ : ∃ o, admitComb var 0 = some (.comb (var.getLsbD 0) o) ∧ rows = attRows o := by
    obtain ⟨hvar, hrows⟩ | ⟨hvar, hrows⟩ | ⟨hvar, hrows⟩ := hrows
    · exact ⟨.fwd, by simp [admitComb, hvar], hrows⟩
    · exact ⟨.conv, by simp [admitComb, hvar], hrows⟩
    · exact ⟨.div, by simp [admitComb, hvar], hrows⟩
  obtain ⟨t, hexec, hgen⟩ := (TblGen.comb var 0).exists_generated hadmit hfit
  have htable : t.entries = dirFlags (if var.getLsbD 0 then att ++ pix else pix ++ att) := by
    rw [hgen.entries, Gen.table, passes_comb]
    rfl
  exact ⟨t, hexec, htable, BitVec.eq_of_toNat_eq hgen.tcount, hgen.covok, hgen.partitions, hgen.valid, hgen.frame,
    hgen.obufKept⟩

/-- Settles O55, by the five linear generators. -/
theorem tblGenLinearBuildsTheTable : Obligations.TblGenLinearBuildsTheTable := by
  intro s var sz count table n stream hcases hfit
  obtain ⟨g, hadmit, rfl, rfl⟩ : ∃ g, admitLinear var sz = some g ∧ g.count = count ∧ g.table = table := by
    obtain ⟨rfl, rfl, rfl, rfl⟩ | ⟨rfl, rfl, rfl, rfl⟩ | ⟨rfl, rfl, rfl, rfl⟩ | ⟨rfl, rfl, rfl, rfl⟩ |
      ⟨rfl, hsz, rfl, rfl⟩ := hcases
    · exact ⟨.td, rfl, rfl, rfl⟩
    · exact ⟨.bu, rfl, rfl, rfl⟩
    · exact ⟨.conv, rfl, rfl, rfl⟩
    · exact ⟨.div, rfl, rfl, rfl⟩
    · exact ⟨.square sz, by simp [admitLinear, hsz], rfl, congrArg dirFlags (squareTiling_eq sz hsz)⟩
  obtain ⟨t, hexec, hgen⟩ := (TblGen.linear var sz).exists_generated hadmit hfit
  exact ⟨t, hexec, hgen.entries, hgen.tcount, hgen.covok, hgen.partitions, hgen.valid, hgen.frame, hgen.obufKept⟩

/-- Settles O56: the chunks are those of the checkerboard, and every pass is forward. -/
theorem tblGenAttrSqBuildsTheTable : Obligations.TblGenAttrSqBuildsTheTable := by
  intro s sz hsz hfit k thirds chunks
  have hadmit : admitAttrSq 0#3 sz = some (.attrSq sz) := by simp [admitAttrSq, hsz]
  obtain ⟨t, hexec, hgen⟩ := (TblGen.attrSq 0#3 sz).exists_generated hadmit hfit
  have htable : t.entries = dirFlags (thirds ++ chunks 0 ++ (chunks 1).reverse) := by
    rw [hgen.entries, Gen.table, Gen.passes, attrSqPasses, checker_map_chunkPass, checker_map_chunkPass]
  have hcd : ∀ e ∈ t.entries, e.cd = false := by
    rw [hgen.entries]
    exact (forall_cd_dirFlagsFrom .fwd _).2 fun _ => dir_of_mem_attrSqPasses
  exact ⟨t, hexec, htable, hcd, hgen.tcount, hgen.covok, hgen.partitions, hgen.valid, hgen.frame, hgen.obufKept⟩

/-! The words of TBL_GEN (43_generators.md R193). -/

/-- The admissible words, as 43_generators.md R193 lists them. -/
def generatorWords : List Nat :=
  [0x23, 0x423, 0x823, 0xC23, 0x1023, 0x1423, 0x123, 0x523, 0x923, 0xD23, 0x1123, 0x3123, 0x5123, 0x7123,
    0x223, 0x2223, 0x4223, 0x6223]

theorem isSome_admitComb_iff : ∀ (var : BitVec 3), ∀ sz < 4,
    ((admitComb var sz).isSome ↔ (wordG 0#2 var sz).toNat ∈ generatorWords) := by decide

theorem isSome_admitLinear_iff : ∀ (var : BitVec 3), ∀ sz < 4,
    ((admitLinear var sz).isSome ↔ (wordG 1#2 var sz).toNat ∈ generatorWords) := by decide

theorem isSome_admitAttrSq_iff : ∀ (var : BitVec 3), ∀ sz < 4,
    ((admitAttrSq var sz).isSome ↔ (wordG 2#2 var sz).toNat ∈ generatorWords) := by decide

/-- A word of TBL_GEN is the word of a family with the VAR and SZ it carries, and is listed exactly when they are
admissible (43_generators.md R193). -/
theorem exists_tblGen_of_word {w : Word} (hopc : w.toNat % 256 = 0x23) (hlt : w.toNat < 2 ^ 15)
    (hfam : w.toNat / 256 % 4 ≤ 2) :
    ∃ i o, decode w = .ok i ∧ TblGen i o ∧ (o.isSome ↔ w.toNat ∈ generatorWords) := by
  obtain ⟨fam, hf⟩ : ∃ fam, field w 8 2 = fam := ⟨_, rfl⟩
  have hfam' : fam.toNat ≤ 2 := by rwa [← hf, field_toNat]
  have hw := wordG_of_fields ((field_eq_iff _ _ _ _).2 (by simpa using hopc)) hf ((zeroFrom_iff _ _).2 hlt)
  have hsz : (field w 13 2).toNat < 4 := (field w 13 2).isLt
  generalize field w 10 3 = var at hw
  generalize (field w 13 2).toNat = sz at hw hsz
  have hwf : decide (sz < 4) = true := decide_eq_true hsz
  obtain rfl | rfl | rfl : fam = 0#2 ∨ fam = 1#2 ∨ fam = 2#2 := by clear hf hw; revert fam; decide
  all_goals subst hw
  · exact ⟨_, _, decodeOfEncode (.tblGenComb var sz) hwf, .comb var sz, isSome_admitComb_iff var sz hsz⟩
  · exact ⟨_, _, decodeOfEncode (.tblGenLinear var sz) hwf, .linear var sz, isSome_admitLinear_iff var sz hsz⟩
  · exact ⟨_, _, decodeOfEncode (.tblGenAttrSq var sz) hwf, .attrSq var sz, isSome_admitAttrSq_iff var sz hsz⟩

/-- Settles O57: a listed word names a generator, whose entries fit; any other one names none. -/
theorem exactlyEighteenGeneratorWordsSucceed : Obligations.ExactlyEighteenGeneratorWordsSucceed := by
  intro s es w hopc hlt hfam hfault
  obtain ⟨i, o, hdecode, hi, hlisted⟩ := exists_tblGen_of_word hopc hlt hfam
  obtain ⟨hruns, -⟩ := stepRunsTheDecodedCommand
  obtain ⟨hstep, -⟩ := hruns s es w i hdecode (.inl hfault)
  rw [hstep]
  refine ⟨fun hcap hmem => ?_, fun hnot => ?_⟩
  · obtain ⟨g, ho⟩ := Option.isSome_iff_exists.1 (hlisted.2 hmem)
    have hfit : g.table.length ≤ s.params.tblCap := by
      have hg := hi.mem_admitted ho
      exact (length_table hg).le.trans ((count_le hg).trans hcap)
    exact ⟨_, hi.exec_of_fits ho hfit, rfl, rfl⟩
  · exact hi.exec_of_none (Option.not_isSome_iff_eq_none.1 (mt hlisted.1 hnot)) _

end Sys2Proof.Machine
end

section
/-! PROOFS. The control commands (44_control.md R230, R231): NOP commits the state it ran on, SRESET is the soft
reset. -/

namespace Sys2Proof.Machine

/-- Settles O17: what NOP stages is the state itself, so its commit keeps all but ERR and PEND. -/
theorem nopOnlyClearsErr : Obligations.NopOnlyClearsErr :=
  ⟨decodeOfEncode .nop rfl, fun _ => ⟨_, rfl, Staged.nop.frame_commit (fun _ _ _ => rfl)
    (statusKept_done ⟨rfl, rfl, rfl, rfl, rfl, rfl, rfl⟩) rfl ⟨rfl, rfl⟩⟩⟩

/-- After a soft reset every register reads the reset column (44_control.md R231; 70_reset_and_hazards.md R271). -/
theorem readReg_softReset (s : State) (r : Reg) : readReg s.softReset r = resetColumn s.params r :=
  (readReg_withHost r).trans (readReg_resetWith s.params s.ibuf s.obuf s.tbl r)

/-- Settles O16: SRESET is the soft reset, which puts the buffers and the table RAM of the state it ran on beside the
reset column. -/
theorem sresetResetsRegistersAndKeepsBuffers : Obligations.SresetResetsRegistersAndKeepsBuffers :=
  ⟨decodeOfEncode .sreset rfl, fun s => ⟨s.softReset, rfl, readReg_softReset s, rfl, fun _ => rfl, fun _ => rfl, rfl,
    rfl, rfl, rfl⟩⟩

end Sys2Proof.Machine
end

section
/-! PROOFS. Errors and faults (60_exceptions.md R243 to R247): no event fails an assertion, an engine step that ends
with an error changes ERR, FAULT and BUSY only, and while FAULT = 1 only SRESET runs. -/

namespace Sys2Proof.Machine

/-- Only INVARIANT latches FAULT (60_exceptions.md R244). -/
theorem fault_raise (s : State) {c : ErrCode} (hc : c ≠ .invariant) : (s.raise c).fault = s.fault := by
  rw [raise_eq s c hc]

theorem Staged.fault_eq {s t : State} {i : Instr} (h : Staged s i t) : t.fault = s.fault := by
  obtain ⟨-, -, -, hfault, -⟩ := h.keeps
  exact hfault

/-- No command ends with INVARIANT or sets FAULT (60_exceptions.md R246). -/
theorem exec_err_fault {i : Instr} {s t : State} (h : exec i s = .next t) :
    t.err ≠ .invariant ∧ (t.fault = true → s.fault = true) := by
  rcases exec_cases i s with ⟨u, hst, hu⟩ | ⟨c, -, hc, hraise⟩ | ⟨-, hreset⟩
  · cases hu.symm.trans h
    exact ⟨nofun, fun hf => hst.fault_eq.symm.trans hf⟩
  · cases hraise.symm.trans h
    exact ⟨hc, fun hf => (fault_raise s hc).symm.trans hf⟩
  · cases hreset.symm.trans h
    exact ⟨nofun, nofun⟩

/-- Soundness speaks of FAULT and ERR only. -/
theorem State.Sound.of_same {s t : State} (h : s.Sound) (hf : t.fault = s.fault) (he : t.err = s.err) : t.Sound := by
  obtain ⟨hfault, herr⟩ := h
  exact ⟨hf.trans hfault, fun hi => herr (he.symm.trans hi)⟩

section
variable {s : State} (h : s.Sound)
include h

theorem State.Sound.exec {i : Instr} {t : State} (ht : exec i s = .next t) : t.Sound := by
  obtain ⟨hfault, -⟩ := h
  obtain ⟨herr, hlatch⟩ := exec_err_fault ht
  exact ⟨Bool.eq_false_iff.2 fun hf => absurd (hfault.symm.trans (hlatch hf)) (by decide), herr⟩

theorem State.Sound.raise {c : ErrCode} (hc : c ≠ .invariant) : (s.raise c).Sound := by
  obtain ⟨hfault, -⟩ := h
  exact ⟨(fault_raise s hc).trans hfault, hc⟩

theorem State.Sound.hostRead (addr : BusAddr) (w : Width) : (hostRead s addr w).Sound := by
  obtain ⟨r, hr⟩ := hostRead_cases s addr w
  rw [hr]
  exact h.of_same rfl rfl

/-- A host write reaches neither FAULT nor ERR: STATUS lets the host clear OVERRUN and WREJ only (10_state.md R24). -/
theorem State.Sound.hostWrite (addr : BusAddr) (w : Width) (data : Word) : (hostWrite s addr w data).Sound := by
  rcases hostWrite_cases s addr w data with
    ⟨e, hw⟩ | ⟨-, hw⟩ | ⟨r, -, hw⟩ | ⟨off, bs, -, -, hw⟩ | ⟨off, bs, -, -, hw⟩ <;> rw [hw]
  case inr.inr.inl =>
    obtain ⟨-, hf, he, -⟩ := writeReg_keeps s data r
    exact h.of_same hf he
  all_goals exact h.of_same rfl rfl

end

/-- Settles O10: no command fails an assertion, in any state, and each event of a step keeps the unit sound. -/
theorem faultStaysZero : Obligations.FaultStaysZero := by
  refine ⟨fun i s t => exec_err_fault, fun s t h hstep => ?_⟩
  have hevents (es : List Event) : State.Sound { s with events := es } := h.of_same rfl rfl
  rcases step_cases s t hstep with
    ⟨es, rfl⟩ | ⟨es, w, i, -, -, hexec⟩ | ⟨es, c, hc, rfl⟩ | ⟨es, addr, w, rfl⟩ | ⟨es, addr, w, data, rfl⟩ |
      ⟨es, ib, ob, tb, rfl⟩
  · exact hevents es
  · exact (hevents es).exec hexec
  · exact (hevents es).raise hc
  · exact (hevents es).hostRead addr w
  · exact (hevents es).hostWrite addr w data
  · exact ⟨rfl, nofun⟩

/-- How an engine step ends: with ERR = OK and no command pending, or by raising a code that is not INVARIANT
(30_encoding.md R90; 60_exceptions.md R243, R246). -/
theorem engineStep_cases (w : Word) (s : State) :
    (∃ t, t.pend = none ∧ t.err = .ok ∧ engineStep w s = .next t) ∨
    (∃ c, c ≠ .invariant ∧ engineStep w s = .next (s.raise c)) := by
  unfold engineStep
  split
  · exact .inr ⟨.faulted, nofun, rfl⟩
  split
  · exact .inr ⟨.illegal, nofun, rfl⟩
  next i _ =>
    rcases exec_cases i s with ⟨u, -, hu⟩ | ⟨c, -, hc, hraise⟩ | ⟨-, hreset⟩
    · exact .inl ⟨u.commit, rfl, rfl, hu⟩
    · exact .inr ⟨c, hc, hraise⟩
    · exact .inl ⟨s.softReset, rfl, rfl, hreset⟩

/-- Settles O9: an engine step whose ERR is not OK raised a code, which writes ERR, FAULT and PEND only. -/
theorem errorsChangeOnlyErrFaultAndBusy : Obligations.ErrorsChangeOnlyErrFaultAndBusy := by
  intro s t es w hstep
  rcases engineStep_cases w { s with pend := some w, events := es } with ⟨u, hpend, hok, hu⟩ | ⟨c, hc, hraise⟩
  · cases hu.symm.trans hstep
    exact ⟨hpend, fun hne => absurd hok hne⟩
  · cases hraise.symm.trans hstep
    exact ⟨rfl, fun _ => ⟨rfl, fun hf => .inl ((fault_raise _ hc).symm.trans hf)⟩⟩

/-- While FAULT = 1 a word that is not SRESET's is not even decoded (60_exceptions.md R245). -/
theorem engineStep_of_fault {s : State} {w : Word} (hf : s.fault = true) (hw : w ≠ 0x000000FF#32) :
    engineStep w s = .next { s with err := .faulted, pend := none } := by
  rw [engineStep, if_pos ⟨hf, hw⟩, raise_eq s .faulted nofun]

section
variable (s : State) (b : Bool)

/-- FAULT shows in STATUS only (10_state.md R24). -/
theorem readReg_withFault {r : Reg} (h : r ≠ .status) : readReg { s with fault := b } r = readReg s r := by
  cases r
  case status => exact absurd rfl h
  all_goals rfl

theorem readTarget_withFault (w : Width) {t : Target} (h : t ≠ .reg .status) :
    readTarget { s with fault := b } w t = readTarget s w t := by
  cases t with
  | reg r => exact readReg_withFault s b fun hr => h (congrArg Target.reg hr)
  | reserved | ibuf | obuf => rfl

theorem writeHeader_withFault (v : Word) (put : Header → BitVec 16 → Header) :
    writeHeader { s with fault := b } v put = { writeHeader s v put with fault := b } := by
  unfold writeHeader
  split <;> rfl

theorem writeReg_withFault (v : Word) (r : Reg) :
    writeReg { s with fault := b } v r = { writeReg s v r with fault := b } := by
  cases r with
  | hdrPilot | hdrSync0 | hdrSync1 | hdrZero | hdrOne | hdrPcount | hdrPause =>
    simp only [writeReg, writeHeader_withFault]
  | _ => rfl

theorem writeTarget_withFault (w : Width) (data : Word) (t : Target) :
    writeTarget { s with fault := b } w data t = { writeTarget s w data t with fault := b } := by
  cases t with
  | reg r => exact writeReg_withFault s b data r
  | reserved | ibuf | obuf => rfl

variable (addr : BusAddr) (w : Width)

/-- A host write while BUSY = 0 neither reads nor writes FAULT (60_exceptions.md R245). -/
theorem hostWrite_withFault_of_idle (data : Word) (hp : s.pend = none) :
    hostWrite { s with fault := b } addr w data = { hostWrite s addr w data with fault := b } := by
  cases ht : target s.params addr w with
  | none => simp only [hostWrite, ht, State.respond]
  | some t =>
    rw [hostWrite_of_idle ht data hp, hostWrite_of_idle (s := { s with fault := b }) ht data hp,
      writeTarget_withFault]
    rfl

/-- A host read of anything but STATUS neither reads nor writes FAULT (60_exceptions.md R245). -/
theorem hostRead_withFault (h : target s.params addr w ≠ some (.reg .status)) :
    hostRead { s with fault := b } addr w = { hostRead s addr w with fault := b } := by
  cases ht : target s.params addr w with
  | none => simp only [hostRead, ht, State.respond]
  | some t =>
    rw [hostRead_of_target ht, hostRead_of_target (s := { s with fault := b }) ht,
      readTarget_withFault s b w fun hst => h (ht.trans (congrArg some hst))]
    rfl

end

/-- Settles O7: the engine step looks at FAULT before it decodes, and 0x000000FF is SRESET's word; a host access
commutes with setting FAULT. -/
theorem faultedUnitAcceptsOnlySreset : Obligations.FaultedUnitAcceptsOnlySreset := by
  refine ⟨fun s es w hf hw => ?_, fun s es _ => ?_, fun s addr w data hp => ?_, fun s addr w h => ?_⟩
  · exact engineStep_of_fault (s := { s with pend := some w, events := es }) hf hw
  · exact engineStep_of_decode (s := { s with pend := some 0x000000FF#32, events := es })
      (decodeOfEncode .sreset rfl) (.inr rfl)
  · exact hostWrite_withFault_of_idle { s with fault := false } true addr w data hp
  · exact hostRead_withFault { s with fault := false } true addr w h

end Sys2Proof.Machine
end

section
/-! PROOFS. Reset and hazards (70_reset_and_hazards.md R270, R279, R280): every step answers a next state, the reset
state meets the invariant, and a hardware reset gives the reset column in any state. -/

namespace Sys2Proof.Machine

/-- The engine's turn answers a next state: it waits while no command is pending (70_reset_and_hazards.md R280), and
ends the pending one otherwise (R279). -/
theorem exists_engineTurn_eq_next (s : State) : ∃ t, engineTurn s = .next t := by
  unfold engineTurn
  cases s.pend with
  | none => exact ⟨s, rfl⟩
  | some w => rcases engineStep_cases w s with ⟨t, -, -, h⟩ | ⟨_, -, h⟩ <;> exact ⟨_, h⟩

/-- Settles O8, by the event the step takes: the engine's turn and every command end in a next state, and a host access
or a hardware reset is one by definition. -/
theorem everyStepAnswersANextState : Obligations.EveryStepAnswersANextState := by
  refine ⟨fun s => ?_, exists_exec_eq_next⟩
  unfold step nextEvent
  cases s.events with
  | nil => exact exists_engineTurn_eq_next s
  | cons e es =>
    cases e with
    | engine => exact exists_engineTurn_eq_next { s with events := es }
    | read | write | hwReset => exact ⟨_, rfl⟩

/-- A reset clears FAULT and ERR (70_reset_and_hazards.md R270). -/
theorem State.Sound.resetWith (p : Params) (ibuf obuf : Memory) (tbl : List Entry) :
    (State.resetWith p ibuf obuf tbl).Sound :=
  ⟨rfl, nofun⟩

/-- The values of the spec's examples are legal ones (00_scope.md R5). -/
theorem legal_examples : Params.examples.Legal := by decide

/-- Settles O12: a reset of a legal instance meets the invariant whatever fits in its buffers and table RAM, and
`State.reset` is the one of the examples' instance with nothing in them. -/
theorem resetMeetsTheInvariant : Obligations.ResetMeetsTheInvariant :=
  ⟨.resetWith legal_examples ⟨.nil, nofun⟩ nofun ⟨.nil, nofun⟩ nofun (Nat.zero_le _), .resetWith _ _ _ _,
    fun _ _ _ _ hp hi hi' ho ho' ht => ⟨.resetWith hp hi hi' ho ho' ht, .resetWith _ _ _ _⟩⟩

/-- After a hardware reset every register reads the reset column (70_reset_and_hazards.md R270). -/
theorem readReg_hardReset (s : State) (ib ob : List Host.Cell) (tb : List Entry) (r : Reg) :
    readReg (s.hardReset ib ob tb) r = resetColumn s.params r :=
  (readReg_withHost r).trans (readReg_resetWith s.params _ _ _ r)

/-- Settles O15: the event's step is the hardware reset, which looks at the state's parameters only and puts the
event's contents, cut to the instance's sizes, beside the reset column. -/
theorem hardwareResetGivesTheResetColumn : Obligations.HardwareResetGivesTheResetColumn :=
  ⟨readReg_resetWith Params.examples [] [] [], fun s es ib ob tb =>
    ⟨State.hardReset { s with events := es } ib ob tb, rfl, readReg_hardReset { s with events := es } ib ob tb, rfl,
      rfl, rfl, rfl, rfl, rfl⟩⟩

end Sys2Proof.Machine
end
